-- ==== Sys2Proof/Word.lean ====
section
/-! DEFINITION. The bit vectors of the block: an input or output byte, a packed nibble, a command word.
Every value of the block is unsigned (spec/00_scope.md §5.1). -/

namespace Sys2Proof

/-- A byte of the input stream, of the blob, or an 8-bit register (R3: data byte width 8). -/
abbrev Byte := BitVec 8

/-- A 4-bit field of a packed output byte, and the width of `nib_hold` (R10, R67, R69). -/
abbrev Nibble := BitVec 4

/-- The 11-bit command word `cmd[10:0]` (R60). -/
abbrev CmdWord := BitVec 11

end Sys2Proof
end

