-- ==== Sys2Proof/Config.lean ====
section
/-! DEFINITION. What an implementation of the block fixes (the two counter widths that the spec leaves open),
and the free values of the reference decoder. The free values have no body: no proof can see what they are. -/

namespace Sys2Proof

/-- The open widths of R3 and D10. `none` is the "unbounded" instantiation that D10 permits, under which `OVF` never fires.
A machine's widths stand in its State, where no step changes them, so a statement about every state holds for every width. -/
structure Params where
  /-- `OFFW`: the width of `out_count`, `in_count` and of an offset record's value. -/
  offw : Option Nat
  /-- `IDXW`: the width of `chunk_idx` and of an offset record's index. -/
  idxw : Option Nat
deriving DecidableEq, Repr

/-- R3: a width that is given is a positive natural. -/
def Params.positive (p : Params) : Bool :=
  p.offw.all (fun k => decide (1 ≤ k)) && p.idxw.all (fun k => decide (1 ≤ k))

/-- The widths R3 suggests: `OFFW` = 32, `IDXW` = 16. DESIGN CHOICE for the reset state only (log entry 2). -/
def Params.suggested : Params := ⟨some 32, some 16⟩

/-- Free value (R173, U1; log entry 10): the destination element at a position that the source does not cover. -/
opaque Config.uncoveredPixel : Nat → Byte

/-- Free value (R173, R175, R177, U3; log entry 10): the destination bit at a position that the source does not cover. -/
opaque Config.uncoveredBit : Nat → Bool

/-- Free value (R177, U3; log entry 10): a bit of the last destination byte that decoding left unset. -/
opaque Config.unsetBit : Nat → Bool

end Sys2Proof
end

