-- ==== Sys2Proof/Syntax.lean ====
section
/-! DEFINITION. The configuration codes and the instructions: one constructor per row of spec/opcode_table.json.
The first eight rows are command words; the last five are the formats of what the block writes on its output
channels, which the commands produce by the operations of R100, R118, R120 and R135. -/

namespace Sys2Proof

/-- The four encoding modes (R2, R63). -/
inductive Mode where
  | vrWide
  | vrPacked
  | brWide
  | brPacked
deriving DecidableEq, Repr

/-- The four bit widths `bpp` = 1, 2, 4, 8, by the code `bppc` that stands for each (R1, R64). -/
inductive BppCode where
  | bpp1
  | bpp2
  | bpp4
  | bpp8
deriving DecidableEq, Repr

inductive Instr where
  /-- `NOP` (R151). -/
  | nop
  /-- `CFG mode, bpp` (R152). -/
  | cfg (mode : Mode) (bppc : BppCode)
  /-- `BEGIN` (R153). -/
  | beginChunk
  /-- `PUSH b` (R154). -/
  | push (b : Byte)
  /-- `END` (R155). -/
  | endChunk
  /-- The reserved operation code 5 with any `arg` (R65). -/
  | reservedOp5 (arg : Byte)
  /-- The reserved operation code 6 with any `arg` (R65). -/
  | reservedOp6 (arg : Byte)
  /-- The reserved operation code 7 with any `arg` (R65). -/
  | reservedOp7 (arg : Byte)
  /-- A `VR_WIDE` unit: a count byte, then a value byte (R66). -/
  | unitVrWide (count value : Byte)
  /-- A `VR_PACKED` unit: one byte, the length less one over the value (R67). -/
  | unitVrPacked (countM1 value : Nibble)
  /-- A `BR_WIDE` unit: one byte, the count (R68). -/
  | unitBrWide (count : Byte)
  /-- A `BR_PACKED` byte: the earlier count over the later one (R69). -/
  | byteBrPacked (countHi countLo : Nibble)
  /-- An offset record (R74). -/
  | offsetRecord (index value : Nat)
deriving DecidableEq, Repr

/-- Is the instruction a command word of R61, the reserved operation codes among them, and not an output format? -/
def Instr.isCommand : Instr → Bool
  | .nop | .cfg _ _ | .beginChunk | .push _ | .endChunk => true
  | .reservedOp5 _ | .reservedOp6 _ | .reservedOp7 _ => true
  | .unitVrWide _ _ | .unitVrPacked _ _ | .unitBrWide _ | .byteBrPacked _ _ | .offsetRecord _ _ => false

/-- The mnemonic of the instruction's row in spec/opcode_table.json. -/
def Instr.mnemonic : Instr → String
  | .nop => "NOP"
  | .cfg _ _ => "CFG"
  | .beginChunk => "BEGIN"
  | .push _ => "PUSH"
  | .endChunk => "END"
  | .reservedOp5 _ => "RESERVED_OP5"
  | .reservedOp6 _ => "RESERVED_OP6"
  | .reservedOp7 _ => "RESERVED_OP7"
  | .unitVrWide _ _ => "UNIT_VR_WIDE"
  | .unitVrPacked _ _ => "UNIT_VR_PACKED"
  | .unitBrWide _ => "UNIT_BR_WIDE"
  | .byteBrPacked _ _ => "BYTE_BR_PACKED"
  | .offsetRecord _ _ => "OFFSET_RECORD"

end Sys2Proof
end

