-- ==== Sys2Proof/WellFormed.lean ====
section
/-! DEFINITION. Which instruction terms stand for something the block can be given or can produce.
The types already bound every field but three: the count of a `VR_WIDE` unit and the two integers of an offset record. -/

namespace Sys2Proof

/-- Does a natural fit a width (`none` is unbounded)? R10: a counter of `k` bits ranges over `0 .. 2^k - 1`. -/
def fitsWidth : Option Nat → Nat → Bool
  | none, _ => true
  | some k, n => decide (n < 2 ^ k)

/-- Every command term is well formed: the checks on a command's bits are its decoding (R65).
A `VR_WIDE` count is 1..255 (R66); an offset record's integers fit `IDXW` and `OFFW` (R74). -/
def wellFormed (p : Params) : Instr → Bool
  | .nop | .cfg _ _ | .beginChunk | .push _ | .endChunk => true
  | .reservedOp5 _ | .reservedOp6 _ | .reservedOp7 _ => true
  | .unitVrWide count _ => decide (count ≠ 0)
  | .unitVrPacked _ _ | .unitBrWide _ | .byteBrPacked _ _ => true
  | .offsetRecord index value => fitsWidth p.idxw index && fitsWidth p.offw value

end Sys2Proof
end

