-- ==== Sys2Proof/Decode.lean ====
section
/-! DEFINITION. The codes of the modes and widths, the decoder and the encoder. Commands are 11-bit words (R60 to R65);
the output rows are read from blob bytes, whose format the mode alone tells (R66 to R71), or from an offset record (R74). -/

namespace Sys2Proof

/-! ### Configuration codes -/

/-- The mode codes of R63. -/
def Mode.code : Mode → BitVec 2
  | .vrWide => 0
  | .vrPacked => 1
  | .brWide => 2
  | .brPacked => 3

def Mode.ofCode (c : BitVec 2) : Mode :=
  match c.toNat with
  | 0 => .vrWide
  | 1 => .vrPacked
  | 2 => .brWide
  | _ => .brPacked

/-- The bit-width codes of R64. -/
def BppCode.code : BppCode → BitVec 2
  | .bpp1 => 0
  | .bpp2 => 1
  | .bpp4 => 2
  | .bpp8 => 3

def BppCode.ofCode (c : BitVec 2) : BppCode :=
  match c.toNat with
  | 0 => .bpp1
  | 1 => .bpp2
  | 2 => .bpp4
  | _ => .bpp8

/-! ### The fields of a command word -/

/-- `op` = `cmd[10:8]` (R60). -/
def opField (w : CmdWord) : BitVec 3 := w.extractLsb' 8 3

/-- `arg` = `cmd[7:0]` (R60). -/
def argField (w : CmdWord) : Byte := w.extractLsb' 0 8

/-- `arg[1:0]`, the mode operand of `CFG` (R62). -/
def cfgModeField (arg : Byte) : BitVec 2 := arg.extractLsb' 0 2

/-- `arg[3:2]`, the width operand of `CFG` (R62). -/
def cfgBppcField (arg : Byte) : BitVec 2 := arg.extractLsb' 2 2

/-- `arg[7:4]`, which `CFG` requires to be 0 (R62). -/
def cfgZeroField (arg : Byte) : BitVec 4 := arg.extractLsb' 4 4

/-- Two nibbles as a byte, the first in bits 7..4: `(hi << 4) | lo` (R67, R69). -/
def nibblePair (hi lo : Nibble) : Byte := (hi.setWidth 8 <<< 4) ||| lo.setWidth 8

/-- `b[7:4]` (spec/00_scope.md §5.1). -/
def highNibble (b : Byte) : Nibble := b.extractLsb' 4 4

/-- `b[3:0]` (spec/00_scope.md §5.1). -/
def lowNibble (b : Byte) : Nibble := b.extractLsb' 0 4

/-! ### The decoder -/

/-- Why a word or a piece of the output is no instruction. The first four are the illegal encodings of R65 that have
no row of their own; `step` answers each with the fault `ILLEGAL` (R192). The last two are about output formats only. -/
inductive DecodeError where
  | nopArgNotZero
  | cfgReservedBits
  | beginArgNotZero
  | endArgNotZero
  /-- The bytes are not exactly one unit of the mode's format (R71). -/
  | notOneUnit
  /-- A `VR_WIDE` count byte of 0, which the encoder never produces (R66). -/
  | zeroCount
deriving DecidableEq, Repr

/-- R61, R62, R65: the command of an 11-bit word. -/
def decodeCommand (w : CmdWord) : Except DecodeError Instr :=
  let arg := argField w
  match (opField w).toNat with
  | 0 => if arg = 0 then .ok .nop else .error .nopArgNotZero
  | 1 =>
    if cfgZeroField arg = 0 then .ok (.cfg (.ofCode (cfgModeField arg)) (.ofCode (cfgBppcField arg)))
    else .error .cfgReservedBits
  | 2 => if arg = 0 then .ok .beginChunk else .error .beginArgNotZero
  | 3 => .ok (.push arg)
  | 4 => if arg = 0 then .ok .endChunk else .error .endArgNotZero
  | 5 => .ok (.reservedOp5 arg)
  | 6 => .ok (.reservedOp6 arg)
  | _ => .ok (.reservedOp7 arg)

/-- R66 to R70: the one unit of a mode's format that the bytes hold (two counts, one byte, in `BR_PACKED`). -/
def decodeUnit : Mode → List Byte → Except DecodeError Instr
  | .vrWide, [c, v] => if c = 0 then .error .zeroCount else .ok (.unitVrWide c v)
  | .vrPacked, [b] => .ok (.unitVrPacked (highNibble b) (lowNibble b))
  | .brWide, [c] => .ok (.unitBrWide c)
  | .brPacked, [b] => .ok (.byteBrPacked (highNibble b) (lowNibble b))
  | _, _ => .error .notOneUnit

/-- The three shapes in which the rows of the opcode table are written: a command word on the command channel,
bytes on the blob channel of a run whose mode is known, a record on the offset channel. -/
inductive Form where
  | command (w : CmdWord)
  | blob (mode : Mode) (bytes : List Byte)
  | record (index value : Nat)
deriving DecidableEq, Repr

/-- Total on every form. -/
def decode : Form → Except DecodeError Instr
  | .command w => decodeCommand w
  | .blob m bytes => decodeUnit m bytes
  | .record index value => .ok (.offsetRecord index value)

/-- R65: the illegal command words, as the rule lists them. -/
def illegalWord (w : CmdWord) : Bool :=
  opField w == 5 || opField w == 6 || opField w == 7
    || ((opField w == 0 || opField w == 2 || opField w == 4) && argField w != 0)
    || (opField w == 1 && cfgZeroField (argField w) != 0)

/-! ### The encoder -/

/-- A command word from its operation code and its operand byte (R60). -/
def commandWord (op : BitVec 3) (arg : Byte) : CmdWord := (op.setWidth 11 <<< 8) ||| arg.setWidth 11

/-- `0x100 | (bppc << 2) | mode` (R62). -/
def cfgWord (m : Mode) (b : BppCode) : CmdWord :=
  0x100#11 ||| (b.code.setWidth 11 <<< 2) ||| m.code.setWidth 11

/-- R61, R62, R66 to R69, R74: the words or bytes of an instruction. -/
def encode : Instr → Form
  | .nop => .command (commandWord 0 0)
  | .cfg m b => .command (cfgWord m b)
  | .beginChunk => .command (commandWord 2 0)
  | .push b => .command (commandWord 3 b)
  | .endChunk => .command (commandWord 4 0)
  | .reservedOp5 arg => .command (commandWord 5 arg)
  | .reservedOp6 arg => .command (commandWord 6 arg)
  | .reservedOp7 arg => .command (commandWord 7 arg)
  | .unitVrWide count value => .blob .vrWide [count, value]
  | .unitVrPacked countM1 value => .blob .vrPacked [nibblePair countM1 value]
  | .unitBrWide count => .blob .brWide [count]
  | .byteBrPacked hi lo => .blob .brPacked [nibblePair hi lo]
  | .offsetRecord index value => .record index value

/-! ### The opcode table's command rows, as the spec prints them -/

/-- A row of R61: a word `w` is the row's command when `w & mask = match`. -/
structure CommandRow where
  mnemonic : String
  pattern : CmdWord
  mask : CmdWord
deriving DecidableEq, Repr

/-- The match and mask columns of spec/opcode_table.json (R61). -/
def commandRows : List CommandRow :=
  [ ⟨"NOP", 0x000, 0x7FF⟩, ⟨"CFG", 0x100, 0x7F0⟩, ⟨"BEGIN", 0x200, 0x7FF⟩, ⟨"PUSH", 0x300, 0x700⟩,
    ⟨"END", 0x400, 0x7FF⟩, ⟨"RESERVED_OP5", 0x500, 0x700⟩, ⟨"RESERVED_OP6", 0x600, 0x700⟩,
    ⟨"RESERVED_OP7", 0x700, 0x700⟩ ]

/-- The decoder on a word numbered as spec/opcode_table.json numbers it. A command has 11 bits, so fewer bits than that are
no command word, and neither is a word with a bit above bit 10. -/
def decodeTableWord (nbits w : Nat) : Option Instr :=
  if nbits < 11 then none
  else if 2 ^ 11 ≤ w then none
  else
    match decodeCommand (BitVec.ofNat 11 w) with
    | .ok i => some i
    | .error _ => none

end Sys2Proof
end

