-- ==== Sys2Proof/Machine/State.lean ====
section
/-! DEFINITION. The state: `Block`, the thirteen registers of R10, which are the whole state of the block; and `State`, the
block with the two widths the spec leaves open and with the host's side of its interface, which is no state of the block
(R26): the inputs that are still to come, and the events that have left on the output channels. -/

namespace Sys2Proof.Machine

/-- The control phases of R11. -/
inductive Phase where
  | unconf
  | idle
  | chunk
  | fault
deriving DecidableEq, Repr

/-- The values of `fault_code` (R13, R191). -/
inductive FaultCode where
  | noFault
  | illegal
  | proto
  | ovf
deriving DecidableEq, Repr

/-- An event of the output trace (spec/00_scope.md §5.3): a blob byte, or an offset record. -/
inductive Event where
  | byte (v : Byte)
  | off (index value : Nat)
deriving DecidableEq, Repr

/-- What the host does to the block (R219): it presents a command word, asserts reset, or takes the oldest event of
one of the two output channels. Reading the status outputs takes no step (R21). -/
inductive Input where
  | command (w : CmdWord)
  | reset
  | takeByte
  | takeOffset
deriving DecidableEq, Repr

/-- The state of the block: the thirteen registers of R10 and nothing else. What the block has emitted, the bytes it was
given and the values inside a `PUSH` are no part of it (R26). -/
structure Block where
  /-- `phase` (R11). -/
  phase : Phase
  /-- `fault_code` (R13). -/
  faultCode : FaultCode
  /-- `mode` (R14). -/
  mode : Mode
  /-- `bppc` (R14). -/
  bppc : BppCode
  /-- `run_valid` (R15). -/
  runValid : Bool
  /-- `run_val` (R15). -/
  runVal : Byte
  /-- `run_cnt` (R15, R16). -/
  runCnt : Byte
  /-- `tgt` (R16): the source's `currentTargetBit`, `false` for 0. -/
  tgt : Bool
  /-- `nib_valid` (R17). -/
  nibValid : Bool
  /-- `nib_hold` (R17). -/
  nibHold : Nibble
  /-- `out_count` (R18): a natural in the range `OFFW` gives, as R10 permits. -/
  outCount : Nat
  /-- `in_count` (R19). -/
  inCount : Nat
  /-- `chunk_idx` (R20). -/
  chunkIdx : Nat
deriving DecidableEq, Repr

/-- The block at its interface: its registers, the widths of its counters, and the host's side, which is no state of the
block (R26, log entry 1). The fields of the host's side are what a step takes its input from and hands its events to; no
command reads one of them. -/
structure State extends Block where
  /-- The machine's widths (R3), which no step changes. -/
  params : Params
  /-- The host's inputs still to come, the next one first. -/
  pending : List Input
  /-- Every event handed over so far, oldest first; nothing is ever taken back (R50, R211). -/
  events : List Event
  /-- How many of `events` came before the last reset: the output trace is what follows (spec/00_scope.md §5.3). -/
  resetAt : Nat
  /-- How many of `events` came before the last `CFG` or reset: the blob and the table are in what follows. -/
  runAt : Nat
  /-- How many `Byte` events the host has taken from the blob channel. -/
  bytesTaken : Nat
  /-- How many `Off` events the host has taken from the offset channel. -/
  offsTaken : Nat
deriving DecidableEq, Repr

/-- The machine never stops with a fault: the three faults of the spec (R191) are entered, with a next state (R193). -/
inductive Fault where
deriving DecidableEq, Repr

/-- The one refusal: raised in `exec`'s arm of an instruction that has no meaning yet; no arm raises it. Safe. -/
inductive Refusal where
  | notModelled (mnemonic : String)
deriving DecidableEq, Repr

/-- R25: every register after reset. The widths are R3's suggestion (log entry 2); nothing has been handed over and no
input is waiting. -/
def State.reset : State where
  phase := .unconf
  faultCode := .noFault
  mode := .vrWide
  bppc := .bpp1
  runValid := false
  runVal := 0
  runCnt := 0
  tgt := false
  nibValid := false
  nibHold := 0
  outCount := 0
  inCount := 0
  chunkIdx := 0
  params := .suggested
  pending := []
  events := []
  resetAt := 0
  runAt := 0
  bytesTaken := 0
  offsTaken := 0

end Sys2Proof.Machine
end

