-- ==== Sys2Proof/Machine/Operands.lean ====
section
/-! DEFINITION. What a mode and a width code mean, the pixel unpacker, and the preparation of a pixel: the operand of
every step of the run-length machine. -/

namespace Sys2Proof

/-- `Cap(mode)` (R2, R63). -/
def Mode.cap : Mode → Nat
  | .vrWide => 255
  | .vrPacked => 16
  | .brWide => 255
  | .brPacked => 15

/-- Is the mode of the value-run family (`mode[1] = 0`, R63)? -/
def Mode.isValueRun : Mode → Bool
  | .vrWide | .vrPacked => true
  | .brWide | .brPacked => false

/-- `bpp` (R64). -/
def BppCode.bpp : BppCode → Nat
  | .bpp1 => 1
  | .bpp2 => 2
  | .bpp4 => 4
  | .bpp8 => 8

/-- `ppb = 8 / bpp`, the pixels of a byte (R64). -/
def BppCode.ppb (c : BppCode) : Nat := 8 / c.bpp

namespace Machine

/-- `px(k)` of R80. -/
def pixelAt (c : BppCode) (b : Byte) (k : Nat) : Byte :=
  (b >>> (8 - c.bpp * (k + 1))) &&& BitVec.ofNat 8 (2 ^ c.bpp - 1)

/-- `Unpack(bpp, b)` (R80): most significant pixel first. -/
def unpack (c : BppCode) (b : Byte) : List Byte :=
  (List.range c.ppb).map (pixelAt c b)

/-- `Quant(bpp, v)` (R90). -/
def quant (c : BppCode) (v : Byte) : Byte :=
  match c with
  | .bpp8 => v >>> 4
  | .bpp1 | .bpp2 | .bpp4 => v &&& 0xF

/-- `PrepVR(mode, bpp, v)` (R91): only `VR_PACKED` quantises. -/
def prepVR (m : Mode) (c : BppCode) (v : Byte) : Byte :=
  match m with
  | .vrPacked => quant c v
  | .vrWide | .brWide | .brPacked => v

/-- `Thresh(v)` (R110); `true` for 1. -/
def thresh (v : Byte) : Bool := v != 0

end Machine

end Sys2Proof
end

