-- ==== Sys2Proof/Machine/Flags.lean ====
section
/-! DEFINITION. The status outputs: the block's one flag and the thirteen registers as the host reads them. -/

namespace Sys2Proof.Machine

/-- The phase codes of R11. -/
def Phase.code : Phase → BitVec 2
  | .unconf => 0
  | .idle => 1
  | .chunk => 2
  | .fault => 3

/-- The fault codes of R13. -/
def FaultCode.code : FaultCode → BitVec 2
  | .noFault => 0
  | .illegal => 1
  | .proto => 2
  | .ovf => 3

/-- The level output `fault` (R22): the only flag, `fault_code ≠ 0`. -/
def faultFlag (s : State) : Bool := s.faultCode.code != 0

/-- The status outputs of R21: all thirteen registers as numbers, in the order of R10's table. -/
structure Status where
  phase : BitVec 2
  faultCode : BitVec 2
  mode : BitVec 2
  bppc : BitVec 2
  runValid : BitVec 1
  runVal : BitVec 8
  runCnt : BitVec 8
  tgt : BitVec 1
  nibValid : BitVec 1
  nibHold : BitVec 4
  outCount : Nat
  inCount : Nat
  chunkIdx : Nat
deriving DecidableEq, Repr

/-- Reading the status outputs: a function of the registers, which changes nothing (R21, R48). -/
def readStatus (s : State) : Status where
  phase := s.phase.code
  faultCode := s.faultCode.code
  mode := s.mode.code
  bppc := s.bppc.code
  runValid := BitVec.ofBool s.runValid
  runVal := s.runVal
  runCnt := s.runCnt
  tgt := BitVec.ofBool s.tgt
  nibValid := BitVec.ofBool s.nibValid
  nibHold := s.nibHold
  outCount := s.outCount
  inCount := s.inCount
  chunkIdx := s.chunkIdx

end Sys2Proof.Machine
end

