-- ==== Sys2Proof/Machine/Ops.lean ====
section
/-! DEFINITION. The shared operations: writes of registers, entering a fault, sequencing with "abandon the rest of the
step", the two output primitives, and the acceptance test that every command begins with. -/

namespace Sys2Proof.Machine

/-- What every meaning answers. -/
abbrev Answer := Host.Outcome State Fault Refusal

/-! ### Writes -/

def State.setPhase (s : State) (p : Phase) : State := { s with phase := p }

def State.setConfig (s : State) (m : Mode) (c : BppCode) : State := { s with mode := m, bppc := c }

/-- Write the three registers of the value-run family. -/
def State.setRun (s : State) (valid : Bool) (val cnt : Byte) : State :=
  { s with runValid := valid, runVal := val, runCnt := cnt }

/-- Write the two registers of the bit-run family. -/
def State.setBitRun (s : State) (t : Bool) (cnt : Byte) : State := { s with tgt := t, runCnt := cnt }

def State.setNibble (s : State) (valid : Bool) (hold : Nibble) : State :=
  { s with nibValid := valid, nibHold := hold }

/-- Clear the six run-length registers, as `CFG` and `BEGIN` do (R152, R153). -/
def State.clearRun (s : State) : State :=
  ((s.setRun false 0 0).setBitRun false 0).setNibble false 0

def State.setOutCount (s : State) (n : Nat) : State := { s with outCount := n }

def State.setInCount (s : State) (n : Nat) : State := { s with inCount := n }

def State.setChunkIdx (s : State) (n : Nat) : State := { s with chunkIdx := n }

/-- Hand an event over: it joins the end of the trace (R50). -/
def State.append (s : State) (e : Event) : State := { s with events := s.events ++ [e] }

/-- From here on events belong to a new compression run (R152: "a new blob and a new offset table begin"). -/
def State.markRun (s : State) : State := { s with runAt := s.events.length }

def State.setPending (s : State) (l : List Input) : State := { s with pending := l }

/-! ### Faults -/

/-- `raise Fault(code)` (R193): the code is recorded, the phase becomes `FAULT`, nothing else is saved or changed.
Abandoning the rest of the step is `Flow.stop`. There is no return from a fault but the reset event (R198). -/
def raiseFault (c : FaultCode) (s : State) : State :=
  { s with faultCode := c, phase := .fault }

/-- The state in the middle of a step: it goes on, or a fault was raised and the rest of the step is abandoned (R193). -/
inductive Flow where
  | go (s : State)
  | stop (s : State)
deriving DecidableEq, Repr

/-- Do the next part of a step, unless the step was abandoned. -/
def Flow.andThen (f : Flow) (k : State → Flow) : Flow :=
  match f with
  | .go s => k s
  | .stop s => .stop s

/-- The state a step leaves. -/
def Flow.state : Flow → State
  | .go s => s
  | .stop s => s

/-- A step that raised a fault has a next state as well: the one in phase `FAULT`. -/
def Flow.answer (f : Flow) : Answer := .next f.state

/-- Is a counter at the last value of its width, `2^k - 1`? Never, where the width is unbounded (R3, R195). -/
def counterFull (width : Option Nat) (n : Nat) : Bool :=
  match width with
  | none => false
  | some k => n == 2 ^ k - 1

/-! ### Output primitives -/

/-- `EmitByte(v)` (R130): a full `out_count` raises `OVF` and the byte is not emitted. -/
def emitByte (v : Byte) (s : State) : Flow :=
  if counterFull s.params.offw s.outCount then .stop (raiseFault .ovf s)
  else .go ((s.append (.byte v)).setOutCount (s.outCount + 1))

/-- `EmitOffset(i, o)` (R135). It raises nothing. -/
def emitOffset (i o : Nat) (s : State) : State := s.append (.off i o)

/-! ### Acceptance -/

/-- R150, R196: a command is ignored in `FAULT`; where the phase does not allow it, it raises `PROTO` (R194);
else its body runs. -/
def runCommand (legal : Phase → Bool) (body : State → Flow) (s : State) : Answer :=
  if s.phase = .fault then .next s
  else if legal s.phase then (body s).answer
  else .next (raiseFault .proto s)

/-- R150, R192: an illegal word is ignored in `FAULT` and raises `ILLEGAL` in every other phase. -/
def rejectIllegal (s : State) : Answer :=
  if s.phase = .fault then .next s else .next (raiseFault .illegal s)

/-- The block writes a unit of a mode's format only while a chunk is open in that mode (R100, R120, R130); elsewhere
it produces none (log entry 6). -/
def produceUnit (m : Mode) (body : State → Flow) (s : State) : Answer :=
  if s.phase = .chunk ∧ s.mode = m then (body s).answer else .next s

end Sys2Proof.Machine
end

