-- ==== Sys2Proof/Machine/BitRun.lean ====
section
/-! DEFINITION. The alternating-bit-run encoder: the two unit formats, the step of one pixel, the flush
(R117, R118, R120). -/

namespace Sys2Proof.Machine

/-- The `BR_WIDE` line of `EmitCount` (R120, R68). -/
def emitBrWideUnit (count : Byte) (s : State) : Flow := emitByte count s

/-- A whole `BR_PACKED` byte is written and no count is held any more (R69, R118, R120). -/
def emitBrPackedByte (hi lo : Nibble) (s : State) : Flow :=
  (emitByte (nibblePair hi lo) s).andThen fun s => .go (s.setNibble false s.nibHold)

/-- `EmitCount(c)` (R120): in `BR_PACKED` the first count of a pair is held, the second completes the byte. -/
def emitCount (c : Byte) (s : State) : Flow :=
  match s.mode with
  | .brWide => emitBrWideUnit c s
  | .brPacked =>
    if s.nibValid then emitBrPackedByte s.nibHold (lowNibble c) s
    else .go (s.setNibble true (lowNibble c))
  | .vrWide | .vrPacked => .go s

/-- `BRStep(b)` (R117): consume one prepared pixel. Reaching the capacity does not toggle the target (R112). -/
def brStep (b : Bool) (s : State) : Flow :=
  if b = s.tgt then
    let s := s.setBitRun s.tgt (s.runCnt + 1)
    if s.runCnt.toNat = s.mode.cap then
      (emitCount s.runCnt s).andThen fun s => .go (s.setBitRun s.tgt 0)
    else .go s
  else (emitCount s.runCnt s).andThen fun s => .go (s.setBitRun (!s.tgt) 1)

/-- The zero pad of `BRFlush` (R116, R118): a count still held is written over a low nibble of 0. -/
def padNibble (s : State) : Flow :=
  if s.mode = .brPacked ∧ s.nibValid = true then emitBrPackedByte s.nibHold 0 s else .go s

/-- `BRFlush()` (R118). -/
def brFlush (s : State) : Flow :=
  ((if s.runCnt = 0 then .go s else emitCount s.runCnt s).andThen padNibble).andThen fun s =>
    .go ((s.setBitRun false 0).setNibble s.nibValid 0)

/-- UNIT_BR_WIDE: the production of one unit, R120 in `BR_WIDE`. -/
def execUnitBrWide (count : Byte) (s : State) : Answer :=
  produceUnit .brWide (emitBrWideUnit count) s

/-- BYTE_BR_PACKED: the production of one byte, R120 and R118 in `BR_PACKED`. -/
def execByteBrPacked (hi lo : Nibble) (s : State) : Answer :=
  produceUnit .brPacked (emitBrPackedByte hi lo) s

end Sys2Proof.Machine
end

