-- ==== Sys2Proof/Machine/ValueRun.lean ====
section
/-! DEFINITION. The value-run encoder: the two unit formats, the step of one pixel, the flush (R97, R98, R100). -/

namespace Sys2Proof.Machine

/-- The `VR_WIDE` line of `EmitRun` (R100): count, then value (R66). The fault may fall between the two bytes (R195). -/
def emitVrWideUnit (count value : Byte) (s : State) : Flow :=
  (emitByte count s).andThen (emitByte value)

/-- The `VR_PACKED` line of `EmitRun` (R100), on the unit's two fields (R67). -/
def emitVrPackedUnit (countM1 value : Nibble) (s : State) : Flow :=
  emitByte (nibblePair countM1 value) s

/-- `EmitRun(c, v)` (R100). The fields of R67 are the low nibbles of `c - 1` and of `v`. -/
def emitRun (c v : Byte) (s : State) : Flow :=
  match s.mode with
  | .vrWide => emitVrWideUnit c v s
  | .vrPacked => emitVrPackedUnit (lowNibble (c - 1)) (lowNibble v) s
  | .brWide | .brPacked => .go s

/-- Cases (a), (b) and (c) of `VRStep` (R97). -/
def vrExtend (q : Byte) (s : State) : Flow :=
  if s.runValid = false then .go (s.setRun true q 1)
  else if q = s.runVal then .go (s.setRun true s.runVal (s.runCnt + 1))
  else (emitRun s.runCnt s.runVal s).andThen fun s => .go (s.setRun true q 1)

/-- Case (d) of `VRStep` (R97): a run that reached the capacity is written at once, and no run is in progress after it. -/
def vrSaturate (s : State) : Flow :=
  if s.runCnt.toNat = s.mode.cap then
    (emitRun s.runCnt s.runVal s).andThen fun s => .go (s.setRun false s.runVal 0)
  else .go s

/-- `VRStep(q)` (R97): consume one prepared pixel. -/
def vrStep (q : Byte) (s : State) : Flow := (vrExtend q s).andThen vrSaturate

/-- `VRFlush()` (R98). -/
def vrFlush (s : State) : Flow :=
  (if s.runValid then emitRun s.runCnt s.runVal s else .go s).andThen fun s => .go (s.setRun false 0 0)

/-- UNIT_VR_WIDE: the production of one unit, R100 in `VR_WIDE`. -/
def execUnitVrWide (count value : Byte) (s : State) : Answer :=
  produceUnit .vrWide (emitVrWideUnit count value) s

/-- UNIT_VR_PACKED: the production of one unit, R100 in `VR_PACKED`. -/
def execUnitVrPacked (countM1 value : Nibble) (s : State) : Answer :=
  produceUnit .vrPacked (emitVrPackedUnit countM1 value) s

end Sys2Proof.Machine
end

