-- ==== Sys2Proof/Machine/Commands.lean ====
section
/-! DEFINITION. The five commands (R151 to R155), the three reserved operation codes (R65, R192), and the offset record
(R74, R135). Which phase allows a command is R157's table. -/

namespace Sys2Proof.Machine

/-- NOP (R151). -/
def execNop (s : State) : Answer := runCommand (fun _ => true) .go s

/-- The assignments of `CFG` (R152). -/
def configure (m : Mode) (c : BppCode) (s : State) : State :=
  (((((s.setConfig m c).setOutCount 0).setInCount 0).setChunkIdx 0).clearRun.markRun).setPhase .idle

/-- CFG (R152): refused while a chunk is open. -/
def execCfg (m : Mode) (c : BppCode) (s : State) : Answer :=
  runCommand (fun p => p != .chunk) (fun s => .go (configure m c s)) s

/-- The effect of an accepted `BEGIN` (R153). -/
def openChunk (s : State) : State :=
  (emitOffset s.chunkIdx s.outCount s).clearRun.setPhase .chunk

/-- BEGIN (R153): the last chunk index is refused with `OVF` before anything is emitted (R195). -/
def execBegin (s : State) : Answer :=
  runCommand (fun p => p == .idle)
    (fun s => if counterFull s.params.idxw s.chunkIdx then .stop (raiseFault .ovf s) else .go (openChunk s)) s

/-- One pixel of the open chunk, prepared and consumed as the mode says (R154). -/
def pixelStep (p : Byte) (s : State) : Flow :=
  if s.mode.isValueRun then vrStep (prepVR s.mode s.bppc p) s else brStep (thresh p) s

/-- The loop of `PUSH` (R154): the pixels in order, until one raises a fault. -/
def feedPixels : List Byte → State → Flow
  | [], s => .go s
  | p :: ps, s => (pixelStep p s).andThen (feedPixels ps)

/-- PUSH (R154): a full `in_count` is refused with `OVF` before the byte is consumed (R195). -/
def execPush (b : Byte) (s : State) : Answer :=
  runCommand (fun p => p == .chunk)
    (fun s =>
      if counterFull s.params.offw s.inCount then .stop (raiseFault .ovf s)
      else feedPixels (unpack s.bppc b) (s.setInCount (s.inCount + 1))) s

/-- The flush of the mode's family (R155). -/
def flushChunk (s : State) : Flow :=
  if s.mode.isValueRun then vrFlush s else brFlush s

/-- END (R155). -/
def execEnd (s : State) : Answer :=
  runCommand (fun p => p == .chunk)
    (fun s => (flushChunk s).andThen fun s => .go ((s.setChunkIdx (s.chunkIdx + 1)).setPhase .idle)) s

/-- RESERVED_OP5: the fault `ILLEGAL`, whatever `arg` is (R65). -/
def execReservedOp5 (_arg : Byte) (s : State) : Answer := rejectIllegal s

/-- RESERVED_OP6: the fault `ILLEGAL`, whatever `arg` is (R65). -/
def execReservedOp6 (_arg : Byte) (s : State) : Answer := rejectIllegal s

/-- RESERVED_OP7: the fault `ILLEGAL`, whatever `arg` is (R65). -/
def execReservedOp7 (_arg : Byte) (s : State) : Answer := rejectIllegal s

/-- OFFSET_RECORD: the production of one record (R135), which the block does only in `IDLE`, for `BEGIN` (log entry 6). -/
def execOffsetRecord (index value : Nat) (s : State) : Answer :=
  if s.phase = .idle then .next (emitOffset index value s) else .next s

end Sys2Proof.Machine
end

