-- ==== Sys2Proof/Machine/Dispatch.lean ====
section
/-! DEFINITION. One arm per row of spec/opcode_table.json. -/

namespace Sys2Proof.Machine

def exec (i : Instr) (s : State) : Host.Outcome State Fault Refusal :=
  match i with
  | .nop => Sys2Proof.Machine.execNop s
  | .cfg mode bppc => Sys2Proof.Machine.execCfg mode bppc s
  | .beginChunk => Sys2Proof.Machine.execBegin s
  | .push b => Sys2Proof.Machine.execPush b s
  | .endChunk => Sys2Proof.Machine.execEnd s
  | .reservedOp5 arg => Sys2Proof.Machine.execReservedOp5 arg s
  | .reservedOp6 arg => Sys2Proof.Machine.execReservedOp6 arg s
  | .reservedOp7 arg => Sys2Proof.Machine.execReservedOp7 arg s
  | .unitVrWide count value => Sys2Proof.Machine.execUnitVrWide count value s
  | .unitVrPacked countM1 value => Sys2Proof.Machine.execUnitVrPacked countM1 value s
  | .unitBrWide count => Sys2Proof.Machine.execUnitBrWide count s
  | .byteBrPacked countHi countLo => Sys2Proof.Machine.execByteBrPacked countHi countLo s
  | .offsetRecord index value => Sys2Proof.Machine.execOffsetRecord index value s

end Sys2Proof.Machine
end

