-- ==== Sys2Proof/Machine/HostInterface.lean ====
section
/-! DEFINITION. The host's side of the block (R219): the reset event, the two output channels, and what the host reads
from the trace and the counters when a run is complete. -/

namespace Sys2Proof.Machine

/-! ### The reset event -/

/-- `Reset()` (R210): every register takes the value of R25; no event is produced and none is retracted (R211). The output
trace, and with it the blob and the table, start afresh (spec/00_scope.md §5.3). -/
def resetBlock (s : State) : State :=
  { State.reset with
    params := s.params
    pending := s.pending
    events := s.events
    resetAt := s.events.length
    runAt := s.events.length
    bytesTaken := s.bytesTaken
    offsTaken := s.offsTaken }

/-! ### The output trace -/

/-- The `Byte` events of a list, in order. -/
def bytesOf : List Event → List Byte
  | [] => []
  | .byte v :: es => v :: bytesOf es
  | .off _ _ :: es => bytesOf es

/-- The `Off` events of a list, in order, as pairs of index and value (R74). -/
def recordsOf : List Event → List (Nat × Nat)
  | [] => []
  | .byte _ :: es => recordsOf es
  | .off i o :: es => (i, o) :: recordsOf es

/-- The output trace (spec/00_scope.md §5.3): the events since reset. -/
def trace (s : State) : List Event := s.events.drop s.resetAt

/-- The events of the current compression run: those since the last `CFG` or reset. -/
def runEvents (s : State) : List Event := s.events.drop s.runAt

/-- The blob (spec/00_scope.md §5.3, R42). -/
def blob (s : State) : List Byte := bytesOf (runEvents s)

/-- The offset table (spec/00_scope.md §5.3, R43). -/
def offsetTable (s : State) : List Nat := (recordsOf (runEvents s)).map Prod.snd

/-! ### The output channels -/

/-- What the blob channel holds for the host, oldest first. -/
def blobChannel (s : State) : List Byte := (bytesOf s.events).drop s.bytesTaken

/-- What the offset channel holds for the host, oldest first. -/
def offsetChannel (s : State) : List (Nat × Nat) := (recordsOf s.events).drop s.offsTaken

/-- The host takes the oldest byte, if there is one: the channel loses it and the block's state does not change (R48). -/
def takeByte (s : State) : State :=
  if (blobChannel s).isEmpty then s else { s with bytesTaken := s.bytesTaken + 1 }

/-- The host takes the oldest record, if there is one (R48). -/
def takeOffset (s : State) : State :=
  if (offsetChannel s).isEmpty then s else { s with offsTaken := s.offsTaken + 1 }

/-! ### The result of a run -/

/-- What the host reads when a run is complete (R158). -/
structure CompressResult where
  blob : List Byte
  offsets : List Nat
  originalSize : Nat
  compressedSize : Nat
  chunks : Nat
deriving DecidableEq, Repr

/-- R158: a run has a result exactly while `phase = IDLE`; an open chunk and a faulted run have none (R197). -/
def runResult (s : State) : Option CompressResult :=
  if s.phase = .idle then
    some ⟨blob s, offsetTable s, s.inCount, s.outCount, s.chunkIdx⟩
  else none

/-- R141: the table as the source presents it, only for more than one chunk; dropping the one record of a run with a
single chunk is the host's. -/
def presentedTable (r : CompressResult) : Option (List Nat) :=
  if 1 < r.chunks then some r.offsets else none

/-- `ratio` in percent (R138), which the host computes. -/
def ratio (originalSize compressedSize : Nat) : Rat :=
  if originalSize = 0 then 0 else (1 - (compressedSize : Rat) / (originalSize : Rat)) * 100

/-! ### The textual form of a command sequence -/

/-- The lines of R72 and the two pseudo-commands of R73. `bpp` is given by its code. -/
inductive Line where
  | nop
  | cfg (m : Mode) (c : BppCode)
  | beginChunk
  | push (b : Byte)
  | endChunk
  | reset
  | chunk (bytes : List Byte)
  | run (m : Mode) (c : BppCode) (chunks : List (List Byte))
deriving DecidableEq, Repr

/-- The names of the modes (R63). -/
def modeName : Mode → String
  | .vrWide => "VR_WIDE"
  | .vrPacked => "VR_PACKED"
  | .brWide => "BR_WIDE"
  | .brPacked => "BR_PACKED"

/-- A hexadecimal digit, in upper case (R72). -/
def hexDigit (n : Nibble) : Char := ("0123456789ABCDEF".toList[n.toNat]?).getD '0'

/-- A byte token `0xHH` (R72). -/
def hexByte (b : Byte) : String := "0x" ++ String.ofList [hexDigit (highNibble b), hexDigit (lowNibble b)]

/-- The bracketed list of R73. -/
def bracketed (l : List String) : String := "[" ++ String.intercalate ", " l ++ "]"

/-- The text of a line (R72, R73). -/
def Line.text : Line → String
  | .nop => "NOP"
  | .cfg m c => "CFG " ++ modeName m ++ ", " ++ toString c.bpp
  | .beginChunk => "BEGIN"
  | .push b => "PUSH " ++ hexByte b
  | .endChunk => "END"
  | .reset => "RESET"
  | .chunk bytes => "CHUNK " ++ bracketed (bytes.map hexByte)
  | .run m c chunks =>
    "RUN " ++ modeName m ++ ", " ++ toString c.bpp ++ ", "
      ++ bracketed (chunks.map fun bytes => bracketed (bytes.map hexByte))

/-- R73: the commands of `CHUNK [b0, ...]`. -/
def chunkCommands (bytes : List Byte) : List Instr :=
  .beginChunk :: bytes.map .push ++ [.endChunk]

/-- R73: the commands of `RUN mode, bpp, [chunk0, ...]`. -/
def runCommands (m : Mode) (c : BppCode) (chunks : List (List Byte)) : List Instr :=
  .cfg m c :: chunks.flatMap chunkCommands

/-- The host's input that presents an instruction's word; an output format is no command and presents nothing. -/
def presentInstr (i : Instr) : List Input :=
  match encode i with
  | .command w => [.command w]
  | .blob _ _ | .record _ _ => []

/-- R72, R73: what the host does for a line. -/
def Line.inputs : Line → List Input
  | .nop => presentInstr .nop
  | .cfg m c => presentInstr (.cfg m c)
  | .beginChunk => presentInstr .beginChunk
  | .push b => presentInstr (.push b)
  | .endChunk => presentInstr .endChunk
  | .reset => [.reset]
  | .chunk bytes => (chunkCommands bytes).flatMap presentInstr
  | .run m c chunks => (runCommands m c chunks).flatMap presentInstr

end Sys2Proof.Machine
end

