-- ==== Sys2Proof/Machine/Step.lean ====
section
/-! DEFINITION. One step: the host's next input, taken whole (R150). -/

namespace Sys2Proof.Machine

/-- `Step(w)` (R150): the word's command, or the fault `ILLEGAL`. -/
def stepWord (w : CmdWord) (s : State) : Host.Outcome State Fault Refusal :=
  match decodeCommand w with
  | .ok i => exec i s
  | .error _ => rejectIllegal s

/-- A block whose host has presented nothing yet and been handed nothing. -/
def Block.alone (p : Params) (b : Block) : State where
  toBlock := b
  params := p
  pending := []
  events := []
  resetAt := 0
  runAt := 0
  bytesTaken := 0
  offsTaken := 0

/-- The transition of the block alone (R26, R150): from its thirteen registers and a word to its thirteen registers and the
events it hands over, which it does not keep. -/
def Block.step (p : Params) (w : CmdWord) (b : Block) : Block × List Event :=
  match stepWord w (b.alone p) with
  | .next t => (t.toBlock, t.events)
  | .fault _ | .refused _ => (b, [])

/-- The next input of the host, in the order presented; with none, the block waits (R25). -/
def step (s : State) : Host.Outcome State Fault Refusal :=
  match s.pending with
  | [] => .next s
  | .command w :: rest => stepWord w (s.setPending rest)
  | .reset :: rest => .next (resetBlock (s.setPending rest))
  | .takeByte :: rest => .next (takeByte (s.setPending rest))
  | .takeOffset :: rest => .next (takeOffset (s.setPending rest))

/-- The command word `w` as the host's next input. The block has no program memory (R12): a program is the sequence of
words the host presents (log entry 3). DESIGN CHOICE (log entry 16): a command has one length (R60), so `nbits` is not read,
and of a number of 2048 or more, which is no command word and which `decodeTableWord` refuses, the low 11 bits are
presented. -/
def State.withFetchWord (s : State) (_nbits w : Nat) : State :=
  s.setPending (.command (BitVec.ofNat 11 w) :: s.pending)

end Sys2Proof.Machine
end

