-- ==== Sys2Proof/Machine/Functional.lean ====
section
/-! DEFINITION. The functional definitions: the batch algorithms over a whole chunk and a whole run, which the spec calls
normative (R81, R92 to R96, R111 to R121, R132, R133). No command reads them: they are what the machine is held to. -/

namespace Sys2Proof.Machine

/-- `UnpackChunk(bpp, bytes)` (R81). -/
def unpackChunk (c : BppCode) (bytes : List Byte) : List Byte := bytes.flatMap (unpack c)

/-- How many pixels at the head of a stream equal `v`, counted to at most `cap`: the inner loop of R92 and of R111. -/
def runLength {α : Type} [DecidableEq α] : Nat → α → List α → Nat
  | 0, _, _ => 0
  | _ + 1, _, [] => 0
  | cap + 1, v, x :: xs => if x = v then runLength cap v xs + 1 else 0

/-! ### Value runs -/

/-- The outer loop of R92; `fuel` bounds its rounds. -/
def vRunsLoop (cap : Nat) : Nat → List Byte → List (Nat × Byte)
  | 0, _ => []
  | _ + 1, [] => []
  | fuel + 1, v :: rest =>
    let c := 1 + runLength (cap - 1) v rest
    (c, v) :: vRunsLoop cap fuel ((v :: rest).drop c)

/-- `VRuns(cap, s)` (R92). Every round consumes a pixel, so as many rounds as pixels are enough. -/
def vRuns (cap : Nat) (s : List Byte) : List (Nat × Byte) := vRunsLoop cap s.length s

/-- `PackVRWide(runs)` (R94). -/
def packVRWide (runs : List (Nat × Byte)) : List Byte :=
  runs.flatMap fun (c, v) => [BitVec.ofNat 8 c, v]

/-- `PackVRPacked(runs)` (R95): `((c - 1) << 4) | (v & 0xF)`. -/
def packVRPacked (runs : List (Nat × Byte)) : List Byte :=
  runs.map fun (c, v) => (BitVec.ofNat 8 (c - 1) <<< 4) ||| (v &&& 0xF)

/-! ### Bit runs -/

/-- The outer loop of R111, `t` being `currentTargetBit`; `fuel` bounds its rounds. The toggle rule is R112's. -/
def bCountsLoop (cap : Nat) : Nat → Bool → List Bool → List Nat
  | 0, _, _ => []
  | _ + 1, _, [] => []
  | fuel + 1, t, x :: xs =>
    let c := runLength cap t (x :: xs)
    c :: bCountsLoop cap fuel (if c < cap then !t else t) ((x :: xs).drop c)

/-- `BCounts` from a given target on. A round that consumes nothing is followed by one that consumes a pixel (R114), so
twice as many rounds as pixels are enough. -/
def bCountsFrom (cap : Nat) (t : Bool) (s : List Bool) : List Nat := bCountsLoop cap (2 * s.length) t s

/-- `BCounts(cap, s)` (R111): the target is 0 before the first run. -/
def bCounts (cap : Nat) (s : List Bool) : List Nat := bCountsFrom cap false s

/-- `PackBRWide(counts)` (R115). -/
def packBRWide (counts : List Nat) : List Byte := counts.map (BitVec.ofNat 8)

/-- `PackBRPacked(counts)` (R116): two counts a byte, the earlier one high; an odd last count over a 0. -/
def packBRPacked : List Nat → List Byte
  | [] => []
  | [c] => [BitVec.ofNat 8 c <<< 4]
  | c :: d :: rest => ((BitVec.ofNat 8 c <<< 4) ||| BitVec.ofNat 8 d) :: packBRPacked rest

/-! ### Chunks and runs -/

/-- The prepared pixels of a value-run chunk (R91, R96). -/
def preparedVR (m : Mode) (c : BppCode) (bytes : List Byte) : List Byte :=
  (unpackChunk c bytes).map (prepVR m c)

/-- The prepared pixels of a bit-run chunk (R110, R121). -/
def preparedBR (c : BppCode) (bytes : List Byte) : List Bool :=
  (unpackChunk c bytes).map thresh

/-- `EncodeChunk(mode, bpp, bytes)` (R132), with `EncodeChunkVR` (R96) and `EncodeChunkBR` (R121). -/
def encodeChunk (m : Mode) (c : BppCode) (bytes : List Byte) : List Byte :=
  match m with
  | .vrWide => packVRWide (vRuns m.cap (preparedVR m c bytes))
  | .vrPacked => packVRPacked (vRuns m.cap (preparedVR m c bytes))
  | .brWide => packBRWide (bCounts m.cap (preparedBR c bytes))
  | .brPacked => packBRPacked (bCounts m.cap (preparedBR c bytes))

/-- The four results of `EncodeRun` (R133). -/
structure EncodedRun where
  blob : List Byte
  offsets : List Nat
  originalSize : Nat
  compressedSize : Nat
deriving DecidableEq, Repr

/-- The loop of R133: the blob and the table before a chunk, to those after it. -/
def addChunk (m : Mode) (c : BppCode) (acc : List Byte × List Nat) (bytes : List Byte) : List Byte × List Nat :=
  (acc.1 ++ encodeChunk m c bytes, acc.2 ++ [acc.1.length])

/-- `EncodeRun(mode, bpp, chunks)` (R133). -/
def encodeRun (m : Mode) (c : BppCode) (chunks : List (List Byte)) : EncodedRun :=
  let acc := chunks.foldl (addChunk m c) ([], [])
  ⟨acc.1, acc.2, (chunks.map List.length).sum, acc.1.length⟩

/-- R143: the most bytes that `P` pixels can encode to. -/
def maxChunkBytes (m : Mode) (pixels : Nat) : Nat :=
  if pixels = 0 then 0
  else
    match m with
    | .vrWide => 2 * pixels
    | .vrPacked => pixels
    | .brWide => pixels + 1
    | .brPacked => (pixels + 1 + 1) / 2

/-- `ceil(a / b)`. -/
def ceilDiv (a b : Nat) : Nat := (a + b - 1) / b

/-- R143: the fewest bytes that `P` pixels can encode to. -/
def minChunkBytes (m : Mode) (pixels : Nat) : Nat :=
  match m with
  | .vrWide => 2 * ceilDiv pixels 255
  | .vrPacked => ceilDiv pixels 16
  | .brWide => ceilDiv pixels 255
  | .brPacked => ceilDiv (ceilDiv pixels 15) 2

/-- R143: the most bytes that one `PUSH` emits. -/
def maxPushBytes (m : Mode) (c : BppCode) : Nat :=
  match m with
  | .vrWide => 2 * c.ppb
  | .vrPacked => c.ppb
  | .brWide => c.ppb
  | .brPacked => (c.ppb + 1) / 2

/-- R143: the most bytes that one `END` emits. -/
def maxEndBytes : Mode → Nat
  | .vrWide => 2
  | .vrPacked | .brWide | .brPacked => 1

end Sys2Proof.Machine
end

