-- ==== Sys2Proof/Machine/RefDecoder.lean ====
section
/-! DEFINITION. The reference decoder: the inverse functions of spec/45_reference_decoder.md, which is no part of the block
(R170). What the spec calls any value is a free value of Config. -/

namespace Sys2Proof.Machine

/-! ### Value runs -/

/-- `units(VR_WIDE, src)` (R171); a count byte without its value byte is no unit. -/
def unitsVRWide : List Byte → List (Nat × Byte)
  | c :: v :: rest => (c.toNat, v) :: unitsVRWide rest
  | [_] => []
  | [] => []

/-- `units(VR_PACKED, src)` (R172). -/
def unitsVRPacked (src : List Byte) : List (Nat × Byte) :=
  src.map fun (b : Byte) => ((b >>> 4).toNat + 1, b &&& 0xF)

/-- The units of a value-run mode. -/
def unitsVR (m : Mode) (src : List Byte) : List (Nat × Byte) :=
  match m with
  | .vrPacked => unitsVRPacked src
  | .vrWide | .brWide | .brPacked => unitsVRWide src

/-- `need(us, capacity)` (R171), on the units' counts: the least number of units that cover the capacity; all of them,
where they do not. -/
def needUnits : List Nat → Nat → Nat
  | _, 0 => 0
  | [], _ => 0
  | c :: cs, capacity => 1 + needUnits cs (capacity - c)

/-- `expand` over a list of units (R171). -/
def expandUnits (us : List (Nat × Byte)) : List Byte := us.flatMap fun (c, v) => List.replicate c v

/-- Fill a destination of `n` elements, those past the given ones being any value (R173, U1). -/
def fillTo {α : Type} (free : Nat → α) (n : Nat) (l : List α) : List α :=
  l ++ (List.range (n - l.length)).map fun k => free (l.length + k)

/-- `DecVR(mode, src, capacity)` (R171 to R173). DESIGN CHOICE (log entry 22): R171's formula is applied to all of the source it
is given, which ends where the caller says. Given a chunk's own bytes, it leaves every element past them free, as U1 asks;
given also what follows them in the blob, a capacity above the chunk's pixel count is filled with the next units' pixels. -/
def decVR (m : Mode) (src : List Byte) (capacity : Nat) : List Byte :=
  let us := unitsVR m src
  let used := us.take (needUnits (us.map Prod.fst) capacity)
  fillTo Config.uncoveredPixel capacity ((expandUnits used).take capacity)

/-! ### Bit runs -/

/-- `counts(mode, src)` (R178). -/
def countsBR (m : Mode) (src : List Byte) : List Nat :=
  match m with
  | .brPacked => src.flatMap fun (b : Byte) => [(b >>> 4).toNat, (b &&& 0xF).toNat]
  | .vrWide | .vrPacked | .brWide => src.map BitVec.toNat

/-- The loop of R175, on the bits that the counts cover. -/
def decBitsLoop (cap : Nat) : Bool → List Nat → Nat → List Bool
  | _, [], _ => []
  | _, _, 0 => []
  | t, c :: cs, n + 1 =>
    List.replicate (min c (n + 1)) t ++ decBitsLoop cap (if c < cap then !t else t) cs (n + 1 - c)

/-- `DecBRBits(cap, cs, nbits)` (R175); what the counts it is given do not cover is free, as in `decVR` (log entry 22). -/
def decBRBits (cap : Nat) (cs : List Nat) (nbits : Nat) : List Bool :=
  fillTo Config.uncoveredBit nbits (decBitsLoop cap false cs nbits)

/-- Eight bits as a byte, the first in bit 7 (R176); a bit that is missing is any value (R177, U3). -/
def packByte (index : Nat) (bits : List Bool) : Byte :=
  ((List.range 8).map fun k => (bits[k]?).getD (Config.unsetBit (8 * index + k))).foldl
    (fun acc b => (acc <<< 1) ||| (BitVec.ofBool b).setWidth 8) 0

/-- Destination packing (R176): bit `n` goes to bit `7 - n mod 8` of byte `n / 8`. -/
def packBits (bits : List Bool) : List Byte :=
  (List.range ((bits.length + 7) / 8)).map fun k => packByte k (bits.drop (8 * k))

/-- The byte-budget decoder (R177). -/
def decBRBytes (m : Mode) (src : List Byte) (budget : Nat) : List Byte :=
  packBits (decBRBits m.cap (countsBR m src) (8 * budget))

/-! ### What a decoder may read -/

/-- The bits of a unit (R71). -/
def unitBits : Mode → Nat
  | .vrWide => 16
  | .vrPacked => 8
  | .brWide => 8
  | .brPacked => 4

/-- The counts of a mode's units in a source. -/
def unitCounts (m : Mode) (src : List Byte) : List Nat :=
  if m.isValueRun then (unitsVR m src).map Prod.fst else countsBR m src

/-- Do the units that lie in the given memory fill the destination (R173)? `capacity` counts pixels, or bits. -/
def coversCapacity (m : Mode) (memory : List Byte) (capacity : Nat) : Bool :=
  decide (capacity ≤ (unitCounts m memory).sum)

/-- May a conforming decoder read `n` units, from the first of the given memory on? Where they fill the destination it reads
the needed ones and may read one more (R174). Where they do not, it goes on reading whatever follows (R173): past the last of
them, and how far is open (log entry 18). -/
def mayReadUnits (m : Mode) (memory : List Byte) (capacity n : Nat) : Bool :=
  if coversCapacity m memory capacity then
    n == needUnits (unitCounts m memory) capacity || n == needUnits (unitCounts m memory) capacity + 1
  else decide ((unitCounts m memory).length < n)

/-- The source bytes that `n` units take. -/
def bytesOfUnits (m : Mode) (n : Nat) : Nat := (n * unitBits m + 7) / 8

/-- The fault of a caller whose decoder reads past the memory it owns (R173, U2). It is none of the decoder's, which has no
error outcome (R179), and none of the block's. -/
inductive CallerFault where
  | readPastOwned
deriving DecidableEq, Repr

/-- The caller's side of a decoding that reads `n` units: its destination, if all of them lie in the memory it owns. -/
def ifOwned {α : Type} (m : Mode) (owned : List Byte) (n : Nat) (destination : α) : Except CallerFault α :=
  if bytesOfUnits m n ≤ owned.length then .ok destination else .error .readPastOwned

/-- A value-run decoding as its caller sees it (R173, R174, U1, U2): `own` is the chunk's encoding, `after` what the caller owns
behind it, the further chunks first, and `n` a number of units that `mayReadUnits` allows. What `own` does not cover is free,
whatever `after` holds. -/
def callerDecodeVR (m : Mode) (own after : List Byte) (capacity n : Nat) : Except CallerFault (List Byte) :=
  ifOwned m (own ++ after) n (decVR m own capacity)

/-- The same for a bit-run decoding with a byte budget (R173, R177). -/
def callerDecodeBR (m : Mode) (own after : List Byte) (budget n : Nat) : Except CallerFault (List Byte) :=
  ifOwned m (own ++ after) n (decBRBytes m own budget)

/-- R182: chunk `i` of a run is decoded from the blob at `offset[i]` on. With a single chunk the start is 0 and no table is
needed; DESIGN CHOICE (log entry 21): the start is 0 for every other index, too, that the table has no entry for. -/
def chunkSource (blob : List Byte) (offsets : List Nat) (i : Nat) : List Byte :=
  blob.drop ((offsets[i]?).getD 0)

end Sys2Proof.Machine
end

