-- ==== Sys2Proof/Safety.lean ====
section
/-! DEFINITION. What a claim about a run takes as its terms: the invariant of R23 and the rules it gathers, room in the
counters, and a run without a fault. -/

namespace Sys2Proof.Machine

/-- The six run-length registers are 0 (R23 items 1 and 2). -/
def RunClear (s : State) : Prop :=
  s.runValid = false ∧ s.runVal = 0 ∧ s.runCnt = 0 ∧ s.tgt = false ∧ s.nibValid = false ∧ s.nibHold = 0

/-- R15, in the value-run family with a chunk open. -/
structure ValueRunInv (s : State) : Prop where
  inProgress : s.runValid = true → 1 ≤ s.runCnt.toNat ∧ s.runCnt.toNat ≤ s.mode.cap - 1
  none : s.runValid = false → s.runCnt = 0
  unused : s.tgt = false ∧ s.nibValid = false ∧ s.nibHold = 0
  prepared : s.mode = .vrPacked → s.runVal.toNat < 16

/-- R16 and R17, in the bit-run family with a chunk open. -/
structure BitRunInv (s : State) : Prop where
  count : s.runCnt.toNat ≤ s.mode.cap - 1
  unused : s.runValid = false ∧ s.runVal = 0
  nibble : s.mode ≠ .brPacked → s.nibValid = false ∧ s.nibHold = 0

/-- Every record of a run has the next index (R43), and its value is the number of bytes before it (R49, R51). -/
def wellAddressed : Nat → Nat → List Event → Bool
  | _, _, [] => true
  | i, n, .byte _ :: es => wellAddressed i (n + 1) es
  | i, n, .off j o :: es => j == i && o == n && wellAddressed (i + 1) n es

/-- The invariant that every step keeps. -/
structure BlockInv (s : State) : Prop where
  /-- R13. -/
  faultCode : s.phase = .fault ↔ s.faultCode ≠ .noFault
  /-- R23 item 1. -/
  unconf : s.phase = .unconf → s.outCount = 0 ∧ s.inCount = 0 ∧ s.chunkIdx = 0 ∧ RunClear s
  /-- R23 item 2. -/
  idle : s.phase = .idle → RunClear s
  /-- R23 item 3. -/
  valueRun : s.phase = .chunk → s.mode.isValueRun = true → ValueRunInv s
  /-- R23 item 4. -/
  bitRun : s.phase = .chunk → s.mode.isValueRun = false → BitRunInv s
  /-- R10: the counters lie in the ranges of their widths. -/
  ranges : fitsWidth s.params.offw s.outCount = true ∧
    fitsWidth s.params.offw s.inCount = true ∧ fitsWidth s.params.idxw s.chunkIdx = true
  /-- R155: the open chunk's index is not the last one, which `BEGIN` refuses. -/
  openIndex : s.phase = .chunk → counterFull s.params.idxw s.chunkIdx = false
  /-- R131, R23 item 5. -/
  outCount : s.outCount = (blob s).length
  /-- R20, R43: one record a chunk, closed or open. -/
  records : s.phase ≠ .fault → (offsetTable s).length = s.chunkIdx + (if s.phase = .chunk then 1 else 0)
  /-- R42, R43, R51. -/
  addressed : wellAddressed 0 0 (runEvents s) = true
  /-- The current run lies in the trace, and the trace in what was handed over. -/
  marks : s.resetAt ≤ s.runAt ∧ s.runAt ≤ s.events.length
  /-- The host has taken no more than was handed over (R219). -/
  taken : s.bytesTaken ≤ (bytesOf s.events).length ∧ s.offsTaken ≤ (recordsOf s.events).length

/-- The state after the bytes `l` have been emitted and nothing else has happened (R18, R130). -/
def State.emitted (s : State) (l : List Byte) : State :=
  { s with events := s.events ++ l.map .byte, outCount := s.outCount + l.length }

/-- The bytes of one unit of a value-run mode (R66, R67). -/
def unitBytesVR (m : Mode) (c v : Byte) : List Byte :=
  match m with
  | .vrPacked => [((c - 1) <<< 4) ||| (v &&& 0xF)]
  | .vrWide | .brWide | .brPacked => [c, v]

/-- R218: the configurations that preserve the input. -/
def lossless (m : Mode) (c : BppCode) : Bool :=
  match m with
  | .vrWide => true
  | .vrPacked => c != .bpp8
  | .brWide | .brPacked => c == .bpp1

/-- Can `n` more bytes be emitted without `OVF` (R130)? -/
def roomForBytes (s : State) (n : Nat) : Bool :=
  match s.params.offw with
  | none => true
  | some k => decide (s.outCount + n < 2 ^ k)

/-- Can `n` more bytes be pushed without `OVF` on `in_count` (R154)? -/
def roomForInput (s : State) (n : Nat) : Bool :=
  match s.params.offw with
  | none => true
  | some k => decide (s.inCount + n < 2 ^ k)

/-- No fault is recorded: the premise R197 asks of every claim about a run's output. -/
def NoFault (s : State) : Prop := s.faultCode = .noFault

/-- The pixels of the run in progress that are not in the blob yet (R24). -/
def pendingPixels (s : State) : List Byte :=
  if s.runValid then List.replicate s.runCnt.toNat s.runVal else []

/-- The bits counted since the last count that are not in the blob yet (R24). -/
def pendingBits (s : State) : List Bool := List.replicate s.runCnt.toNat s.tgt

/-- The count that is held for its partner (R17, R24). -/
def heldCount (s : State) : List Nat := if s.nibValid then [s.nibHold.toNat] else []

/-- The packing of a value-run mode (R94, R95). -/
def packVR (m : Mode) (runs : List (Nat × Byte)) : List Byte :=
  match m with
  | .vrPacked => packVRPacked runs
  | .vrWide | .brWide | .brPacked => packVRWide runs

/-- The packing of a bit-run mode (R115, R116). -/
def packBR (m : Mode) (counts : List Nat) : List Byte :=
  match m with
  | .brPacked => packBRPacked counts
  | .vrWide | .vrPacked | .brWide => packBRWide counts

/-- The events of a list of bytes. -/
def byteEvents (l : List Byte) : List Event := l.map .byte

/-- The events of a whole run (R142): before each chunk's bytes, its record; `i` is the first index, `o` the first
offset. -/
def runTrace (m : Mode) (c : BppCode) : Nat → Nat → List (List Byte) → List Event
  | _, _, [] => []
  | i, o, bytes :: chunks =>
    .off i o :: byteEvents (encodeChunk m c bytes)
      ++ runTrace m c (i + 1) (o + (encodeChunk m c bytes).length) chunks

/-- Two states that agree on everything but what has left the block or not reached it yet (R26): the thirteen registers
and the widths are the same. -/
def sameBlock (s t : State) : Prop := s.toBlock = t.toBlock ∧ s.params = t.params

end Sys2Proof.Machine
end

