-- ==== Sys2Proof/Certificates/Slice0/Obligations.lean ====
section
/-! DEFINITION. The statements for the provers. Each docstring names the rules of spec/ it rests on; where a clause is the
model's own choice it says so and names the log entry. -/

open Sys2Proof Sys2Proof.Machine

/-! ### Encoding -/

/-- Decoding what the encoder writes gives the instruction back, for every row of the opcode table, every operand at every
value its encoding admits (R61, R62, R66 to R70, R74). -/
def Obligations.EncodedInstructionsDecodeBack : Prop :=
  ∀ (p : Params) (i : Instr), wellFormed p i = true → decode (encode i) = .ok i

/-- A command word, or a unit of a mode, is the one encoding of what it decodes to: no bit of it is dropped (R60, R61, R66
to R71). -/
def Obligations.DecodedWordsAndUnitsEncodeBack : Prop :=
  (∀ (w : CmdWord) (i : Instr), decodeCommand w = .ok i → encode i = .command w) ∧
  (∀ (m : Mode) (bytes : List Byte) (i : Instr), decodeUnit m bytes = .ok i → encode i = .blob m bytes)

/-- R61: a word is the command of a row exactly when `w & mask = match`, and the rows are disjoint. -/
def Obligations.CommandRowsAreMatchAndMask : Prop :=
  (∀ (w : CmdWord), ∀ r ∈ commandRows,
    (w &&& r.mask = r.pattern ↔ ∃ i, decodeCommand w = .ok i ∧ i.mnemonic = r.mnemonic)) ∧
  (∀ (w : CmdWord), ∀ r ∈ commandRows, ∀ q ∈ commandRows,
    w &&& r.mask = r.pattern → w &&& q.mask = q.pattern → r = q)

/-- R65: the illegal words, that each raises `ILLEGAL` in every phase but `FAULT`, where it is ignored; that 275 words are
legal; and that no word but the all-zero one is `NOP`. -/
def Obligations.IllegalWordsFaultAndTheRestDoNot : Prop :=
  (∀ w : CmdWord, illegalWord w = true ↔
    ((opField w).toNat ∈ [5, 6, 7] ∨ ((opField w).toNat ∈ [0, 2, 4] ∧ argField w ≠ 0) ∨
      ((opField w).toNat = 1 ∧ cfgZeroField (argField w) ≠ 0))) ∧
  (∀ (w : CmdWord) (s : State), illegalWord w = true →
    stepWord w s = .next (if s.phase = .fault then s else { s with phase := .fault, faultCode := .illegal })) ∧
  (∀ w : CmdWord, illegalWord w = false → ∃ i, decodeCommand w = .ok i ∧ i.isCommand = true) ∧
  ((List.range 2048).filter fun n => !illegalWord (BitVec.ofNat 11 n)).length = 275 ∧
  (∀ w : CmdWord, decodeCommand w = .ok .nop ↔ w = 0)

/-- Words written out from R61 and R62 decode to the instructions they stand for. -/
def Obligations.WrittenOutWordsDecode : Prop :=
  decodeCommand 0b00000000000#11 = .ok .nop ∧
  decodeCommand 0b00100001101#11 = .ok (.cfg .vrPacked .bpp8) ∧
  decodeCommand 0b00100000011#11 = .ok (.cfg .brPacked .bpp1) ∧
  decodeCommand 0b01000000000#11 = .ok .beginChunk ∧
  decodeCommand 0b01110100111#11 = .ok (.push 0xA7) ∧
  decodeCommand 0b10000000000#11 = .ok .endChunk ∧
  decodeCommand 0b10100000000#11 = .ok (.reservedOp5 0) ∧
  decodeUnit .vrWide [0xFF, 0x07] = .ok (.unitVrWide 255 7) ∧
  decodeUnit .vrPacked [0xF5] = .ok (.unitVrPacked 15 5) ∧
  decodeUnit .brWide [0x08] = .ok (.unitBrWide 8) ∧
  decodeUnit .brPacked [0xE1] = .ok (.byteBrPacked 14 1)

/-- The words of R72, with `log2(bpp)` and the mode's code in `CFG`. -/
def Obligations.LinesPresentTheirWords : Prop :=
  Line.nop.inputs = [.command 0x000] ∧ Line.beginChunk.inputs = [.command 0x200] ∧
  Line.endChunk.inputs = [.command 0x400] ∧ Line.reset.inputs = [.reset] ∧
  (∀ b : Byte, (Line.push b).inputs = [.command (0x300#11 ||| b.setWidth 11)]) ∧
  (∀ (m : Mode) (c : BppCode),
    (Line.cfg m c).inputs = [.command (0x100#11 ||| (BitVec.ofNat 11 c.bpp.log2 <<< 2) ||| m.code.setWidth 11)])

/-! ### The step -/

/-- R150: a step whose next input is a word of a command runs that command, with the word taken from the inputs. -/
def Obligations.StepRunsTheDecodedCommand : Prop :=
  ∀ (s : State) (w : CmdWord) (rest : List Input) (i : Instr),
    s.pending = .command w :: rest → decodeCommand w = .ok i → step s = exec i (s.setPending rest)

/-- R192: an illegal word raises `ILLEGAL` outside `FAULT` and has no other effect. -/
def Obligations.IllegalWordHasNoOtherEffect : Prop :=
  ∀ (s : State) (w : CmdWord) (rest : List Input),
    s.pending = .command w :: rest → s.phase ≠ .fault →
    ((opField w).toNat ∈ [5, 6, 7] ∨ ((opField w).toNat ∈ [0, 2, 4] ∧ argField w ≠ 0) ∨
      ((opField w).toNat = 1 ∧ cfgZeroField (argField w) ≠ 0)) →
    step s = .next { s with pending := rest, phase := .fault, faultCode := .illegal }

/-- R197: in `FAULT` every command word, legal or not, is accepted and ignored, and the run has no result. -/
def Obligations.FaultPhaseIgnoresEveryWord : Prop :=
  ∀ (s : State) (w : CmdWord) (rest : List Input),
    s.pending = .command w :: rest → s.phase = .fault →
    step s = .next { s with pending := rest } ∧ runResult s = none

/-- R150, R191: every step answers a next state; a fault of the block is one. R25: with no input the block waits (log
entry 7: a wait is a step that changes nothing). -/
def Obligations.EveryStepAnswersANextState : Prop :=
  ∀ s : State, (∃ t, step s = .next t) ∧ (s.pending = [] → step s = .next s)

/-- R210: the reset event, in every phase, sets every register and produces no event; R211: none is taken back. That the
output trace starts afresh is the model's reading of spec/00_scope.md §5.3 (log entry 4). -/
def Obligations.ResetEventSetsEveryRegister : Prop :=
  ∀ (s : State) (rest : List Input), s.pending = .reset :: rest →
    ∃ t, step s = .next t ∧
      readStatus t = ⟨0, 0, 0, 0, 0, 0, 0, 0, 0, 0, 0, 0, 0⟩ ∧
      t.events = s.events ∧ t.params = s.params ∧ t.pending = rest ∧ trace t = [] ∧
      blobChannel t = blobChannel s ∧ offsetChannel t = offsetChannel s

/-- R25: every register after reset. -/
def Obligations.ResetStateIsTheTable : Prop :=
  State.reset.phase = .unconf ∧ State.reset.faultCode = .noFault ∧ State.reset.mode = .vrWide ∧
  State.reset.bppc = .bpp1 ∧ State.reset.runValid = false ∧ State.reset.runVal = 0 ∧ State.reset.runCnt = 0 ∧
  State.reset.tgt = false ∧ State.reset.nibValid = false ∧ State.reset.nibHold = 0 ∧
  State.reset.outCount = 0 ∧ State.reset.inCount = 0 ∧ State.reset.chunkIdx = 0 ∧
  readStatus State.reset = ⟨0, 0, 0, 0, 0, 0, 0, 0, 0, 0, 0, 0, 0⟩

/-- R48, R219: taking the oldest byte or record removes it from its channel and changes no register and no event; from an
empty channel nothing is taken (the last is log entry 5). -/
def Obligations.TakingAnEventChangesNoRegister : Prop :=
  ∀ (s : State) (rest : List Input),
    (s.pending = .takeByte :: rest →
      ∃ t, step s = .next t ∧ blobChannel t = (blobChannel s).tail ∧ offsetChannel t = offsetChannel s ∧
        sameBlock t s ∧ t.events = s.events ∧ t.pending = rest) ∧
    (s.pending = .takeOffset :: rest →
      ∃ t, step s = .next t ∧ offsetChannel t = (offsetChannel s).tail ∧ blobChannel t = blobChannel s ∧
        sameBlock t s ∧ t.events = s.events ∧ t.pending = rest)

/-! ### The commands -/

/-- R151: `NOP` writes nothing and produces nothing, in every phase; with a nonzero `arg` the word raises `ILLEGAL`. -/
def Obligations.NopHasNoEffect : Prop :=
  (∀ s : State, exec .nop s = .next s) ∧
  (∀ (s : State) (arg : Byte), arg ≠ 0 → s.phase ≠ .fault →
    stepWord (commandWord 0 arg) s = .next { s with phase := .fault, faultCode := .illegal })

/-- R152: `CFG` in `UNCONF` and `IDLE` writes every register but `fault_code`, produces no event and starts a new blob and
table; with a chunk open it raises `PROTO`; with a nonzero `arg[7:4]` the word raises `ILLEGAL`. -/
def Obligations.CfgStartsACompressionRun : Prop :=
  (∀ (s : State) (m : Mode) (c : BppCode), s.phase = .unconf ∨ s.phase = .idle →
    ∃ t, exec (.cfg m c) s = .next t ∧
      t = { s with phase := .idle, mode := m, bppc := c, outCount := 0, inCount := 0, chunkIdx := 0,
                   runValid := false, runVal := 0, runCnt := 0, tgt := false, nibValid := false, nibHold := 0,
                   runAt := s.events.length } ∧
      blob t = [] ∧ offsetTable t = []) ∧
  (∀ (s : State) (m : Mode) (c : BppCode), s.phase = .chunk →
    exec (.cfg m c) s = .next { s with phase := .fault, faultCode := .proto }) ∧
  (∀ (s : State) (arg : Byte), cfgZeroField arg ≠ 0 → s.phase ≠ .fault →
    stepWord (commandWord 1 arg) s = .next { s with phase := .fault, faultCode := .illegal })

/-- R153: `BEGIN` in `IDLE` produces one record and clears the run-length registers; it is refused with `OVF` at the last
index and with `PROTO` in `UNCONF` and `CHUNK`, and with a nonzero `arg` the word raises `ILLEGAL`. -/
def Obligations.BeginOpensAChunk : Prop :=
  (∀ s : State, s.phase = .idle → (∀ k, s.params.idxw = some k → s.chunkIdx ≠ 2 ^ k - 1) →
    exec .beginChunk s = .next
      { s with events := s.events ++ [.off s.chunkIdx s.outCount], phase := .chunk,
               runValid := false, runVal := 0, runCnt := 0, tgt := false, nibValid := false, nibHold := 0 }) ∧
  (∀ (s : State) (k : Nat), s.phase = .idle → s.params.idxw = some k → s.chunkIdx = 2 ^ k - 1 →
    exec .beginChunk s = .next { s with phase := .fault, faultCode := .ovf }) ∧
  (∀ s : State, s.phase = .unconf ∨ s.phase = .chunk →
    exec .beginChunk s = .next { s with phase := .fault, faultCode := .proto }) ∧
  (∀ (s : State) (arg : Byte), arg ≠ 0 → s.phase ≠ .fault →
    stepWord (commandWord 2 arg) s = .next { s with phase := .fault, faultCode := .illegal })

/-- R154 in the value-run family: `PUSH` counts the byte, writes the run registers and emits whole units, so that what it
emits and what it leaves pending are the run list (R92) of what was pending and the byte's prepared pixels, the last run
staying pending exactly when it is shorter than the capacity (R15, R97). Everything else is unchanged. -/
def Obligations.PushContinuesTheRunList : Prop :=
  ∀ (s : State) (b : Byte), s.phase = .chunk → s.mode.isValueRun = true → ValueRunInv s →
    counterFull s.params.offw s.inCount = false → roomForBytes s (maxPushBytes s.mode s.bppc) = true →
    ∃ (valid : Bool) (val cnt : Byte) (runs : List (Nat × Byte)),
      exec (.push b) s = .next
        { s.emitted (packVR s.mode runs) with
          inCount := s.inCount + 1, runValid := valid, runVal := val, runCnt := cnt } ∧
      vRuns s.mode.cap (pendingPixels s ++ (unpack s.bppc b).map (prepVR s.mode s.bppc))
        = runs ++ (if valid then [(cnt.toNat, val)] else []) ∧
      (if valid then cnt.toNat < s.mode.cap
        else cnt = 0 ∧ ∀ r, runs.getLast? = some r → r.1 = s.mode.cap) ∧
      (packVR s.mode runs).length ≤ maxPushBytes s.mode s.bppc

/-- R154 in the bit-run family: `PUSH` counts the byte, writes the bit-run and nibble registers and emits whole bytes, so
that what it emits, what it holds for its partner and what it leaves pending are the count list (R111) of what was pending
and the byte's bits (R16, R17, R117, R120). Everything else is unchanged. -/
def Obligations.PushContinuesTheCountList : Prop :=
  ∀ (s : State) (b : Byte), s.phase = .chunk → s.mode.isValueRun = false → BitRunInv s →
    counterFull s.params.offw s.inCount = false → roomForBytes s (maxPushBytes s.mode s.bppc) = true →
    ∃ (t valid : Bool) (cnt : Byte) (hold : Nibble) (counts packed : List Nat),
      exec (.push b) s = .next
        { s.emitted (packBR s.mode packed) with
          inCount := s.inCount + 1, tgt := t, runCnt := cnt, nibValid := valid, nibHold := hold } ∧
      bCountsFrom s.mode.cap s.tgt (pendingBits s ++ (unpack s.bppc b).map thresh)
        = counts ++ (if cnt = 0 then [] else [cnt.toNat]) ∧
      cnt.toNat < s.mode.cap ∧ (cnt = 0 → counts.getLast? = some s.mode.cap) ∧
      ((unpack s.bppc b).map thresh).getLast? = some t ∧
      (s.mode = .brWide → packed = counts ∧ valid = s.nibValid ∧ hold = s.nibHold) ∧
      (s.mode = .brPacked →
        heldCount s ++ counts = packed ++ (if valid then [hold.toNat] else []) ∧ packed.length % 2 = 0) ∧
      (packBR s.mode packed).length ≤ maxPushBytes s.mode s.bppc

/-- R155 with R98: `END` of a value-run chunk emits the run in progress, if there is one, and clears the run registers. -/
def Obligations.EndFlushesTheValueRun : Prop :=
  ∀ s : State, s.phase = .chunk → s.mode.isValueRun = true → roomForBytes s (maxEndBytes s.mode) = true →
    exec .endChunk s = .next
      { s.emitted (if s.runValid then unitBytesVR s.mode s.runCnt s.runVal else []) with
        runValid := false, runVal := 0, runCnt := 0, chunkIdx := s.chunkIdx + 1, phase := .idle }

/-- R155 with R118: `END` of a bit-run chunk emits the last count, if it is not 0, in `BR_PACKED` with the held count and
the pad, and clears the registers of the family. -/
def Obligations.EndFlushesTheBitRun : Prop :=
  ∀ s : State, s.phase = .chunk → s.mode.isValueRun = false → roomForBytes s (maxEndBytes s.mode) = true →
    (s.mode = .brWide →
      exec .endChunk s = .next
        { s.emitted (if s.runCnt = 0 then [] else [s.runCnt]) with
          tgt := false, runCnt := 0, nibHold := 0, chunkIdx := s.chunkIdx + 1, phase := .idle }) ∧
    (s.mode = .brPacked → s.runCnt.toNat ≤ 15 →
      exec .endChunk s = .next
        { s.emitted (packBRPacked (heldCount s ++ if s.runCnt = 0 then [] else [s.runCnt.toNat])) with
          tgt := false, runCnt := 0, nibValid := false, nibHold := 0,
          chunkIdx := s.chunkIdx + 1, phase := .idle })

/-- R194: where the phase does not allow a legal command, it raises `PROTO` and has no other effect. -/
def Obligations.OutOfPhaseCommandsRaiseProto : Prop :=
  ∀ (s : State) (m : Mode) (c : BppCode) (b : Byte),
    (s.phase = .unconf →
      exec .beginChunk s = .next { s with phase := .fault, faultCode := .proto } ∧
      exec (.push b) s = .next { s with phase := .fault, faultCode := .proto } ∧
      exec .endChunk s = .next { s with phase := .fault, faultCode := .proto }) ∧
    (s.phase = .idle →
      exec (.push b) s = .next { s with phase := .fault, faultCode := .proto } ∧
      exec .endChunk s = .next { s with phase := .fault, faultCode := .proto }) ∧
    (s.phase = .chunk →
      exec (.cfg m c) s = .next { s with phase := .fault, faultCode := .proto } ∧
      exec .beginChunk s = .next { s with phase := .fault, faultCode := .proto })

/-- R157: the phase machine, cell by cell, with the fault code of each fault; the first line says what R196 puts first,
that in `FAULT` nothing changes at all. -/
def Obligations.PhaseMachine : Prop :=
  (∀ (s t : State) (w : CmdWord), stepWord w s = .next t →
    (s.phase = .fault → t = s) ∧
    (s.phase ≠ .fault → ∀ e, decodeCommand w = .error e → t.phase = .fault ∧ t.faultCode = .illegal) ∧
    (s.phase ≠ .fault → ∀ i, decodeCommand w = .ok i →
      match i, s.phase with
      | .nop, p => t.phase = p
      | .cfg _ _, .chunk => t.phase = .fault ∧ t.faultCode = .proto
      | .cfg _ _, _ => t.phase = .idle
      | .beginChunk, .idle => t.phase = .chunk ∨ (t.phase = .fault ∧ t.faultCode = .ovf)
      | .beginChunk, _ => t.phase = .fault ∧ t.faultCode = .proto
      | .push _, .chunk => t.phase = .chunk ∨ (t.phase = .fault ∧ t.faultCode = .ovf)
      | .push _, _ => t.phase = .fault ∧ t.faultCode = .proto
      | .endChunk, .chunk => t.phase = .idle ∨ (t.phase = .fault ∧ t.faultCode = .ovf)
      | .endChunk, _ => t.phase = .fault ∧ t.faultCode = .proto
      | .reservedOp5 _, _ | .reservedOp6 _, _ | .reservedOp7 _, _ => t.phase = .fault ∧ t.faultCode = .illegal
      | _, _ => False)) ∧
  (∀ (s t : State) (rest : List Input), s.pending = .reset :: rest → step s = .next t → t.phase = .unconf)

/-- R65, R192: each reserved operation code raises `ILLEGAL` with any `arg`, which is its whole effect. -/
def Obligations.ReservedOpsRaiseIllegal : Prop :=
  ∀ (s : State) (arg : Byte), s.phase ≠ .fault →
    exec (.reservedOp5 arg) s = .next { s with phase := .fault, faultCode := .illegal } ∧
    exec (.reservedOp6 arg) s = .next { s with phase := .fault, faultCode := .illegal } ∧
    exec (.reservedOp7 arg) s = .next { s with phase := .fault, faultCode := .illegal }

/-- R66 to R69, R74, R100, R120, R135: each output row, produced where the block produces it and with room in `out_count`,
emits exactly its format, and nothing else changes but that a `BR_PACKED` byte leaves no count held. That the rows are
produced only there is the model's reading (log entry 6). -/
def Obligations.OutputRowsEmitTheirFormat : Prop :=
  (∀ (s : State) (index value : Nat), s.phase = .idle →
    exec (.offsetRecord index value) s = .next { s with events := s.events ++ [.off index value] }) ∧
  ∀ (s : State) (count value : Byte) (hi lo : Nibble), s.phase = .chunk →
    (s.mode = .vrWide → roomForBytes s 2 = true →
      exec (.unitVrWide count value) s = .next (s.emitted [count, value])) ∧
    (s.mode = .vrPacked → roomForBytes s 1 = true →
      exec (.unitVrPacked hi lo) s = .next (s.emitted [BitVec.ofNat 8 (16 * hi.toNat + lo.toNat)])) ∧
    (s.mode = .brWide → roomForBytes s 1 = true →
      exec (.unitBrWide count) s = .next (s.emitted [count])) ∧
    (s.mode = .brPacked → roomForBytes s 1 = true →
      exec (.byteBrPacked hi lo) s = .next
        { s.emitted [BitVec.ofNat 8 (16 * hi.toNat + lo.toNat)] with nibValid := false })

/-! ### The stages of a PUSH -/

/-- R130: `EmitByte`, and that an unbounded counter never refuses a byte. -/
def Obligations.EmitByteAppendsOrOverflows : Prop :=
  ∀ (s : State) (v : Byte),
    (∀ k, s.params.offw = some k → s.outCount = 2 ^ k - 1 →
      emitByte v s = .stop { s with phase := .fault, faultCode := .ovf }) ∧
    ((∀ k, s.params.offw = some k → s.outCount ≠ 2 ^ k - 1) →
      emitByte v s = .go { s with events := s.events ++ [.byte v], outCount := s.outCount + 1 })

/-- R80, R83: the pixels of a byte, by the formula and by the rule's table, and their range. -/
def Obligations.UnpackTakesTheMostSignificantPixelFirst : Prop :=
  (∀ (c : BppCode) (b : Byte) (k : Nat), k < c.ppb →
    ((unpack c b)[k]?).map BitVec.toNat = some (b.toNat / 2 ^ (8 - c.bpp * (k + 1)) % 2 ^ c.bpp)) ∧
  (∀ (c : BppCode) (b : Byte), (unpack c b).length = 8 / c.bpp) ∧
  (∀ (c : BppCode) (b : Byte), ∀ p ∈ unpack c b, p.toNat < 2 ^ c.bpp) ∧
  (∀ b : Byte,
    unpack .bpp8 b = [b] ∧
    unpack .bpp4 b = [(b.extractLsb' 4 4).setWidth 8, (b.extractLsb' 0 4).setWidth 8] ∧
    unpack .bpp2 b = [(b.extractLsb' 6 2).setWidth 8, (b.extractLsb' 4 2).setWidth 8,
      (b.extractLsb' 2 2).setWidth 8, (b.extractLsb' 0 2).setWidth 8] ∧
    unpack .bpp1 b = [7, 6, 5, 4, 3, 2, 1, 0].map fun k => (BitVec.ofBool (b.getLsbD k)).setWidth 8)

/-- R81: pixel `i * ppb + k` of a chunk is pixel `k` of byte `i`, and the stream's length. -/
def Obligations.UnpackChunkKeepsTheOrder : Prop :=
  ∀ (c : BppCode) (bytes : List Byte),
    (unpackChunk c bytes).length = bytes.length * (8 / c.bpp) ∧
    (∀ i k : Nat, k < c.ppb →
      (unpackChunk c bytes)[i * c.ppb + k]? = (bytes[i]?).bind fun b => (unpack c b)[k]?) ∧
    unpackChunk c [] = []

/-- R90, R91, R110: the preparation of a pixel: the quantiser's result is 0..15, `VR_WIDE` never quantises, and the
threshold is at zero. -/
def Obligations.PixelPreparation : Prop :=
  (∀ v : Byte, (quant .bpp8 v).toNat = v.toNat / 16) ∧
  (∀ (c : BppCode) (v : Byte), c ≠ .bpp8 →
    (quant c v).toNat = v.toNat % 16 ∧ (v.toNat < 2 ^ c.bpp → quant c v = v)) ∧
  (∀ (c : BppCode) (v : Byte), (quant c v).toNat ≤ 15) ∧
  (∀ (c : BppCode) (v : Byte), prepVR .vrWide c v = v ∧ prepVR .vrPacked c v = quant c v) ∧
  (∀ v : Byte, thresh v = true ↔ v ≠ 0)

/-- R97: the four cases of one value-run pixel, where the two bytes a unit can take have room. -/
def Obligations.ValueRunPixelCases : Prop :=
  ∀ (s : State) (q : Byte), s.mode.isValueRun = true → roomForBytes s 2 = true →
    (s.runValid = false → vrStep q s = .go { s with runValid := true, runVal := q, runCnt := 1 }) ∧
    (s.runValid = true → q = s.runVal → s.runCnt.toNat + 1 < s.mode.cap →
      vrStep q s = .go { s with runCnt := s.runCnt + 1 }) ∧
    (s.runValid = true → q = s.runVal → s.runCnt.toNat + 1 = s.mode.cap →
      vrStep q s = .go { s.emitted (unitBytesVR s.mode (s.runCnt + 1) s.runVal) with
        runValid := false, runCnt := 0 }) ∧
    (s.runValid = true → q ≠ s.runVal →
      vrStep q s = .go { s.emitted (unitBytesVR s.mode s.runCnt s.runVal) with runVal := q, runCnt := 1 })

/-- R120: a count is a byte in `BR_WIDE`; in `BR_PACKED` it is held, or it completes the byte of the held one. -/
def Obligations.CountsArePacked : Prop :=
  ∀ (s : State) (c : Byte), roomForBytes s 1 = true →
    (s.mode = .brWide → emitCount c s = .go (s.emitted [c])) ∧
    (s.mode = .brPacked → c.toNat ≤ 15 → s.nibValid = false →
      emitCount c s = .go { s with nibValid := true, nibHold := BitVec.ofNat 4 c.toNat }) ∧
    (s.mode = .brPacked → c.toNat ≤ 15 → s.nibValid = true →
      emitCount c s = .go
        { s.emitted [(s.nibHold.setWidth 8 <<< 4) ||| c] with nibValid := false })

/-- R112, R117: the cases of one bit-run pixel. A saturated run does not toggle the target; a change of bit emits the count
so far, which may be 0, and toggles it. -/
def Obligations.BitRunPixelCases : Prop :=
  ∀ (s : State) (b : Bool),
    (b = s.tgt → s.runCnt.toNat + 1 < s.mode.cap → brStep b s = .go { s with runCnt := s.runCnt + 1 }) ∧
    (b = s.tgt → s.runCnt.toNat + 1 = s.mode.cap →
      ∀ t, emitCount (BitVec.ofNat 8 s.mode.cap) { s with runCnt := BitVec.ofNat 8 s.mode.cap } = .go t →
        brStep b s = .go { t with runCnt := 0 } ∧ t.tgt = s.tgt) ∧
    (b ≠ s.tgt → ∀ t, emitCount s.runCnt s = .go t →
      brStep b s = .go { t with tgt := !s.tgt, runCnt := 1 })

/-- R195: `OVF` at `BEGIN` and on `in_count` changes no register; between the two bytes of a `VR_WIDE` unit it leaves the
count byte without its value byte, `in_count` counted and the run registers as they were. -/
def Obligations.OverflowLeavesWhatPrecededIt : Prop :=
  ∀ (s : State) (k : Nat) (b : Byte),
    (s.phase = .idle → s.params.idxw = some k → s.chunkIdx = 2 ^ k - 1 →
      exec .beginChunk s = .next { s with phase := .fault, faultCode := .ovf }) ∧
    (s.phase = .chunk → s.params.offw = some k → s.inCount = 2 ^ k - 1 →
      exec (.push b) s = .next { s with phase := .fault, faultCode := .ovf }) ∧
    (s.phase = .chunk → s.params.offw = some k → s.inCount ≠ 2 ^ k - 1 → s.outCount + 2 = 2 ^ k →
      s.mode = .vrWide → s.bppc = .bpp8 → s.runValid = true → b ≠ s.runVal →
      exec (.push b) s = .next
        { s.emitted [s.runCnt] with inCount := s.inCount + 1, phase := .fault, faultCode := .ovf })

/-! ### The functional definitions -/

/-- R93: what the run list of a stream is. -/
def Obligations.RunListProperties : Prop :=
  ∀ (cap : Nat) (s : List Byte), 1 ≤ cap →
    (∀ r ∈ vRuns cap s, 1 ≤ r.1 ∧ r.1 ≤ cap) ∧
    expandUnits (vRuns cap s) = s ∧ ((vRuns cap s).map Prod.fst).sum = s.length ∧
    (∀ (pre post : List (Nat × Byte)) (r q : Nat × Byte),
      vRuns cap s = pre ++ r :: q :: post → r.2 = q.2 → r.1 = cap) ∧
    (∀ (pre post : List Byte) (v : Byte) (len : Nat), 1 ≤ len → pre.getLast? ≠ some v → post.head? ≠ some v →
      vRuns cap (pre ++ List.replicate len v ++ post)
        = vRuns cap pre ++ List.replicate (len / cap) (cap, v)
          ++ (if len % cap = 0 then [] else [(len % cap, v)]) ++ vRuns cap post) ∧
    vRuns cap [] = []

/-- R114: what the count list of a binary stream is; the fourth item is stated for a segment at which the target is its
bit, which R113 and the fourth item itself give for every maximal segment. -/
def Obligations.CountListProperties : Prop :=
  ∀ (cap : Nat) (s : List Bool), 2 ≤ cap →
    (∀ c ∈ bCounts cap s, c ≤ cap) ∧ (bCounts cap s).sum = s.length ∧
    (∀ (pre post : List Nat) (c d : Nat), bCounts cap s = pre ++ c :: d :: post → c = 0 → d ≠ 0) ∧
    (bCounts cap s).getLast? ≠ some 0 ∧
    bCounts cap [] = [] ∧
    (∀ (t : Bool) (len : Nat) (post : List Bool), 1 ≤ len → post.head? ≠ some t →
      bCountsFrom cap t (List.replicate len t ++ post)
        = List.replicate (len / cap) cap
          ++ (if len % cap = 0 then (if post = [] then [] else [0]) else [len % cap])
          ++ bCountsFrom cap (!t) post) ∧
    (bCounts cap s).length ≤ s.length + 1 ∧
    decBRBits cap (bCounts cap s) s.length = s

/-- R113: a chunk whose first bit is 1 begins with a count of 0, and a full count before a change of bit is followed by
one; each toggles the target. -/
def Obligations.ZeroCountsAreEmitted : Prop :=
  ∀ (cap : Nat) (rest : List Bool), 1 ≤ cap →
    bCounts cap (true :: rest) = 0 :: bCountsFrom cap true (true :: rest) ∧
    (∀ t : Bool, bCountsFrom cap t (List.replicate cap t ++ (!t) :: rest)
      = cap :: 0 :: bCountsFrom cap (!t) ((!t) :: rest))

/-- R99: from no run in progress, the pixels of a chunk one by one and then the flush emit exactly the functional encoding,
for every value-run mode, every width and every byte list, where it has room. -/
def Obligations.ValueRunStreamingIsFunctional : Prop :=
  ∀ (s : State) (bytes : List Byte), s.mode.isValueRun = true → s.runValid = false → s.runCnt = 0 →
    roomForBytes s (encodeChunk s.mode s.bppc bytes).length = true →
    (feedPixels (unpackChunk s.bppc bytes) s).andThen vrFlush
      = .go { s.emitted (encodeChunk s.mode s.bppc bytes) with runValid := false, runVal := 0, runCnt := 0 }

/-- R119: the same for the bit-run family, from target 0, no count so far and no count held. -/
def Obligations.BitRunStreamingIsFunctional : Prop :=
  ∀ (s : State) (bytes : List Byte), s.mode.isValueRun = false → s.tgt = false → s.runCnt = 0 →
    s.nibValid = false → roomForBytes s (encodeChunk s.mode s.bppc bytes).length = true →
    (feedPixels (unpackChunk s.bppc bytes) s).andThen brFlush
      = .go { s.emitted (encodeChunk s.mode s.bppc bytes) with
          tgt := false, runCnt := 0, nibValid := false, nibHold := 0 }

/-- R54, R140: from every `IDLE` state, whatever its run-length registers hold, the commands of a chunk produce its record
and the bytes that its mode, its width and its own bytes give, and nothing else. -/
def Obligations.ChunkOutputDependsOnTheChunkAlone : Prop :=
  ∀ (s : State) (bytes : List Byte) (rest : List Input), s.phase = .idle →
    s.pending = (chunkCommands bytes).flatMap presentInstr ++ rest →
    counterFull s.params.idxw s.chunkIdx = false → roomForInput s bytes.length = true →
    roomForBytes s (encodeChunk s.mode s.bppc bytes).length = true →
    ∃ t, Host.Core.run core (bytes.length + 2) s = .next t ∧
      t.events = s.events ++ .off s.chunkIdx s.outCount :: byteEvents (encodeChunk s.mode s.bppc bytes) ∧
      t.phase = .idle ∧ t.mode = s.mode ∧ t.bppc = s.bppc ∧ t.chunkIdx = s.chunkIdx + 1 ∧
      t.inCount = s.inCount + bytes.length ∧
      t.outCount = s.outCount + (encodeChunk s.mode s.bppc bytes).length ∧ t.pending = rest

/-- R142: the commands of a whole run, from `UNCONF` or `IDLE` and with room for it, produce exactly the events that
`EncodeRun` gives, in order, and end in `IDLE` with its sizes in the counters. -/
def Obligations.RunStreamingIsFunctional : Prop :=
  ∀ (s : State) (m : Mode) (c : BppCode) (chunks : List (List Byte)) (rest : List Input),
    s.phase = .unconf ∨ s.phase = .idle →
    s.pending = (runCommands m c chunks).flatMap presentInstr ++ rest →
    fitsWidth s.params.offw (encodeRun m c chunks).compressedSize = true →
    fitsWidth s.params.offw (encodeRun m c chunks).originalSize = true →
    fitsWidth s.params.idxw chunks.length = true →
    ∃ t, Host.Core.run core (runCommands m c chunks).length s = .next t ∧
      t.events = s.events ++ runTrace m c 0 0 chunks ∧ t.phase = .idle ∧
      t.inCount = (encodeRun m c chunks).originalSize ∧ t.outCount = (encodeRun m c chunks).compressedSize ∧
      t.chunkIdx = chunks.length ∧ t.pending = rest ∧
      runResult t = some ⟨(encodeRun m c chunks).blob, (encodeRun m c chunks).offsets,
        (encodeRun m c chunks).originalSize, (encodeRun m c chunks).compressedSize, chunks.length⟩

/-- R134: the offsets of a run. -/
def Obligations.OffsetsAreCumulativeLengths : Prop :=
  ∀ (m : Mode) (c : BppCode) (chunks : List (List Byte)),
    (encodeRun m c chunks).offsets.length = chunks.length ∧
    (chunks ≠ [] → (encodeRun m c chunks).offsets[0]? = some 0) ∧
    (∀ i o o', (encodeRun m c chunks).offsets[i]? = some o → (encodeRun m c chunks).offsets[i + 1]? = some o' →
      ∃ ch, chunks[i]? = some ch ∧ o' = o + (encodeChunk m c ch).length ∧ (o' = o ↔ ch = [])) ∧
    (∀ o ch, (encodeRun m c chunks).offsets.getLast? = some o → chunks.getLast? = some ch →
      o + (encodeChunk m c ch).length = (encodeRun m c chunks).compressedSize)

/-- R143: the bounds on the bytes of a chunk's encoding. -/
def Obligations.EncodedSizeBounds : Prop :=
  ∀ (m : Mode) (c : BppCode) (bytes : List Byte),
    minChunkBytes m (bytes.length * 8 / c.bpp) ≤ (encodeChunk m c bytes).length ∧
    (encodeChunk m c bytes).length ≤ maxChunkBytes m (bytes.length * 8 / c.bpp)

/-- R143: the bounds on the bytes of one `PUSH` and of one `END`; no other command emits a byte, and no command but `BEGIN`
a record. -/
def Obligations.CommandOutputBounds : Prop :=
  ∀ (s t : State) (w : CmdWord) (i : Instr), BlockInv s → decodeCommand w = .ok i → exec i s = .next t →
    ∃ es, t.events = s.events ++ es ∧
      (match i with
        | .push _ => (bytesOf es).length ≤ maxPushBytes s.mode s.bppc ∧ recordsOf es = []
        | .endChunk => (bytesOf es).length ≤ maxEndBytes s.mode ∧ recordsOf es = []
        | .beginChunk => bytesOf es = [] ∧ (recordsOf es).length ≤ 1
        | _ => es = [])

/-! ### Round trips -/

/-- R180: decoding the encoding of a chunk, whatever follows it, gives its prepared pixels. -/
def Obligations.DecodingGivesThePreparedPixels : Prop :=
  ∀ (m : Mode) (c : BppCode) (bytes tail : List Byte),
    (m.isValueRun = true →
      decVR m (encodeChunk m c bytes ++ tail) (unpackChunk c bytes).length = preparedVR m c bytes) ∧
    (m.isValueRun = false →
      decBRBits m.cap (countsBR m (encodeChunk m c bytes ++ tail)) (unpackChunk c bytes).length = preparedBR c bytes)

/-- R181: at 1 bit per pixel the byte-budget decoder of a bit-run mode gives the chunk itself. -/
def Obligations.OneBitPerPixelRoundTripIsExact : Prop :=
  ∀ (m : Mode) (bytes : List Byte), m.isValueRun = false →
    decBRBytes m (encodeChunk m .bpp1 bytes) bytes.length = bytes

/-- R218: exactly three configurations lose information: there two chunks of one length encode alike, and in every other
configuration they do not. -/
def Obligations.LosslessConfigurationsAreInjective : Prop :=
  (∀ (m : Mode) (c : BppCode) (a b : List Byte), lossless m c = true → a.length = b.length →
    encodeChunk m c a = encodeChunk m c b → a = b) ∧
  (∀ (m : Mode) (c : BppCode), lossless m c = false →
    ∃ a b : List Byte, a.length = b.length ∧ a ≠ b ∧ encodeChunk m c a = encodeChunk m c b)

/-- R171 to R174: the value-run decoder fills its destination, does not depend on what follows the units that cover it
(the over-read unit among it), and gives the first pixels of its units. -/
def Obligations.ValueRunDecoderReadsOnlyWhatItNeeds : Prop :=
  ∀ (m : Mode) (src tail : List Byte) (capacity : Nat), m.isValueRun = true →
    (decVR m src capacity).length = capacity ∧
    (capacity ≤ (expandUnits (unitsVR m src)).length →
      decVR m src capacity = (expandUnits (unitsVR m src)).take capacity ∧
      decVR m (src ++ tail) capacity = decVR m src capacity)

/-- R176: bit `n` of the decoded sequence is bit `7 - n mod 8` of destination byte `n / 8`. -/
def Obligations.DecodedBitsArePackedMsbFirst : Prop :=
  ∀ (bits : List Bool) (n : Nat), n < bits.length →
    ((packBits bits)[n / 8]?).map (fun b => b.getLsbD (7 - n % 8)) = bits[n]?

/-- R182, R49: chunk `i` of a run is decoded out of the blob from its offset on. -/
def Obligations.ChunksDecodeOutOfTheBlob : Prop :=
  ∀ (m : Mode) (c : BppCode) (chunks : List (List Byte)) (i : Nat) (ch : List Byte), chunks[i]? = some ch →
    (m.isValueRun = true →
      decVR m (chunkSource (encodeRun m c chunks).blob (encodeRun m c chunks).offsets i) (unpackChunk c ch).length
        = preparedVR m c ch) ∧
    (m.isValueRun = false →
      decBRBits m.cap (countsBR m (chunkSource (encodeRun m c chunks).blob (encodeRun m c chunks).offsets i))
        (unpackChunk c ch).length = preparedBR c ch)

/-! ### The machine as a whole -/

/-- The invariant holds after reset. -/
def Obligations.ResetStateMeetsTheInvariant : Prop := BlockInv State.reset

/-- Every step keeps the invariant: R13, R15 to R17, R23, R131, R42, R43, R51 and the counters' ranges of R10. -/
def Obligations.EveryStepKeepsTheInvariant : Prop :=
  ∀ s t : State, BlockInv s → step s = .next t → BlockInv t

/-- R13, R198: a recorded fault changes only at the reset event, and the flag shows it. -/
def Obligations.FaultIsStickyUntilReset : Prop :=
  ∀ s t : State, BlockInv s → step s = .next t → s.phase = .fault → s.pending.head? ≠ some .reset →
    t.phase = .fault ∧ t.faultCode = s.faultCode ∧ faultFlag t = true

/-- R42, R50, R211: events are only ever added, at the end. -/
def Obligations.EventsAreNeverTakenBack : Prop :=
  ∀ s t : State, step s = .next t → s.events <+: t.events

/-- R26, R40, R5: the block is its thirteen registers: what a word does to them and which events it hands over is the
transition of the block alone, and no command reads what the block has produced: with any other events in their place the
registers and the new events are the same. -/
def Obligations.OutputIsNeverReadBack : Prop :=
  ∀ (s t : State) (w : CmdWord), stepWord w s = .next t →
    t.toBlock = (Block.step s.params w s.toBlock).1 ∧
    t.events = s.events ++ (Block.step s.params w s.toBlock).2 ∧
    ∀ (es : List Event) (at1 at2 n1 n2 : Nat), ∃ t' new,
      stepWord w { s with events := es, resetAt := at1, runAt := at2, bytesTaken := n1, offsTaken := n2 } = .next t' ∧
      sameBlock t t' ∧ t.events = s.events ++ new ∧ t'.events = es ++ new

/-- R14, R53: `mode` and `bppc` change only at the reset event and at a `CFG` outside a chunk; the widths never. -/
def Obligations.ConfigurationChangesOnlyAtCfg : Prop :=
  ∀ s t : State, step s = .next t →
    t.params = s.params ∧
    ((t.mode = s.mode ∧ t.bppc = s.bppc) ∨ s.pending.head? = some .reset ∨
      (s.phase ≠ .chunk ∧ s.phase ≠ .fault ∧ ∃ w m c, s.pending.head? = some (.command w) ∧
        decodeCommand w = .ok (.cfg m c) ∧ t.mode = m ∧ t.bppc = c))

/-- R195, R3: with unbounded counters `OVF` cannot occur. -/
def Obligations.UnboundedCountersNeverOverflow : Prop :=
  ∀ s t : State, s.params = ⟨none, none⟩ → s.faultCode ≠ .ovf → step s = .next t → t.faultCode ≠ .ovf

/-- R154, R155: what `PUSH` and `END` leave unchanged in every case: the configuration, the other counter, the registers of
the other family, the records, the interface; `out_count` moves by the bytes emitted. -/
def Obligations.PushAndEndFrame : Prop :=
  ∀ (s t : State) (i : Instr), (∃ b, i = .push b) ∨ i = .endChunk → exec i s = .next t →
    t.mode = s.mode ∧ t.bppc = s.bppc ∧ t.params = s.params ∧ t.pending = s.pending ∧ t.resetAt = s.resetAt ∧
    t.runAt = s.runAt ∧ t.bytesTaken = s.bytesTaken ∧ t.offsTaken = s.offsTaken ∧
    (i = .endChunk → t.inCount = s.inCount) ∧ ((∃ b, i = .push b) → t.chunkIdx = s.chunkIdx) ∧
    (s.mode.isValueRun = true → t.tgt = s.tgt ∧ t.nibValid = s.nibValid ∧ t.nibHold = s.nibHold) ∧
    (s.mode.isValueRun = false → t.runValid = s.runValid ∧ t.runVal = s.runVal) ∧
    ((∃ b, i = .push b) → s.mode = .brWide → t.nibValid = s.nibValid ∧ t.nibHold = s.nibHold) ∧
    (∃ l : List Byte, t.events = s.events ++ byteEvents l ∧ t.outCount = s.outCount + l.length)

/-- R42: an emitted byte joins the blob at the address that `out_count` held. -/
def Obligations.EmittedByteHasItsAddress : Prop :=
  ∀ (s t : State) (v : Byte), BlockInv s → emitByte v s = .go t →
    blob t = blob s ++ [v] ∧ (blob t)[s.outCount]? = some v ∧ (∀ n, n < s.outCount → (blob t)[n]? = (blob s)[n]?)

/-- R135, R43: the record of a chunk carries the number of bytes before it, and is the next of the table. -/
def Obligations.RecordCarriesTheBytesBeforeIt : Prop :=
  ∀ s t : State, BlockInv s → exec .beginChunk s = .next t → t.phase = .chunk →
    s.phase = .idle ∧ offsetTable t = offsetTable s ++ [(blob s).length] ∧ blob t = blob s ∧
    (offsetTable t).length = s.chunkIdx + 1

/-- R52: when `END` has completed, nothing of the chunk is left inside the block. -/
def Obligations.EndLeavesNothingInside : Prop :=
  ∀ s t : State, BlockInv s → s.phase = .chunk → exec .endChunk s = .next t → t.phase = .idle →
    t.runValid = false ∧ t.runCnt = 0 ∧ t.nibValid = false ∧ pendingPixels t = [] ∧ pendingBits t = [] ∧
    heldCount t = [] ∧ t.chunkIdx = s.chunkIdx + 1

/-- R158: a run has a result exactly in `IDLE`, and its sizes are the lengths of its blob and of its table. -/
def Obligations.ResultIsDefinedWhenComplete : Prop :=
  ∀ s : State, BlockInv s →
    (s.phase ≠ .idle → runResult s = none) ∧
    (s.phase = .idle → ∃ r, runResult s = some r ∧ r.blob = blob s ∧ r.offsets = offsetTable s ∧
      r.originalSize = s.inCount ∧ r.compressedSize = s.outCount ∧ r.compressedSize = r.blob.length ∧
      r.chunks = s.chunkIdx ∧ r.offsets.length = r.chunks)
end

