-- ==== Sys2Proof/Laws/Codec.lean ====
section
/-! SUPPORT. The codes, the fields of a command word and the nibbles of a packed byte, each read back from where it was
written. -/

namespace Sys2Proof

@[simp] theorem Mode.ofCode_code (m : Mode) : Mode.ofCode m.code = m := by cases m <;> rfl

@[simp] theorem Mode.code_ofCode : ∀ c : BitVec 2, (Mode.ofCode c).code = c := by decide

@[simp] theorem BppCode.ofCode_code (c : BppCode) : BppCode.ofCode c.code = c := by cases c <;> rfl

@[simp] theorem BppCode.code_ofCode : ∀ c : BitVec 2, (BppCode.ofCode c).code = c := by decide

@[simp] theorem opField_commandWord : ∀ (op : BitVec 3) (arg : Byte), opField (commandWord op arg) = op := by
  decide

@[simp] theorem argField_commandWord : ∀ (op : BitVec 3) (arg : Byte), argField (commandWord op arg) = arg := by
  decide

/-- A command word is its two fields (R60). -/
theorem commandWord_fields : ∀ w : CmdWord, commandWord (opField w) (argField w) = w := by decide

/-- The word of R62 is the operation code 1 over the operand byte of `CFG`. -/
theorem cfgWord_eq (m : Mode) (c : BppCode) :
    cfgWord m c = commandWord 1 ((c.code.setWidth 8 <<< 2) ||| m.code.setWidth 8) := by
  cases m <;> cases c <;> decide

@[simp] theorem highNibble_nibblePair : ∀ hi lo : Nibble, highNibble (nibblePair hi lo) = hi := by decide

@[simp] theorem lowNibble_nibblePair : ∀ hi lo : Nibble, lowNibble (nibblePair hi lo) = lo := by decide

/-- A byte is its two nibbles. -/
@[simp] theorem nibblePair_nibbles : ∀ b : Byte, nibblePair (highNibble b) (lowNibble b) = b := by decide

/-- The packed value-run byte as R67 writes it: `((c - 1) << 4) | (v & 0xF)`. -/
theorem nibblePair_of_run (c v : Byte) :
    nibblePair (lowNibble (c - 1)) (lowNibble v) = ((c - 1) <<< 4) ||| (v &&& 0xF) := by
  generalize c - 1 = d
  have low : ∀ d : Byte, (lowNibble d).setWidth 8 <<< 4 = d <<< 4 := by decide
  have mask : ∀ v : Byte, (lowNibble v).setWidth 8 = v &&& 0xF := by decide
  rw [nibblePair, low, mask]

/-- The packed bit-run byte as R69 writes it, for a count that fits its nibble: `(hi << 4) | c`. -/
theorem nibblePair_of_count (hi : Nibble) (c : Byte) (h : c.toNat ≤ 15) :
    nibblePair hi (lowNibble c) = (hi.setWidth 8 <<< 4) ||| c := by
  have low : ∀ c : Byte, c.toNat ≤ 15 → (lowNibble c).setWidth 8 = c := by decide
  rw [nibblePair, low c h]

end Sys2Proof
end

