-- ==== Sys2Proof/Laws/State.lean ====
section
/-! SUPPORT. What each field reads after each named write of State: one lemma per field per write. -/

namespace Sys2Proof.Machine

section
variable (s : State)

@[simp] theorem State.setPhase_phase (p : Phase) : (s.setPhase p).phase = p := rfl
@[simp] theorem State.setPhase_faultCode (p : Phase) : (s.setPhase p).faultCode = s.faultCode := rfl
@[simp] theorem State.setPhase_mode (p : Phase) : (s.setPhase p).mode = s.mode := rfl
@[simp] theorem State.setPhase_bppc (p : Phase) : (s.setPhase p).bppc = s.bppc := rfl
@[simp] theorem State.setPhase_runValid (p : Phase) : (s.setPhase p).runValid = s.runValid := rfl
@[simp] theorem State.setPhase_runVal (p : Phase) : (s.setPhase p).runVal = s.runVal := rfl
@[simp] theorem State.setPhase_runCnt (p : Phase) : (s.setPhase p).runCnt = s.runCnt := rfl
@[simp] theorem State.setPhase_tgt (p : Phase) : (s.setPhase p).tgt = s.tgt := rfl
@[simp] theorem State.setPhase_nibValid (p : Phase) : (s.setPhase p).nibValid = s.nibValid := rfl
@[simp] theorem State.setPhase_nibHold (p : Phase) : (s.setPhase p).nibHold = s.nibHold := rfl
@[simp] theorem State.setPhase_outCount (p : Phase) : (s.setPhase p).outCount = s.outCount := rfl
@[simp] theorem State.setPhase_inCount (p : Phase) : (s.setPhase p).inCount = s.inCount := rfl
@[simp] theorem State.setPhase_chunkIdx (p : Phase) : (s.setPhase p).chunkIdx = s.chunkIdx := rfl
@[simp] theorem State.setPhase_params (p : Phase) : (s.setPhase p).params = s.params := rfl
@[simp] theorem State.setPhase_pending (p : Phase) : (s.setPhase p).pending = s.pending := rfl
@[simp] theorem State.setPhase_events (p : Phase) : (s.setPhase p).events = s.events := rfl
@[simp] theorem State.setPhase_resetAt (p : Phase) : (s.setPhase p).resetAt = s.resetAt := rfl
@[simp] theorem State.setPhase_runAt (p : Phase) : (s.setPhase p).runAt = s.runAt := rfl
@[simp] theorem State.setPhase_bytesTaken (p : Phase) : (s.setPhase p).bytesTaken = s.bytesTaken := rfl
@[simp] theorem State.setPhase_offsTaken (p : Phase) : (s.setPhase p).offsTaken = s.offsTaken := rfl

@[simp] theorem State.setConfig_phase (m : Mode) (c : BppCode) : (s.setConfig m c).phase = s.phase := rfl
@[simp] theorem State.setConfig_faultCode (m : Mode) (c : BppCode) : (s.setConfig m c).faultCode = s.faultCode := rfl
@[simp] theorem State.setConfig_mode (m : Mode) (c : BppCode) : (s.setConfig m c).mode = m := rfl
@[simp] theorem State.setConfig_bppc (m : Mode) (c : BppCode) : (s.setConfig m c).bppc = c := rfl
@[simp] theorem State.setConfig_runValid (m : Mode) (c : BppCode) : (s.setConfig m c).runValid = s.runValid := rfl
@[simp] theorem State.setConfig_runVal (m : Mode) (c : BppCode) : (s.setConfig m c).runVal = s.runVal := rfl
@[simp] theorem State.setConfig_runCnt (m : Mode) (c : BppCode) : (s.setConfig m c).runCnt = s.runCnt := rfl
@[simp] theorem State.setConfig_tgt (m : Mode) (c : BppCode) : (s.setConfig m c).tgt = s.tgt := rfl
@[simp] theorem State.setConfig_nibValid (m : Mode) (c : BppCode) : (s.setConfig m c).nibValid = s.nibValid := rfl
@[simp] theorem State.setConfig_nibHold (m : Mode) (c : BppCode) : (s.setConfig m c).nibHold = s.nibHold := rfl
@[simp] theorem State.setConfig_outCount (m : Mode) (c : BppCode) : (s.setConfig m c).outCount = s.outCount := rfl
@[simp] theorem State.setConfig_inCount (m : Mode) (c : BppCode) : (s.setConfig m c).inCount = s.inCount := rfl
@[simp] theorem State.setConfig_chunkIdx (m : Mode) (c : BppCode) : (s.setConfig m c).chunkIdx = s.chunkIdx := rfl
@[simp] theorem State.setConfig_params (m : Mode) (c : BppCode) : (s.setConfig m c).params = s.params := rfl
@[simp] theorem State.setConfig_pending (m : Mode) (c : BppCode) : (s.setConfig m c).pending = s.pending := rfl
@[simp] theorem State.setConfig_events (m : Mode) (c : BppCode) : (s.setConfig m c).events = s.events := rfl
@[simp] theorem State.setConfig_resetAt (m : Mode) (c : BppCode) : (s.setConfig m c).resetAt = s.resetAt := rfl
@[simp] theorem State.setConfig_runAt (m : Mode) (c : BppCode) : (s.setConfig m c).runAt = s.runAt := rfl
@[simp] theorem State.setConfig_bytesTaken (m : Mode) (c : BppCode) : (s.setConfig m c).bytesTaken = s.bytesTaken := rfl
@[simp] theorem State.setConfig_offsTaken (m : Mode) (c : BppCode) : (s.setConfig m c).offsTaken = s.offsTaken := rfl

@[simp] theorem State.setRun_phase (b : Bool) (v c : Byte) : (s.setRun b v c).phase = s.phase := rfl
@[simp] theorem State.setRun_faultCode (b : Bool) (v c : Byte) : (s.setRun b v c).faultCode = s.faultCode := rfl
@[simp] theorem State.setRun_mode (b : Bool) (v c : Byte) : (s.setRun b v c).mode = s.mode := rfl
@[simp] theorem State.setRun_bppc (b : Bool) (v c : Byte) : (s.setRun b v c).bppc = s.bppc := rfl
@[simp] theorem State.setRun_runValid (b : Bool) (v c : Byte) : (s.setRun b v c).runValid = b := rfl
@[simp] theorem State.setRun_runVal (b : Bool) (v c : Byte) : (s.setRun b v c).runVal = v := rfl
@[simp] theorem State.setRun_runCnt (b : Bool) (v c : Byte) : (s.setRun b v c).runCnt = c := rfl
@[simp] theorem State.setRun_tgt (b : Bool) (v c : Byte) : (s.setRun b v c).tgt = s.tgt := rfl
@[simp] theorem State.setRun_nibValid (b : Bool) (v c : Byte) : (s.setRun b v c).nibValid = s.nibValid := rfl
@[simp] theorem State.setRun_nibHold (b : Bool) (v c : Byte) : (s.setRun b v c).nibHold = s.nibHold := rfl
@[simp] theorem State.setRun_outCount (b : Bool) (v c : Byte) : (s.setRun b v c).outCount = s.outCount := rfl
@[simp] theorem State.setRun_inCount (b : Bool) (v c : Byte) : (s.setRun b v c).inCount = s.inCount := rfl
@[simp] theorem State.setRun_chunkIdx (b : Bool) (v c : Byte) : (s.setRun b v c).chunkIdx = s.chunkIdx := rfl
@[simp] theorem State.setRun_params (b : Bool) (v c : Byte) : (s.setRun b v c).params = s.params := rfl
@[simp] theorem State.setRun_pending (b : Bool) (v c : Byte) : (s.setRun b v c).pending = s.pending := rfl
@[simp] theorem State.setRun_events (b : Bool) (v c : Byte) : (s.setRun b v c).events = s.events := rfl
@[simp] theorem State.setRun_resetAt (b : Bool) (v c : Byte) : (s.setRun b v c).resetAt = s.resetAt := rfl
@[simp] theorem State.setRun_runAt (b : Bool) (v c : Byte) : (s.setRun b v c).runAt = s.runAt := rfl
@[simp] theorem State.setRun_bytesTaken (b : Bool) (v c : Byte) : (s.setRun b v c).bytesTaken = s.bytesTaken := rfl
@[simp] theorem State.setRun_offsTaken (b : Bool) (v c : Byte) : (s.setRun b v c).offsTaken = s.offsTaken := rfl

@[simp] theorem State.setBitRun_phase (b : Bool) (c : Byte) : (s.setBitRun b c).phase = s.phase := rfl
@[simp] theorem State.setBitRun_faultCode (b : Bool) (c : Byte) : (s.setBitRun b c).faultCode = s.faultCode := rfl
@[simp] theorem State.setBitRun_mode (b : Bool) (c : Byte) : (s.setBitRun b c).mode = s.mode := rfl
@[simp] theorem State.setBitRun_bppc (b : Bool) (c : Byte) : (s.setBitRun b c).bppc = s.bppc := rfl
@[simp] theorem State.setBitRun_runValid (b : Bool) (c : Byte) : (s.setBitRun b c).runValid = s.runValid := rfl
@[simp] theorem State.setBitRun_runVal (b : Bool) (c : Byte) : (s.setBitRun b c).runVal = s.runVal := rfl
@[simp] theorem State.setBitRun_runCnt (b : Bool) (c : Byte) : (s.setBitRun b c).runCnt = c := rfl
@[simp] theorem State.setBitRun_tgt (b : Bool) (c : Byte) : (s.setBitRun b c).tgt = b := rfl
@[simp] theorem State.setBitRun_nibValid (b : Bool) (c : Byte) : (s.setBitRun b c).nibValid = s.nibValid := rfl
@[simp] theorem State.setBitRun_nibHold (b : Bool) (c : Byte) : (s.setBitRun b c).nibHold = s.nibHold := rfl
@[simp] theorem State.setBitRun_outCount (b : Bool) (c : Byte) : (s.setBitRun b c).outCount = s.outCount := rfl
@[simp] theorem State.setBitRun_inCount (b : Bool) (c : Byte) : (s.setBitRun b c).inCount = s.inCount := rfl
@[simp] theorem State.setBitRun_chunkIdx (b : Bool) (c : Byte) : (s.setBitRun b c).chunkIdx = s.chunkIdx := rfl
@[simp] theorem State.setBitRun_params (b : Bool) (c : Byte) : (s.setBitRun b c).params = s.params := rfl
@[simp] theorem State.setBitRun_pending (b : Bool) (c : Byte) : (s.setBitRun b c).pending = s.pending := rfl
@[simp] theorem State.setBitRun_events (b : Bool) (c : Byte) : (s.setBitRun b c).events = s.events := rfl
@[simp] theorem State.setBitRun_resetAt (b : Bool) (c : Byte) : (s.setBitRun b c).resetAt = s.resetAt := rfl
@[simp] theorem State.setBitRun_runAt (b : Bool) (c : Byte) : (s.setBitRun b c).runAt = s.runAt := rfl
@[simp] theorem State.setBitRun_bytesTaken (b : Bool) (c : Byte) : (s.setBitRun b c).bytesTaken = s.bytesTaken := rfl
@[simp] theorem State.setBitRun_offsTaken (b : Bool) (c : Byte) : (s.setBitRun b c).offsTaken = s.offsTaken := rfl

@[simp] theorem State.setNibble_phase (b : Bool) (h : Nibble) : (s.setNibble b h).phase = s.phase := rfl
@[simp] theorem State.setNibble_faultCode (b : Bool) (h : Nibble) : (s.setNibble b h).faultCode = s.faultCode := rfl
@[simp] theorem State.setNibble_mode (b : Bool) (h : Nibble) : (s.setNibble b h).mode = s.mode := rfl
@[simp] theorem State.setNibble_bppc (b : Bool) (h : Nibble) : (s.setNibble b h).bppc = s.bppc := rfl
@[simp] theorem State.setNibble_runValid (b : Bool) (h : Nibble) : (s.setNibble b h).runValid = s.runValid := rfl
@[simp] theorem State.setNibble_runVal (b : Bool) (h : Nibble) : (s.setNibble b h).runVal = s.runVal := rfl
@[simp] theorem State.setNibble_runCnt (b : Bool) (h : Nibble) : (s.setNibble b h).runCnt = s.runCnt := rfl
@[simp] theorem State.setNibble_tgt (b : Bool) (h : Nibble) : (s.setNibble b h).tgt = s.tgt := rfl
@[simp] theorem State.setNibble_nibValid (b : Bool) (h : Nibble) : (s.setNibble b h).nibValid = b := rfl
@[simp] theorem State.setNibble_nibHold (b : Bool) (h : Nibble) : (s.setNibble b h).nibHold = h := rfl
@[simp] theorem State.setNibble_outCount (b : Bool) (h : Nibble) : (s.setNibble b h).outCount = s.outCount := rfl
@[simp] theorem State.setNibble_inCount (b : Bool) (h : Nibble) : (s.setNibble b h).inCount = s.inCount := rfl
@[simp] theorem State.setNibble_chunkIdx (b : Bool) (h : Nibble) : (s.setNibble b h).chunkIdx = s.chunkIdx := rfl
@[simp] theorem State.setNibble_params (b : Bool) (h : Nibble) : (s.setNibble b h).params = s.params := rfl
@[simp] theorem State.setNibble_pending (b : Bool) (h : Nibble) : (s.setNibble b h).pending = s.pending := rfl
@[simp] theorem State.setNibble_events (b : Bool) (h : Nibble) : (s.setNibble b h).events = s.events := rfl
@[simp] theorem State.setNibble_resetAt (b : Bool) (h : Nibble) : (s.setNibble b h).resetAt = s.resetAt := rfl
@[simp] theorem State.setNibble_runAt (b : Bool) (h : Nibble) : (s.setNibble b h).runAt = s.runAt := rfl
@[simp] theorem State.setNibble_bytesTaken (b : Bool) (h : Nibble) : (s.setNibble b h).bytesTaken = s.bytesTaken := rfl
@[simp] theorem State.setNibble_offsTaken (b : Bool) (h : Nibble) : (s.setNibble b h).offsTaken = s.offsTaken := rfl

@[simp] theorem State.clearRun_phase : (s.clearRun).phase = s.phase := rfl
@[simp] theorem State.clearRun_faultCode : (s.clearRun).faultCode = s.faultCode := rfl
@[simp] theorem State.clearRun_mode : (s.clearRun).mode = s.mode := rfl
@[simp] theorem State.clearRun_bppc : (s.clearRun).bppc = s.bppc := rfl
@[simp] theorem State.clearRun_runValid : (s.clearRun).runValid = false := rfl
@[simp] theorem State.clearRun_runVal : (s.clearRun).runVal = 0 := rfl
@[simp] theorem State.clearRun_runCnt : (s.clearRun).runCnt = 0 := rfl
@[simp] theorem State.clearRun_tgt : (s.clearRun).tgt = false := rfl
@[simp] theorem State.clearRun_nibValid : (s.clearRun).nibValid = false := rfl
@[simp] theorem State.clearRun_nibHold : (s.clearRun).nibHold = 0 := rfl
@[simp] theorem State.clearRun_outCount : (s.clearRun).outCount = s.outCount := rfl
@[simp] theorem State.clearRun_inCount : (s.clearRun).inCount = s.inCount := rfl
@[simp] theorem State.clearRun_chunkIdx : (s.clearRun).chunkIdx = s.chunkIdx := rfl
@[simp] theorem State.clearRun_params : (s.clearRun).params = s.params := rfl
@[simp] theorem State.clearRun_pending : (s.clearRun).pending = s.pending := rfl
@[simp] theorem State.clearRun_events : (s.clearRun).events = s.events := rfl
@[simp] theorem State.clearRun_resetAt : (s.clearRun).resetAt = s.resetAt := rfl
@[simp] theorem State.clearRun_runAt : (s.clearRun).runAt = s.runAt := rfl
@[simp] theorem State.clearRun_bytesTaken : (s.clearRun).bytesTaken = s.bytesTaken := rfl
@[simp] theorem State.clearRun_offsTaken : (s.clearRun).offsTaken = s.offsTaken := rfl

@[simp] theorem State.setOutCount_phase (n : Nat) : (s.setOutCount n).phase = s.phase := rfl
@[simp] theorem State.setOutCount_faultCode (n : Nat) : (s.setOutCount n).faultCode = s.faultCode := rfl
@[simp] theorem State.setOutCount_mode (n : Nat) : (s.setOutCount n).mode = s.mode := rfl
@[simp] theorem State.setOutCount_bppc (n : Nat) : (s.setOutCount n).bppc = s.bppc := rfl
@[simp] theorem State.setOutCount_runValid (n : Nat) : (s.setOutCount n).runValid = s.runValid := rfl
@[simp] theorem State.setOutCount_runVal (n : Nat) : (s.setOutCount n).runVal = s.runVal := rfl
@[simp] theorem State.setOutCount_runCnt (n : Nat) : (s.setOutCount n).runCnt = s.runCnt := rfl
@[simp] theorem State.setOutCount_tgt (n : Nat) : (s.setOutCount n).tgt = s.tgt := rfl
@[simp] theorem State.setOutCount_nibValid (n : Nat) : (s.setOutCount n).nibValid = s.nibValid := rfl
@[simp] theorem State.setOutCount_nibHold (n : Nat) : (s.setOutCount n).nibHold = s.nibHold := rfl
@[simp] theorem State.setOutCount_outCount (n : Nat) : (s.setOutCount n).outCount = n := rfl
@[simp] theorem State.setOutCount_inCount (n : Nat) : (s.setOutCount n).inCount = s.inCount := rfl
@[simp] theorem State.setOutCount_chunkIdx (n : Nat) : (s.setOutCount n).chunkIdx = s.chunkIdx := rfl
@[simp] theorem State.setOutCount_params (n : Nat) : (s.setOutCount n).params = s.params := rfl
@[simp] theorem State.setOutCount_pending (n : Nat) : (s.setOutCount n).pending = s.pending := rfl
@[simp] theorem State.setOutCount_events (n : Nat) : (s.setOutCount n).events = s.events := rfl
@[simp] theorem State.setOutCount_resetAt (n : Nat) : (s.setOutCount n).resetAt = s.resetAt := rfl
@[simp] theorem State.setOutCount_runAt (n : Nat) : (s.setOutCount n).runAt = s.runAt := rfl
@[simp] theorem State.setOutCount_bytesTaken (n : Nat) : (s.setOutCount n).bytesTaken = s.bytesTaken := rfl
@[simp] theorem State.setOutCount_offsTaken (n : Nat) : (s.setOutCount n).offsTaken = s.offsTaken := rfl

@[simp] theorem State.setInCount_phase (n : Nat) : (s.setInCount n).phase = s.phase := rfl
@[simp] theorem State.setInCount_faultCode (n : Nat) : (s.setInCount n).faultCode = s.faultCode := rfl
@[simp] theorem State.setInCount_mode (n : Nat) : (s.setInCount n).mode = s.mode := rfl
@[simp] theorem State.setInCount_bppc (n : Nat) : (s.setInCount n).bppc = s.bppc := rfl
@[simp] theorem State.setInCount_runValid (n : Nat) : (s.setInCount n).runValid = s.runValid := rfl
@[simp] theorem State.setInCount_runVal (n : Nat) : (s.setInCount n).runVal = s.runVal := rfl
@[simp] theorem State.setInCount_runCnt (n : Nat) : (s.setInCount n).runCnt = s.runCnt := rfl
@[simp] theorem State.setInCount_tgt (n : Nat) : (s.setInCount n).tgt = s.tgt := rfl
@[simp] theorem State.setInCount_nibValid (n : Nat) : (s.setInCount n).nibValid = s.nibValid := rfl
@[simp] theorem State.setInCount_nibHold (n : Nat) : (s.setInCount n).nibHold = s.nibHold := rfl
@[simp] theorem State.setInCount_outCount (n : Nat) : (s.setInCount n).outCount = s.outCount := rfl
@[simp] theorem State.setInCount_inCount (n : Nat) : (s.setInCount n).inCount = n := rfl
@[simp] theorem State.setInCount_chunkIdx (n : Nat) : (s.setInCount n).chunkIdx = s.chunkIdx := rfl
@[simp] theorem State.setInCount_params (n : Nat) : (s.setInCount n).params = s.params := rfl
@[simp] theorem State.setInCount_pending (n : Nat) : (s.setInCount n).pending = s.pending := rfl
@[simp] theorem State.setInCount_events (n : Nat) : (s.setInCount n).events = s.events := rfl
@[simp] theorem State.setInCount_resetAt (n : Nat) : (s.setInCount n).resetAt = s.resetAt := rfl
@[simp] theorem State.setInCount_runAt (n : Nat) : (s.setInCount n).runAt = s.runAt := rfl
@[simp] theorem State.setInCount_bytesTaken (n : Nat) : (s.setInCount n).bytesTaken = s.bytesTaken := rfl
@[simp] theorem State.setInCount_offsTaken (n : Nat) : (s.setInCount n).offsTaken = s.offsTaken := rfl

@[simp] theorem State.setChunkIdx_phase (n : Nat) : (s.setChunkIdx n).phase = s.phase := rfl
@[simp] theorem State.setChunkIdx_faultCode (n : Nat) : (s.setChunkIdx n).faultCode = s.faultCode := rfl
@[simp] theorem State.setChunkIdx_mode (n : Nat) : (s.setChunkIdx n).mode = s.mode := rfl
@[simp] theorem State.setChunkIdx_bppc (n : Nat) : (s.setChunkIdx n).bppc = s.bppc := rfl
@[simp] theorem State.setChunkIdx_runValid (n : Nat) : (s.setChunkIdx n).runValid = s.runValid := rfl
@[simp] theorem State.setChunkIdx_runVal (n : Nat) : (s.setChunkIdx n).runVal = s.runVal := rfl
@[simp] theorem State.setChunkIdx_runCnt (n : Nat) : (s.setChunkIdx n).runCnt = s.runCnt := rfl
@[simp] theorem State.setChunkIdx_tgt (n : Nat) : (s.setChunkIdx n).tgt = s.tgt := rfl
@[simp] theorem State.setChunkIdx_nibValid (n : Nat) : (s.setChunkIdx n).nibValid = s.nibValid := rfl
@[simp] theorem State.setChunkIdx_nibHold (n : Nat) : (s.setChunkIdx n).nibHold = s.nibHold := rfl
@[simp] theorem State.setChunkIdx_outCount (n : Nat) : (s.setChunkIdx n).outCount = s.outCount := rfl
@[simp] theorem State.setChunkIdx_inCount (n : Nat) : (s.setChunkIdx n).inCount = s.inCount := rfl
@[simp] theorem State.setChunkIdx_chunkIdx (n : Nat) : (s.setChunkIdx n).chunkIdx = n := rfl
@[simp] theorem State.setChunkIdx_params (n : Nat) : (s.setChunkIdx n).params = s.params := rfl
@[simp] theorem State.setChunkIdx_pending (n : Nat) : (s.setChunkIdx n).pending = s.pending := rfl
@[simp] theorem State.setChunkIdx_events (n : Nat) : (s.setChunkIdx n).events = s.events := rfl
@[simp] theorem State.setChunkIdx_resetAt (n : Nat) : (s.setChunkIdx n).resetAt = s.resetAt := rfl
@[simp] theorem State.setChunkIdx_runAt (n : Nat) : (s.setChunkIdx n).runAt = s.runAt := rfl
@[simp] theorem State.setChunkIdx_bytesTaken (n : Nat) : (s.setChunkIdx n).bytesTaken = s.bytesTaken := rfl
@[simp] theorem State.setChunkIdx_offsTaken (n : Nat) : (s.setChunkIdx n).offsTaken = s.offsTaken := rfl

@[simp] theorem State.append_phase (e : Event) : (s.append e).phase = s.phase := rfl
@[simp] theorem State.append_faultCode (e : Event) : (s.append e).faultCode = s.faultCode := rfl
@[simp] theorem State.append_mode (e : Event) : (s.append e).mode = s.mode := rfl
@[simp] theorem State.append_bppc (e : Event) : (s.append e).bppc = s.bppc := rfl
@[simp] theorem State.append_runValid (e : Event) : (s.append e).runValid = s.runValid := rfl
@[simp] theorem State.append_runVal (e : Event) : (s.append e).runVal = s.runVal := rfl
@[simp] theorem State.append_runCnt (e : Event) : (s.append e).runCnt = s.runCnt := rfl
@[simp] theorem State.append_tgt (e : Event) : (s.append e).tgt = s.tgt := rfl
@[simp] theorem State.append_nibValid (e : Event) : (s.append e).nibValid = s.nibValid := rfl
@[simp] theorem State.append_nibHold (e : Event) : (s.append e).nibHold = s.nibHold := rfl
@[simp] theorem State.append_outCount (e : Event) : (s.append e).outCount = s.outCount := rfl
@[simp] theorem State.append_inCount (e : Event) : (s.append e).inCount = s.inCount := rfl
@[simp] theorem State.append_chunkIdx (e : Event) : (s.append e).chunkIdx = s.chunkIdx := rfl
@[simp] theorem State.append_params (e : Event) : (s.append e).params = s.params := rfl
@[simp] theorem State.append_pending (e : Event) : (s.append e).pending = s.pending := rfl
@[simp] theorem State.append_events (e : Event) : (s.append e).events = s.events ++ [e] := rfl
@[simp] theorem State.append_resetAt (e : Event) : (s.append e).resetAt = s.resetAt := rfl
@[simp] theorem State.append_runAt (e : Event) : (s.append e).runAt = s.runAt := rfl
@[simp] theorem State.append_bytesTaken (e : Event) : (s.append e).bytesTaken = s.bytesTaken := rfl
@[simp] theorem State.append_offsTaken (e : Event) : (s.append e).offsTaken = s.offsTaken := rfl

@[simp] theorem State.markRun_phase : (s.markRun).phase = s.phase := rfl
@[simp] theorem State.markRun_faultCode : (s.markRun).faultCode = s.faultCode := rfl
@[simp] theorem State.markRun_mode : (s.markRun).mode = s.mode := rfl
@[simp] theorem State.markRun_bppc : (s.markRun).bppc = s.bppc := rfl
@[simp] theorem State.markRun_runValid : (s.markRun).runValid = s.runValid := rfl
@[simp] theorem State.markRun_runVal : (s.markRun).runVal = s.runVal := rfl
@[simp] theorem State.markRun_runCnt : (s.markRun).runCnt = s.runCnt := rfl
@[simp] theorem State.markRun_tgt : (s.markRun).tgt = s.tgt := rfl
@[simp] theorem State.markRun_nibValid : (s.markRun).nibValid = s.nibValid := rfl
@[simp] theorem State.markRun_nibHold : (s.markRun).nibHold = s.nibHold := rfl
@[simp] theorem State.markRun_outCount : (s.markRun).outCount = s.outCount := rfl
@[simp] theorem State.markRun_inCount : (s.markRun).inCount = s.inCount := rfl
@[simp] theorem State.markRun_chunkIdx : (s.markRun).chunkIdx = s.chunkIdx := rfl
@[simp] theorem State.markRun_params : (s.markRun).params = s.params := rfl
@[simp] theorem State.markRun_pending : (s.markRun).pending = s.pending := rfl
@[simp] theorem State.markRun_events : (s.markRun).events = s.events := rfl
@[simp] theorem State.markRun_resetAt : (s.markRun).resetAt = s.resetAt := rfl
@[simp] theorem State.markRun_runAt : (s.markRun).runAt = s.events.length := rfl
@[simp] theorem State.markRun_bytesTaken : (s.markRun).bytesTaken = s.bytesTaken := rfl
@[simp] theorem State.markRun_offsTaken : (s.markRun).offsTaken = s.offsTaken := rfl

@[simp] theorem State.setPending_phase (l : List Input) : (s.setPending l).phase = s.phase := rfl
@[simp] theorem State.setPending_faultCode (l : List Input) : (s.setPending l).faultCode = s.faultCode := rfl
@[simp] theorem State.setPending_mode (l : List Input) : (s.setPending l).mode = s.mode := rfl
@[simp] theorem State.setPending_bppc (l : List Input) : (s.setPending l).bppc = s.bppc := rfl
@[simp] theorem State.setPending_runValid (l : List Input) : (s.setPending l).runValid = s.runValid := rfl
@[simp] theorem State.setPending_runVal (l : List Input) : (s.setPending l).runVal = s.runVal := rfl
@[simp] theorem State.setPending_runCnt (l : List Input) : (s.setPending l).runCnt = s.runCnt := rfl
@[simp] theorem State.setPending_tgt (l : List Input) : (s.setPending l).tgt = s.tgt := rfl
@[simp] theorem State.setPending_nibValid (l : List Input) : (s.setPending l).nibValid = s.nibValid := rfl
@[simp] theorem State.setPending_nibHold (l : List Input) : (s.setPending l).nibHold = s.nibHold := rfl
@[simp] theorem State.setPending_outCount (l : List Input) : (s.setPending l).outCount = s.outCount := rfl
@[simp] theorem State.setPending_inCount (l : List Input) : (s.setPending l).inCount = s.inCount := rfl
@[simp] theorem State.setPending_chunkIdx (l : List Input) : (s.setPending l).chunkIdx = s.chunkIdx := rfl
@[simp] theorem State.setPending_params (l : List Input) : (s.setPending l).params = s.params := rfl
@[simp] theorem State.setPending_pending (l : List Input) : (s.setPending l).pending = l := rfl
@[simp] theorem State.setPending_events (l : List Input) : (s.setPending l).events = s.events := rfl
@[simp] theorem State.setPending_resetAt (l : List Input) : (s.setPending l).resetAt = s.resetAt := rfl
@[simp] theorem State.setPending_runAt (l : List Input) : (s.setPending l).runAt = s.runAt := rfl
@[simp] theorem State.setPending_bytesTaken (l : List Input) : (s.setPending l).bytesTaken = s.bytesTaken := rfl
@[simp] theorem State.setPending_offsTaken (l : List Input) : (s.setPending l).offsTaken = s.offsTaken := rfl

@[simp] theorem State.emitted_phase (l : List Byte) : (s.emitted l).phase = s.phase := rfl
@[simp] theorem State.emitted_faultCode (l : List Byte) : (s.emitted l).faultCode = s.faultCode := rfl
@[simp] theorem State.emitted_mode (l : List Byte) : (s.emitted l).mode = s.mode := rfl
@[simp] theorem State.emitted_bppc (l : List Byte) : (s.emitted l).bppc = s.bppc := rfl
@[simp] theorem State.emitted_runValid (l : List Byte) : (s.emitted l).runValid = s.runValid := rfl
@[simp] theorem State.emitted_runVal (l : List Byte) : (s.emitted l).runVal = s.runVal := rfl
@[simp] theorem State.emitted_runCnt (l : List Byte) : (s.emitted l).runCnt = s.runCnt := rfl
@[simp] theorem State.emitted_tgt (l : List Byte) : (s.emitted l).tgt = s.tgt := rfl
@[simp] theorem State.emitted_nibValid (l : List Byte) : (s.emitted l).nibValid = s.nibValid := rfl
@[simp] theorem State.emitted_nibHold (l : List Byte) : (s.emitted l).nibHold = s.nibHold := rfl
@[simp] theorem State.emitted_outCount (l : List Byte) : (s.emitted l).outCount = s.outCount + l.length := rfl
@[simp] theorem State.emitted_inCount (l : List Byte) : (s.emitted l).inCount = s.inCount := rfl
@[simp] theorem State.emitted_chunkIdx (l : List Byte) : (s.emitted l).chunkIdx = s.chunkIdx := rfl
@[simp] theorem State.emitted_params (l : List Byte) : (s.emitted l).params = s.params := rfl
@[simp] theorem State.emitted_pending (l : List Byte) : (s.emitted l).pending = s.pending := rfl
@[simp] theorem State.emitted_events (l : List Byte) : (s.emitted l).events = s.events ++ l.map .byte := rfl
@[simp] theorem State.emitted_resetAt (l : List Byte) : (s.emitted l).resetAt = s.resetAt := rfl
@[simp] theorem State.emitted_runAt (l : List Byte) : (s.emitted l).runAt = s.runAt := rfl
@[simp] theorem State.emitted_bytesTaken (l : List Byte) : (s.emitted l).bytesTaken = s.bytesTaken := rfl
@[simp] theorem State.emitted_offsTaken (l : List Byte) : (s.emitted l).offsTaken = s.offsTaken := rfl

@[simp] theorem raiseFault_phase (c : FaultCode) : (raiseFault c s).phase = .fault := rfl
@[simp] theorem raiseFault_faultCode (c : FaultCode) : (raiseFault c s).faultCode = c := rfl
@[simp] theorem raiseFault_mode (c : FaultCode) : (raiseFault c s).mode = s.mode := rfl
@[simp] theorem raiseFault_bppc (c : FaultCode) : (raiseFault c s).bppc = s.bppc := rfl
@[simp] theorem raiseFault_runValid (c : FaultCode) : (raiseFault c s).runValid = s.runValid := rfl
@[simp] theorem raiseFault_runVal (c : FaultCode) : (raiseFault c s).runVal = s.runVal := rfl
@[simp] theorem raiseFault_runCnt (c : FaultCode) : (raiseFault c s).runCnt = s.runCnt := rfl
@[simp] theorem raiseFault_tgt (c : FaultCode) : (raiseFault c s).tgt = s.tgt := rfl
@[simp] theorem raiseFault_nibValid (c : FaultCode) : (raiseFault c s).nibValid = s.nibValid := rfl
@[simp] theorem raiseFault_nibHold (c : FaultCode) : (raiseFault c s).nibHold = s.nibHold := rfl
@[simp] theorem raiseFault_outCount (c : FaultCode) : (raiseFault c s).outCount = s.outCount := rfl
@[simp] theorem raiseFault_inCount (c : FaultCode) : (raiseFault c s).inCount = s.inCount := rfl
@[simp] theorem raiseFault_chunkIdx (c : FaultCode) : (raiseFault c s).chunkIdx = s.chunkIdx := rfl
@[simp] theorem raiseFault_params (c : FaultCode) : (raiseFault c s).params = s.params := rfl
@[simp] theorem raiseFault_pending (c : FaultCode) : (raiseFault c s).pending = s.pending := rfl
@[simp] theorem raiseFault_events (c : FaultCode) : (raiseFault c s).events = s.events := rfl
@[simp] theorem raiseFault_resetAt (c : FaultCode) : (raiseFault c s).resetAt = s.resetAt := rfl
@[simp] theorem raiseFault_runAt (c : FaultCode) : (raiseFault c s).runAt = s.runAt := rfl
@[simp] theorem raiseFault_bytesTaken (c : FaultCode) : (raiseFault c s).bytesTaken = s.bytesTaken := rfl
@[simp] theorem raiseFault_offsTaken (c : FaultCode) : (raiseFault c s).offsTaken = s.offsTaken := rfl

@[simp] theorem resetBlock_phase : (resetBlock s).phase = State.reset.phase := rfl
@[simp] theorem resetBlock_faultCode : (resetBlock s).faultCode = State.reset.faultCode := rfl
@[simp] theorem resetBlock_mode : (resetBlock s).mode = State.reset.mode := rfl
@[simp] theorem resetBlock_bppc : (resetBlock s).bppc = State.reset.bppc := rfl
@[simp] theorem resetBlock_runValid : (resetBlock s).runValid = State.reset.runValid := rfl
@[simp] theorem resetBlock_runVal : (resetBlock s).runVal = State.reset.runVal := rfl
@[simp] theorem resetBlock_runCnt : (resetBlock s).runCnt = State.reset.runCnt := rfl
@[simp] theorem resetBlock_tgt : (resetBlock s).tgt = State.reset.tgt := rfl
@[simp] theorem resetBlock_nibValid : (resetBlock s).nibValid = State.reset.nibValid := rfl
@[simp] theorem resetBlock_nibHold : (resetBlock s).nibHold = State.reset.nibHold := rfl
@[simp] theorem resetBlock_outCount : (resetBlock s).outCount = State.reset.outCount := rfl
@[simp] theorem resetBlock_inCount : (resetBlock s).inCount = State.reset.inCount := rfl
@[simp] theorem resetBlock_chunkIdx : (resetBlock s).chunkIdx = State.reset.chunkIdx := rfl
@[simp] theorem resetBlock_params : (resetBlock s).params = s.params := rfl
@[simp] theorem resetBlock_pending : (resetBlock s).pending = s.pending := rfl
@[simp] theorem resetBlock_events : (resetBlock s).events = s.events := rfl
@[simp] theorem resetBlock_resetAt : (resetBlock s).resetAt = s.events.length := rfl
@[simp] theorem resetBlock_runAt : (resetBlock s).runAt = s.events.length := rfl
@[simp] theorem resetBlock_bytesTaken : (resetBlock s).bytesTaken = s.bytesTaken := rfl
@[simp] theorem resetBlock_offsTaken : (resetBlock s).offsTaken = s.offsTaken := rfl

end

/-! ### The host's side is no state of the block (R26) -/

@[simp] theorem State.append_toBlock (s : State) (e : Event) : (s.append e).toBlock = s.toBlock := rfl

@[simp] theorem State.markRun_toBlock (s : State) : s.markRun.toBlock = s.toBlock := rfl

@[simp] theorem State.setPending_toBlock (s : State) (l : List Input) : (s.setPending l).toBlock = s.toBlock := rfl

theorem takeByte_toBlock (s : State) : (takeByte s).toBlock = s.toBlock := by
  unfold takeByte
  split <;> rfl

theorem takeOffset_toBlock (s : State) : (takeOffset s).toBlock = s.toBlock := by
  unfold takeOffset
  split <;> rfl

end Sys2Proof.Machine
end

