-- ==== Sys2Proof/Laws/Ops.lean ====
section
/-! SUPPORT. The shared operations: sequencing, room in `out_count`, the output primitives, and what every operation that
emits leaves unchanged (`Flow.Emits`), which the laws of the encoders are stated with. -/

namespace Sys2Proof.Machine

/-! ### Sequencing -/

@[simp] theorem Flow.andThen_go (s : State) (k : State → Flow) : (Flow.go s).andThen k = k s := rfl

@[simp] theorem Flow.andThen_stop (s : State) (k : State → Flow) : (Flow.stop s).andThen k = .stop s := rfl

@[simp] theorem Flow.state_go (s : State) : (Flow.go s).state = s := rfl

@[simp] theorem Flow.state_stop (s : State) : (Flow.stop s).state = s := rfl

@[simp] theorem Flow.answer_go (s : State) : (Flow.go s).answer = .next s := rfl

@[simp] theorem Flow.answer_stop (s : State) : (Flow.stop s).answer = .next s := rfl

theorem Flow.andThen_assoc (f : Flow) (k l : State → Flow) :
    (f.andThen k).andThen l = f.andThen fun s => (k s).andThen l := by
  cases f <;> rfl

theorem Flow.andThen_eq_go {f : Flow} {k : State → Flow} {t : State} (h : f.andThen k = .go t) :
    ∃ s, f = .go s ∧ k s = .go t := by
  cases f with
  | go s => exact ⟨s, rfl, h⟩
  | stop s => cases h

theorem feedPixels_append (ps qs : List Byte) (s : State) :
    feedPixels (ps ++ qs) s = (feedPixels ps s).andThen (feedPixels qs) := by
  induction ps generalizing s with
  | nil => rfl
  | cons p ps ih =>
    rw [List.cons_append, feedPixels, feedPixels, Flow.andThen_assoc]
    cases pixelStep p s with
    | go t => exact ih t
    | stop t => rfl

/-! ### Emitted bytes -/

@[simp] theorem State.emitted_nil (s : State) : s.emitted [] = s := by
  simp [State.emitted]

theorem State.emitted_append (s : State) (l k : List Byte) :
    s.emitted (l ++ k) = (s.emitted l).emitted k := by
  simp [State.emitted, Nat.add_assoc]

theorem roomForBytes_iff (s : State) (n : Nat) :
    roomForBytes s n = true ↔ ∀ k, s.params.offw = some k → s.outCount + n < 2 ^ k := by
  unfold roomForBytes
  cases s.params.offw <;> simp

theorem roomForBytes_mono {s : State} {m n : Nat} (h : roomForBytes s n = true) (le : m ≤ n) :
    roomForBytes s m = true := by
  rw [roomForBytes_iff] at h ⊢
  intro k hk
  have := h k hk
  omega

/-- Room is about `out_count` and the width alone. -/
theorem roomForBytes_congr {s t : State} {m n : Nat} (p : t.params = s.params)
    (c : t.outCount + m = s.outCount + n) : roomForBytes t m = roomForBytes s n := by
  unfold roomForBytes
  rw [p, c]

theorem roomForBytes_emitted (s : State) (l : List Byte) (n : Nat) :
    roomForBytes (s.emitted l) n = roomForBytes s (l.length + n) :=
  roomForBytes_congr rfl (by simp [Nat.add_assoc])

theorem counterFull_iff (w : Option Nat) (n : Nat) :
    counterFull w n = true ↔ ∃ k, w = some k ∧ n = 2 ^ k - 1 := by
  cases w <;> simp [counterFull]

theorem not_counterFull_of_room {s : State} {n : Nat} (h : roomForBytes s (n + 1) = true) :
    counterFull s.params.offw s.outCount = false := by
  rw [Bool.eq_false_iff]
  intro full
  obtain ⟨k, hk, e⟩ := (counterFull_iff _ _).mp full
  have := (roomForBytes_iff s _).mp h k hk
  omega

/-- R130, with room. -/
theorem emitByte_of_room (v : Byte) {s : State} {n : Nat} (h : roomForBytes s (n + 1) = true) :
    emitByte v s = .go (s.emitted [v]) := by
  simp [emitByte, not_counterFull_of_room h]
  rfl

/-! ### What every emitting operation leaves unchanged -/

/-- `t` is `s` after some bytes have left, with the run-length registers, the phase and the fault code set aside. -/
structure Grew (s t : State) (l : List Byte) : Prop where
  events : t.events = s.events ++ byteEvents l
  outCount : t.outCount = s.outCount + l.length
  inCount : t.inCount = s.inCount
  chunkIdx : t.chunkIdx = s.chunkIdx
  mode : t.mode = s.mode
  bppc : t.bppc = s.bppc
  params : t.params = s.params
  pending : t.pending = s.pending
  resetAt : t.resetAt = s.resetAt
  runAt : t.runAt = s.runAt
  bytesTaken : t.bytesTaken = s.bytesTaken
  offsTaken : t.offsTaken = s.offsTaken

theorem Grew.refl (s : State) : Grew s s [] := by
  constructor <;> simp [byteEvents]

theorem Grew.trans {s t u : State} {l k : List Byte} (a : Grew s t l) (b : Grew t u k) : Grew s u (l ++ k) where
  events := by rw [b.events, a.events]; simp [byteEvents]
  outCount := by rw [b.outCount, a.outCount]; simp [Nat.add_assoc]
  inCount := b.inCount.trans a.inCount
  chunkIdx := b.chunkIdx.trans a.chunkIdx
  mode := b.mode.trans a.mode
  bppc := b.bppc.trans a.bppc
  params := b.params.trans a.params
  pending := b.pending.trans a.pending
  resetAt := b.resetAt.trans a.resetAt
  runAt := b.runAt.trans a.runAt
  bytesTaken := b.bytesTaken.trans a.bytesTaken
  offsTaken := b.offsTaken.trans a.offsTaken

/-- What an operation that emits can do: some bytes leave, and it goes on in the same phase or it stops in `FAULT` with
`OVF`, which a bounded `out_count` alone can raise. -/
def Flow.Emits (s : State) (f : Flow) : Prop :=
  match f with
  | .go t => ∃ l, Grew s t l ∧ t.phase = s.phase ∧ t.faultCode = s.faultCode
  | .stop t => ∃ l, Grew s t l ∧ t.phase = .fault ∧ t.faultCode = .ovf ∧ s.params.offw ≠ none

theorem Flow.Emits.refl (s : State) : Flow.Emits s (.go s) := ⟨[], .refl s, rfl, rfl⟩

theorem Flow.Emits.andThen {s : State} {f : Flow} {k : State → Flow} (a : Flow.Emits s f)
    (b : ∀ t, f = .go t → Flow.Emits t (k t)) : Flow.Emits s (f.andThen k) := by
  cases f with
  | stop t => exact a
  | go t =>
    obtain ⟨l, g, hp, hf⟩ := a
    have kt := b t rfl
    show Flow.Emits s (k t)
    revert kt
    cases k t with
    | go u => exact fun ⟨l', g', hp', hf'⟩ => ⟨l ++ l', g.trans g', hp'.trans hp, hf'.trans hf⟩
    | stop u => exact fun ⟨l', g', hp', hf', ho⟩ => ⟨l ++ l', g.trans g', hp', hf', by rwa [← g.params]⟩

/-- What an emitting step leaves, whether it went on or stopped. -/
theorem Flow.Emits.state {s : State} {f : Flow} (h : Flow.Emits s f) :
    ∃ l, Grew s f.state l ∧
      ((f.state.phase = s.phase ∧ f.state.faultCode = s.faultCode) ∨
        (f.state.phase = .fault ∧ f.state.faultCode = .ovf ∧ s.params.offw ≠ none)) := by
  cases f with
  | go t =>
    obtain ⟨l, g, h⟩ := h
    exact ⟨l, g, .inl h⟩
  | stop t =>
    obtain ⟨l, g, h⟩ := h
    exact ⟨l, g, .inr h⟩

theorem emitByte_emits (v : Byte) (s : State) : Flow.Emits s (emitByte v s) := by
  unfold emitByte
  split
  · rename_i full
    obtain ⟨k, hk, -⟩ := (counterFull_iff _ _).mp full
    exact ⟨[], by constructor <;> simp [byteEvents], rfl, rfl, by simp [hk]⟩
  · exact ⟨[v], by constructor <;> simp [byteEvents], rfl, rfl⟩

/-- A write of run-length registers alone emits nothing. -/
theorem Flow.Emits.setRun (s : State) (b : Bool) (v c : Byte) : Flow.Emits s (.go (s.setRun b v c)) :=
  ⟨[], by constructor <;> simp [byteEvents], rfl, rfl⟩

theorem Flow.Emits.setBitRun (s : State) (b : Bool) (c : Byte) : Flow.Emits s (.go (s.setBitRun b c)) :=
  ⟨[], by constructor <;> simp [byteEvents], rfl, rfl⟩

theorem Flow.Emits.setNibble (s : State) (b : Bool) (h : Nibble) : Flow.Emits s (.go (s.setNibble b h)) :=
  ⟨[], by constructor <;> simp [byteEvents], rfl, rfl⟩

/-! ### Acceptance -/

theorem runCommand_fault {s : State} (h : s.phase = .fault) (legal : Phase → Bool) (body : State → Flow) :
    runCommand legal body s = .next s := by
  simp [runCommand, h]

theorem runCommand_accepted {s : State} {legal : Phase → Bool} (h : s.phase ≠ .fault) (l : legal s.phase = true)
    (body : State → Flow) : runCommand legal body s = .next (body s).state := by
  simp [runCommand, h, l, Flow.answer]

theorem runCommand_proto {s : State} {legal : Phase → Bool} (h : s.phase ≠ .fault) (l : legal s.phase = false)
    (body : State → Flow) : runCommand legal body s = .next (raiseFault .proto s) := by
  simp [runCommand, h, l]

/-- Every command answers a next state. -/
theorem runCommand_next (legal : Phase → Bool) (body : State → Flow) (s : State) :
    ∃ t, runCommand legal body s = .next t := by
  unfold runCommand
  split
  · exact ⟨_, rfl⟩
  · split
    · exact ⟨_, rfl⟩
    · exact ⟨_, rfl⟩

end Sys2Proof.Machine
end

