-- ==== Sys2Proof/Laws/Encoders.lean ====
section
/-! SUPPORT. The two run-length encoders: what each of their operations can do (`Flow.Emits`), and that neither touches the
registers of the other. -/

namespace Sys2Proof.Machine

/-! ### What they can do -/

theorem emitVrWideUnit_emits (c v : Byte) (s : State) : Flow.Emits s (emitVrWideUnit c v s) :=
  (emitByte_emits c s).andThen fun t _ => emitByte_emits v t

theorem emitVrPackedUnit_emits (c v : Nibble) (s : State) : Flow.Emits s (emitVrPackedUnit c v s) :=
  emitByte_emits _ s

theorem emitRun_emits (c v : Byte) (s : State) : Flow.Emits s (emitRun c v s) := by
  unfold emitRun
  split
  · exact emitVrWideUnit_emits c v s
  · exact emitVrPackedUnit_emits _ _ s
  · exact .refl s
  · exact .refl s

theorem vrExtend_emits (q : Byte) (s : State) : Flow.Emits s (vrExtend q s) := by
  unfold vrExtend
  split
  · exact .setRun ..
  · split
    · exact .setRun ..
    · exact (emitRun_emits _ _ s).andThen fun t _ => .setRun ..

theorem vrSaturate_emits (s : State) : Flow.Emits s (vrSaturate s) := by
  unfold vrSaturate
  split
  · exact (emitRun_emits _ _ s).andThen fun t _ => .setRun ..
  · exact .refl s

theorem vrStep_emits (q : Byte) (s : State) : Flow.Emits s (vrStep q s) :=
  (vrExtend_emits q s).andThen fun t _ => vrSaturate_emits t

theorem vrFlush_emits (s : State) : Flow.Emits s (vrFlush s) := by
  refine Flow.Emits.andThen ?_ fun t _ => .setRun ..
  split
  · exact emitRun_emits _ _ s
  · exact .refl s

theorem emitBrWideUnit_emits (c : Byte) (s : State) : Flow.Emits s (emitBrWideUnit c s) := emitByte_emits c s

theorem emitBrPackedByte_emits (hi lo : Nibble) (s : State) : Flow.Emits s (emitBrPackedByte hi lo s) :=
  (emitByte_emits _ s).andThen fun _ _ => .setNibble ..

theorem emitCount_emits (c : Byte) (s : State) : Flow.Emits s (emitCount c s) := by
  unfold emitCount
  split
  · exact emitBrWideUnit_emits c s
  · split
    · exact emitBrPackedByte_emits _ _ s
    · exact .setNibble ..
  · exact .refl s
  · exact .refl s

theorem brStep_emits (b : Bool) (s : State) : Flow.Emits s (brStep b s) := by
  unfold brStep
  split
  · refine Flow.Emits.andThen (Flow.Emits.setBitRun s s.tgt (s.runCnt + 1))
      (k := fun s => if s.runCnt.toNat = s.mode.cap then
        (emitCount s.runCnt s).andThen fun s => .go (s.setBitRun s.tgt 0) else .go s) fun t _ => ?_
    split
    · exact (emitCount_emits _ t).andThen fun u _ => .setBitRun ..
    · exact .refl t
  · exact (emitCount_emits _ s).andThen fun t _ => .setBitRun ..

theorem padNibble_emits (s : State) : Flow.Emits s (padNibble s) := by
  unfold padNibble
  split
  · exact emitBrPackedByte_emits _ _ s
  · exact .refl s

theorem brFlush_emits (s : State) : Flow.Emits s (brFlush s) := by
  refine (Flow.Emits.andThen ?_ fun t _ => padNibble_emits t).andThen fun t _ =>
    (Flow.Emits.setBitRun t false 0).andThen (k := fun u => .go (u.setNibble u.nibValid 0)) fun u _ => .setNibble ..
  split
  · exact .refl s
  · exact emitCount_emits _ s

theorem pixelStep_emits (p : Byte) (s : State) : Flow.Emits s (pixelStep p s) := by
  unfold pixelStep
  split
  · exact vrStep_emits _ s
  · exact brStep_emits _ s

theorem feedPixels_emits (ps : List Byte) (s : State) : Flow.Emits s (feedPixels ps s) := by
  induction ps generalizing s with
  | nil => exact .refl s
  | cons p ps ih => exact (pixelStep_emits p s).andThen fun t _ => ih t

theorem flushChunk_emits (s : State) : Flow.Emits s (flushChunk s) := by
  unfold flushChunk
  split
  · exact vrFlush_emits s
  · exact brFlush_emits s

/-! ### The registers of the other family

A property of the state that survives every part of a step survives the step. -/

theorem Flow.andThen_state {P : State → Prop} {f : Flow} {k : State → Flow} (a : P f.state)
    (b : ∀ t, f = .go t → P t → P (k t).state) : P (f.andThen k).state := by
  cases f with
  | go t => exact b t rfl a
  | stop t => exact a

/-- The registers that the value-run family does not use (R15). -/
def SameBits (s t : State) : Prop := t.tgt = s.tgt ∧ t.nibValid = s.nibValid ∧ t.nibHold = s.nibHold

/-- The registers that the bit-run family does not use (R16). -/
def SameRun (s t : State) : Prop := t.runValid = s.runValid ∧ t.runVal = s.runVal

/-- `EmitByte` writes no run-length register. -/
theorem emitByte_registers (v : Byte) (s : State) :
    SameBits s (emitByte v s).state ∧ SameRun s (emitByte v s).state ∧ (emitByte v s).state.runCnt = s.runCnt := by
  unfold emitByte SameBits SameRun
  split <;> simp

/-- `EmitRun` writes no run-length register (R100). -/
theorem emitRun_registers (c v : Byte) (s : State) :
    SameBits s (emitRun c v s).state ∧ SameRun s (emitRun c v s).state ∧ (emitRun c v s).state.runCnt = s.runCnt := by
  unfold emitRun emitVrWideUnit emitVrPackedUnit
  split
  · refine Flow.andThen_state (P := fun t => SameBits s t ∧ SameRun s t ∧ t.runCnt = s.runCnt)
      (emitByte_registers c s) fun t _ h => ?_
    obtain ⟨⟨a1, a2, a3⟩, ⟨a4, a5⟩, a6⟩ := h
    obtain ⟨⟨b1, b2, b3⟩, ⟨b4, b5⟩, b6⟩ := emitByte_registers v t
    exact ⟨⟨b1.trans a1, b2.trans a2, b3.trans a3⟩, ⟨b4.trans a4, b5.trans a5⟩, b6.trans a6⟩
  · exact emitByte_registers _ s
  · exact ⟨⟨rfl, rfl, rfl⟩, ⟨rfl, rfl⟩, rfl⟩
  · exact ⟨⟨rfl, rfl, rfl⟩, ⟨rfl, rfl⟩, rfl⟩

theorem vrStep_sameBits (q : Byte) (s : State) : SameBits s (vrStep q s).state := by
  refine Flow.andThen_state (P := SameBits s) ?_ fun t _ h => ?_
  · unfold vrExtend
    split
    · exact ⟨rfl, rfl, rfl⟩
    · split
      · exact ⟨rfl, rfl, rfl⟩
      · exact Flow.andThen_state (P := SameBits s) (emitRun_registers _ _ s).1 fun t _ h => h
  · unfold vrSaturate
    split
    · refine Flow.andThen_state (P := SameBits s) ?_ fun u _ h => h
      obtain ⟨b1, b2, b3⟩ := (emitRun_registers t.runCnt t.runVal t).1
      exact ⟨b1.trans h.1, b2.trans h.2.1, b3.trans h.2.2⟩
    · exact h

theorem vrFlush_sameBits (s : State) : SameBits s (vrFlush s).state := by
  refine Flow.andThen_state (P := SameBits s) ?_ fun t _ h => h
  split
  · exact (emitRun_registers _ _ s).1
  · exact ⟨rfl, rfl, rfl⟩

/-- `EmitCount` writes neither family's run; in `BR_WIDE` it writes no run-length register at all (R120). -/
theorem emitCount_registers (c : Byte) (s : State) :
    SameRun s (emitCount c s).state ∧ (emitCount c s).state.tgt = s.tgt ∧ (emitCount c s).state.runCnt = s.runCnt ∧
      (s.mode ≠ .brPacked → SameBits s (emitCount c s).state) := by
  unfold emitCount emitBrWideUnit emitBrPackedByte
  split
  · obtain ⟨a, b, c⟩ := emitByte_registers c s
    exact ⟨b, a.1, c, fun _ => a⟩
  · rename_i m
    split
    · obtain ⟨a, b, c⟩ := emitByte_registers (nibblePair s.nibHold (lowNibble c)) s
      refine Flow.andThen_state (P := fun t => SameRun s t ∧ t.tgt = s.tgt ∧ t.runCnt = s.runCnt ∧
        (s.mode ≠ .brPacked → SameBits s t)) ⟨b, a.1, c, fun n => absurd m n⟩ fun t _ h => ?_
      exact ⟨h.1, h.2.1, h.2.2.1, fun n => absurd m n⟩
    · exact ⟨⟨rfl, rfl⟩, rfl, rfl, fun n => absurd m n⟩
  · exact ⟨⟨rfl, rfl⟩, rfl, rfl, fun _ => ⟨rfl, rfl, rfl⟩⟩
  · exact ⟨⟨rfl, rfl⟩, rfl, rfl, fun _ => ⟨rfl, rfl, rfl⟩⟩

theorem brStep_sameRun (b : Bool) (s : State) : SameRun s (brStep b s).state := by
  unfold brStep
  split
  · dsimp only
    split
    · exact Flow.andThen_state (P := SameRun s) (emitCount_registers _ (s.setBitRun s.tgt (s.runCnt + 1))).1
        fun u _ h => h
    · exact ⟨rfl, rfl⟩
  · exact Flow.andThen_state (P := SameRun s) (emitCount_registers _ s).1 fun t _ h => h

theorem padNibble_sameRun (s : State) : SameRun s (padNibble s).state := by
  unfold padNibble emitBrPackedByte
  split
  · exact Flow.andThen_state (P := SameRun s) (emitByte_registers _ s).2.1 fun t _ h => h
  · exact ⟨rfl, rfl⟩

theorem brFlush_sameRun (s : State) : SameRun s (brFlush s).state := by
  refine Flow.andThen_state (P := SameRun s) (Flow.andThen_state (P := SameRun s) ?_ fun t _ h => ?_) fun t _ h => h
  · split
    · exact ⟨rfl, rfl⟩
    · exact (emitCount_registers _ s).1
  · obtain ⟨a, b⟩ := padNibble_sameRun t
    exact ⟨a.trans h.1, b.trans h.2⟩

end Sys2Proof.Machine
end

