-- ==== Sys2Proof/Laws/Commands.lean ====
section
/-! SUPPORT. What each command can do, case by case, and what a step can do: the inversion lemmas that proofs about steps
cite instead of unfolding them. -/

namespace Sys2Proof.Machine

theorem rejectIllegal_cases {s t : State} (h : rejectIllegal s = .next t) :
    (s.phase = .fault ∧ t = s) ∨ (s.phase ≠ .fault ∧ t = raiseFault .illegal s) := by
  unfold rejectIllegal at h
  split at h
  · exact .inl ⟨‹_›, by cases h; rfl⟩
  · exact .inr ⟨‹_›, by cases h; rfl⟩

theorem runCommand_cases {legal : Phase → Bool} {body : State → Flow} {s t : State}
    (h : runCommand legal body s = .next t) :
    (s.phase = .fault ∧ t = s) ∨
    (s.phase ≠ .fault ∧ legal s.phase = false ∧ t = raiseFault .proto s) ∨
    (s.phase ≠ .fault ∧ legal s.phase = true ∧ t = (body s).state) := by
  unfold runCommand at h
  split at h
  · exact .inl ⟨‹_›, by cases h; rfl⟩
  · split at h
    · exact .inr (.inr ⟨‹_›, ‹_›, by cases h; rfl⟩)
    · exact .inr (.inl ⟨‹_›, by simpa using ‹¬legal s.phase = true›, by cases h; rfl⟩)

theorem execNop_eq (s : State) : execNop s = .next s := by
  unfold execNop runCommand
  split <;> rfl

theorem execCfg_cases {m : Mode} {c : BppCode} {s t : State} (h : execCfg m c s = .next t) :
    (s.phase = .fault ∧ t = s) ∨ (s.phase = .chunk ∧ t = raiseFault .proto s) ∨
    ((s.phase = .unconf ∨ s.phase = .idle) ∧ t = configure m c s) := by
  obtain h | ⟨hf, l, h⟩ | ⟨hf, l, h⟩ := runCommand_cases h
  · exact .inl h
  · exact .inr (.inl ⟨by simpa using l, h⟩)
  · refine .inr (.inr ⟨?_, h⟩)
    revert hf l
    cases s.phase <;> simp

theorem execBegin_cases {s t : State} (h : execBegin s = .next t) :
    (s.phase = .fault ∧ t = s) ∨
    ((s.phase = .unconf ∨ s.phase = .chunk) ∧ t = raiseFault .proto s) ∨
    (s.phase = .idle ∧ counterFull s.params.idxw s.chunkIdx = true ∧ t = raiseFault .ovf s) ∨
    (s.phase = .idle ∧ counterFull s.params.idxw s.chunkIdx = false ∧ t = openChunk s) := by
  obtain h | ⟨hf, l, h⟩ | ⟨-, l, h⟩ := runCommand_cases h
  · exact .inl h
  · refine .inr (.inl ⟨?_, h⟩)
    revert hf l
    cases s.phase <;> simp
  · have p : s.phase = .idle := by simpa using l
    cases full : counterFull s.params.idxw s.chunkIdx with
    | true => exact .inr (.inr (.inl ⟨p, rfl, by simpa [full] using h⟩))
    | false => exact .inr (.inr (.inr ⟨p, rfl, by simpa [full] using h⟩))

theorem execPush_cases {b : Byte} {s t : State} (h : execPush b s = .next t) :
    (s.phase = .fault ∧ t = s) ∨
    ((s.phase = .unconf ∨ s.phase = .idle) ∧ t = raiseFault .proto s) ∨
    (s.phase = .chunk ∧ counterFull s.params.offw s.inCount = true ∧ t = raiseFault .ovf s) ∨
    (s.phase = .chunk ∧ counterFull s.params.offw s.inCount = false ∧
      t = (feedPixels (unpack s.bppc b) (s.setInCount (s.inCount + 1))).state) := by
  obtain h | ⟨hf, l, h⟩ | ⟨-, l, h⟩ := runCommand_cases h
  · exact .inl h
  · refine .inr (.inl ⟨?_, h⟩)
    revert hf l
    cases s.phase <;> simp
  · have p : s.phase = .chunk := by simpa using l
    cases full : counterFull s.params.offw s.inCount with
    | true => exact .inr (.inr (.inl ⟨p, rfl, by simpa [full] using h⟩))
    | false => exact .inr (.inr (.inr ⟨p, rfl, by simpa [full] using h⟩))

theorem execEnd_cases {s t : State} (h : execEnd s = .next t) :
    (s.phase = .fault ∧ t = s) ∨
    ((s.phase = .unconf ∨ s.phase = .idle) ∧ t = raiseFault .proto s) ∨
    (s.phase = .chunk ∧ flushChunk s = .stop t) ∨
    (s.phase = .chunk ∧ ∃ u, flushChunk s = .go u ∧ t = (u.setChunkIdx (u.chunkIdx + 1)).setPhase .idle) := by
  obtain h | ⟨hf, l, h⟩ | ⟨-, l, h⟩ := runCommand_cases h
  · exact .inl h
  · refine .inr (.inl ⟨?_, h⟩)
    revert hf l
    cases s.phase <;> simp
  · have p : s.phase = .chunk := by simpa using l
    cases flush : flushChunk s with
    | stop u => exact .inr (.inr (.inl ⟨p, by simpa [flush] using h.symm⟩))
    | go u => exact .inr (.inr (.inr ⟨p, u, rfl, by simpa [flush] using h⟩))

/-! ### Words and steps -/

/-- A command word decodes to no output row. -/
theorem decodeCommand_isCommand {w : CmdWord} {i : Instr} (h : decodeCommand w = .ok i) : i.isCommand = true := by
  unfold decodeCommand at h
  dsimp only at h
  split at h <;> (try split at h) <;> cases h <;> rfl

/-- What the word of one command can do: the command's own cases, or `ILLEGAL`. -/
theorem stepWord_cases {w : CmdWord} {s t : State} (h : stepWord w s = .next t) :
    rejectIllegal s = .next t ∨ t = s ∨ (∃ m c, decodeCommand w = .ok (.cfg m c) ∧ execCfg m c s = .next t) ∨
    (decodeCommand w = .ok .beginChunk ∧ execBegin s = .next t) ∨
    (∃ b, decodeCommand w = .ok (.push b) ∧ execPush b s = .next t) ∨
    (decodeCommand w = .ok .endChunk ∧ execEnd s = .next t) := by
  unfold stepWord at h
  cases d : decodeCommand w with
  | error e => exact .inl (by simpa [d] using h)
  | ok i =>
    have isc := decodeCommand_isCommand d
    rw [d] at h
    cases i with
    | nop =>
      have e : execNop s = .next t := h
      rw [execNop_eq] at e
      exact .inr (.inl (by cases e; rfl))
    | cfg m c => exact .inr (.inr (.inl ⟨m, c, rfl, h⟩))
    | beginChunk => exact .inr (.inr (.inr (.inl ⟨rfl, h⟩)))
    | push b => exact .inr (.inr (.inr (.inr (.inl ⟨b, rfl, h⟩))))
    | endChunk => exact .inr (.inr (.inr (.inr (.inr ⟨rfl, h⟩))))
    | reservedOp5 arg => exact .inl h
    | reservedOp6 arg => exact .inl h
    | reservedOp7 arg => exact .inl h
    | unitVrWide => cases isc
    | unitVrPacked => cases isc
    | unitBrWide => cases isc
    | byteBrPacked => cases isc
    | offsetRecord => cases isc

theorem step_cases {s t : State} (h : step s = .next t) :
    (s.pending = [] ∧ t = s) ∨
    (∃ w rest, s.pending = .command w :: rest ∧ stepWord w (s.setPending rest) = .next t) ∨
    (∃ rest, s.pending = .reset :: rest ∧ t = resetBlock (s.setPending rest)) ∨
    (∃ rest, s.pending = .takeByte :: rest ∧ t = takeByte (s.setPending rest)) ∨
    (∃ rest, s.pending = .takeOffset :: rest ∧ t = takeOffset (s.setPending rest)) := by
  unfold step at h
  split at h
  · exact .inl ⟨‹_›, by cases h; rfl⟩
  · exact .inr (.inl ⟨_, _, ‹_›, h⟩)
  · exact .inr (.inr (.inl ⟨_, ‹_›, by cases h; rfl⟩))
  · exact .inr (.inr (.inr (.inl ⟨_, ‹_›, by cases h; rfl⟩)))
  · exact .inr (.inr (.inr (.inr ⟨_, ‹_›, by cases h; rfl⟩)))

/-! ### The two channels as lists -/

@[simp] theorem bytesOf_append (l k : List Event) : bytesOf (l ++ k) = bytesOf l ++ bytesOf k := by
  induction l with
  | nil => rfl
  | cons e l ih => cases e <;> simp [bytesOf, ih]

@[simp] theorem recordsOf_append (l k : List Event) : recordsOf (l ++ k) = recordsOf l ++ recordsOf k := by
  induction l with
  | nil => rfl
  | cons e l ih => cases e <;> simp [recordsOf, ih]

@[simp] theorem bytesOf_byteEvents (l : List Byte) : bytesOf (byteEvents l) = l := by
  induction l with
  | nil => rfl
  | cons v l ih => simpa [byteEvents, bytesOf] using ih

@[simp] theorem recordsOf_byteEvents (l : List Byte) : recordsOf (byteEvents l) = [] := by
  induction l with
  | nil => rfl
  | cons v l ih => simpa [byteEvents, recordsOf] using ih

/-- The addresses of a list of events continue where those of its first part end. -/
theorem wellAddressed_append (i n : Nat) (l k : List Event) :
    wellAddressed i n (l ++ k)
      = (wellAddressed i n l && wellAddressed (i + (recordsOf l).length) (n + (bytesOf l).length) k) := by
  induction l generalizing i n with
  | nil => simp [wellAddressed, recordsOf, bytesOf]
  | cons e l ih =>
    cases e with
    | byte v => simp [wellAddressed, recordsOf, bytesOf, ih, Nat.add_assoc, Nat.add_comm 1]
    | off j o => simp [wellAddressed, recordsOf, bytesOf, ih, Nat.add_assoc, Nat.add_comm 1, Bool.and_assoc]

@[simp] theorem wellAddressed_byteEvents (i n : Nat) (l : List Byte) : wellAddressed i n (byteEvents l) = true := by
  induction l generalizing n with
  | nil => rfl
  | cons v l ih => simpa [byteEvents, wellAddressed] using ih (n + 1)

/-- While the run's mark stands within the events, what is added joins the run. -/
theorem runEvents_append {s t : State} (es : List Event) (le : s.runAt ≤ s.events.length)
    (mark : t.runAt = s.runAt) (h : t.events = s.events ++ es) : runEvents t = runEvents s ++ es := by
  unfold runEvents
  rw [mark, h, List.drop_append_of_le_length le]

end Sys2Proof.Machine
end

