-- ==== Sys2Proof/Laws/Decoder.lean ====
section
/-! SUPPORT. What a reference decoder reads (R171, R173, R174): the needed units cover the destination and no fewer do; reading
on past memory that does not cover it is the caller's fault; with one unit behind the needed ones no reading is. -/

namespace Sys2Proof.Machine

theorem length_unitsVRWide : ∀ src : List Byte, (unitsVRWide src).length = src.length / 2
  | [] => rfl
  | [_] => by simp [unitsVRWide]
  | _ :: _ :: rest => by simp only [unitsVRWide, List.length_cons, length_unitsVRWide rest]; omega

/-- The units of a source, behind which less than one unit is left over (R71). -/
theorem lt_bytesOfUnits {m : Mode} {src : List Byte} {n : Nat} (h : (unitCounts m src).length < n) :
    src.length < bytesOfUnits m n := by
  cases m with
  | vrWide =>
    simp only [unitCounts, Mode.isValueRun, unitsVR, if_true, List.length_map, length_unitsVRWide] at h
    simp only [bytesOfUnits, unitBits]
    omega
  | vrPacked =>
    simp only [unitCounts, Mode.isValueRun, unitsVR, unitsVRPacked, if_true, List.length_map] at h
    simp only [bytesOfUnits, unitBits]
    omega
  | brWide =>
    simp only [unitCounts, Mode.isValueRun, countsBR, Bool.false_eq_true, if_false, List.length_map] at h
    simp only [bytesOfUnits, unitBits]
    omega
  | brPacked =>
    have : (unitCounts .brPacked src).length = 2 * src.length := by
      simp [unitCounts, Mode.isValueRun, countsBR, Nat.mul_comm]
    rw [this] at h
    simp only [bytesOfUnits, unitBits]
    omega

/-- R171: the needed units are units of the source, and they cover what the source covers. -/
theorem needUnits_covers (cs : List Nat) (capacity : Nat) (h : capacity ≤ cs.sum) :
    needUnits cs capacity ≤ cs.length ∧ capacity ≤ (cs.take (needUnits cs capacity)).sum := by
  induction cs generalizing capacity with
  | nil => cases capacity <;> simp_all [needUnits]
  | cons c cs ih =>
    cases capacity with
    | zero => simp [needUnits]
    | succ k =>
      rw [List.sum_cons] at h
      obtain ⟨le, cover⟩ := ih (k + 1 - c) (by omega)
      simp only [needUnits, Nat.add_comm 1, List.take_succ_cons, List.sum_cons, List.length_cons]
      omega

/-- R171: no fewer units cover it. -/
theorem sum_take_lt_of_lt_needUnits (cs : List Nat) (capacity n : Nat) (h : n < needUnits cs capacity) :
    (cs.take n).sum < capacity := by
  induction cs generalizing capacity n with
  | nil => cases capacity <;> simp [needUnits] at h
  | cons c cs ih =>
    cases capacity with
    | zero => simp [needUnits] at h
    | succ k =>
      cases n with
      | zero => simp
      | succ n =>
        have := ih (k + 1 - c) n (by simp only [needUnits] at h; omega)
        rw [List.take_succ_cons, List.sum_cons]
        omega

/-- R173: where the memory the caller owns does not fill the destination, every reading is the caller's fault. -/
theorem ifOwned_of_not_covers {α : Type} {m : Mode} {owned : List Byte} {capacity n : Nat} (destination : α)
    (short : coversCapacity m owned capacity = false) (read : mayReadUnits m owned capacity n = true) :
    ifOwned m owned n destination = .error .readPastOwned := by
  have past : (unitCounts m owned).length < n := by simpa [mayReadUnits, short] using read
  exact if_neg (Nat.not_le.mpr (lt_bytesOfUnits past))

theorem bytesOfUnits_mono (m : Mode) {a b : Nat} (h : a ≤ b) : bytesOfUnits m a ≤ bytesOfUnits m b :=
  Nat.div_le_div_right (Nat.add_le_add_right (Nat.mul_le_mul_right _ h) 7)

/-- R174: with one readable unit behind the needed ones, no reading is a fault. -/
theorem ifOwned_of_spare_unit {α : Type} {m : Mode} {owned : List Byte} {capacity n : Nat} (destination : α)
    (cover : coversCapacity m owned capacity = true) (read : mayReadUnits m owned capacity n = true)
    (spare : bytesOfUnits m (needUnits (unitCounts m owned) capacity + 1) ≤ owned.length) :
    ifOwned m owned n destination = .ok destination := by
  have le : n ≤ needUnits (unitCounts m owned) capacity + 1 := by
    simp only [mayReadUnits, cover, if_true, Bool.or_eq_true, beq_iff_eq] at read
    omega
  exact if_pos (Nat.le_trans (bytesOfUnits_mono m le) spare)

end Sys2Proof.Machine
end

