-- ==== Sys2Proof/Laws/Functional.lean ====
section
/-! SUPPORT. The batch algorithms of R92 and R111: their loops without the fuel, and what they give on a stream that begins
with a segment of equal elements. -/

namespace Sys2Proof.Machine

/-! ### The inner loop -/

theorem runLength_le_cap {α : Type} [DecidableEq α] (cap : Nat) (v : α) (s : List α) : runLength cap v s ≤ cap := by
  induction cap generalizing s with
  | zero => simp [runLength]
  | succ n ih =>
    cases s with
    | nil => simp [runLength]
    | cons x xs =>
      unfold runLength
      split
      · exact Nat.succ_le_succ (ih xs)
      · exact Nat.zero_le _

theorem runLength_le_length {α : Type} [DecidableEq α] (cap : Nat) (v : α) (s : List α) :
    runLength cap v s ≤ s.length := by
  induction cap generalizing s with
  | zero => simp [runLength]
  | succ n ih =>
    cases s with
    | nil => simp [runLength]
    | cons x xs =>
      unfold runLength
      split
      · exact Nat.succ_le_succ (ih xs)
      · exact Nat.zero_le _

/-- The inner loop on a segment: it stops at the capacity, or where the segment ends. -/
theorem runLength_replicate {α : Type} [DecidableEq α] (cap c : Nat) (v : α) (xs : List α) (le : c ≤ cap)
    (stop : c = cap ∨ xs.head? ≠ some v) : runLength cap v (List.replicate c v ++ xs) = c := by
  induction c generalizing cap with
  | zero =>
    cases cap with
    | zero => rfl
    | succ n =>
      have stop := stop.resolve_left (by omega)
      cases xs with
      | nil => rfl
      | cons x xs =>
        have : x ≠ v := by simpa using stop
        simp [runLength, this]
  | succ c ih =>
    cases cap with
    | zero => omega
    | succ n => simp [List.replicate_succ, runLength, ih n (by omega) (stop.imp_left (by omega))]

/-! ### Value runs -/

@[simp] theorem vRuns_nil (cap : Nat) : vRuns cap [] = [] := rfl

theorem vRunsLoop_fuel (cap fuel : Nat) (s : List Byte) (h : s.length ≤ fuel) :
    vRunsLoop cap fuel s = vRuns cap s := by
  induction fuel using Nat.strongRecOn generalizing s with
  | _ fuel ih =>
    cases s with
    | nil => cases fuel <;> rfl
    | cons v rest =>
      cases fuel with
      | zero => simp at h
      | succ n =>
        have short : ((v :: rest).drop (1 + runLength (cap - 1) v rest)).length ≤ rest.length := by
          simp
        have hn : rest.length ≤ n := by simpa using h
        simp only [vRunsLoop, vRuns, List.length_cons]
        rw [ih n (by omega) _ (by omega)]
        rcases Nat.lt_or_ge rest.length (n + 1) with hlt | hge
        · rcases Nat.lt_or_ge rest.length n with hl | hg
          · rw [ih rest.length (by omega) _ short]
          · have : rest.length = n := by omega
            rw [this, ih n (by omega) _ (by omega)]
        · omega

/-- One round of R92. -/
theorem vRuns_cons (cap : Nat) (v : Byte) (rest : List Byte) :
    vRuns cap (v :: rest)
      = (1 + runLength (cap - 1) v rest, v) :: vRuns cap ((v :: rest).drop (1 + runLength (cap - 1) v rest)) := by
  conv => lhs; unfold vRuns
  simp only [List.length_cons, vRunsLoop]
  rw [vRunsLoop_fuel _ _ _ (by simp)]

/-- A segment that reaches the capacity, or that another value or the end follows, is one run. -/
theorem vRuns_replicate (cap c : Nat) (v : Byte) (xs : List Byte) (pos : 1 ≤ c) (le : c ≤ cap)
    (stop : c = cap ∨ xs.head? ≠ some v) :
    vRuns cap (List.replicate c v ++ xs) = (c, v) :: vRuns cap xs := by
  obtain ⟨d, rfl⟩ : ∃ d, c = d + 1 := ⟨c - 1, by omega⟩
  have len : 1 + runLength (cap - 1) v (List.replicate d v ++ xs) = d + 1 := by
    rw [runLength_replicate _ _ _ _ (by omega) (stop.imp_left (by omega)), Nat.add_comm]
  rw [List.replicate_succ, List.cons_append, vRuns_cons, len, ← List.cons_append, ← List.replicate_succ,
    List.drop_left' (by simp)]

/-! ### Bit runs -/

@[simp] theorem bCountsFrom_nil (cap : Nat) (t : Bool) : bCountsFrom cap t [] = [] := rfl

/-- How many rounds of R111 a stream can take: a round that consumes nothing is the first of a segment only. -/
def bRounds (t : Bool) : List Bool → Nat
  | [] => 0
  | x :: xs => if x = t then 2 * xs.length + 1 else 2 * xs.length + 2

theorem bRounds_le (t : Bool) (s : List Bool) : bRounds t s ≤ 2 * s.length := by
  cases s with
  | nil => simp [bRounds]
  | cons x xs =>
    simp only [bRounds, List.length_cons]
    split <;> omega

theorem bRounds_round (cap : Nat) (pos : 1 ≤ cap) (t : Bool) (x : Bool) (xs : List Bool) :
    bRounds (if runLength cap t (x :: xs) < cap then !t else t) ((x :: xs).drop (runLength cap t (x :: xs))) + 1
      ≤ bRounds t (x :: xs) := by
  obtain ⟨n, rfl⟩ : ∃ n, cap = n + 1 := ⟨cap - 1, by omega⟩
  by_cases h : x = t
  · have := bRounds_le (if runLength (n + 1) t (x :: xs) < n + 1 then !t else t)
      ((x :: xs).drop (runLength (n + 1) t (x :: xs)))
    have len : ((x :: xs).drop (runLength (n + 1) t (x :: xs))).length ≤ xs.length := by
      simp [runLength, h]
    have : bRounds t (x :: xs) = 2 * xs.length + 1 := by simp [bRounds, h]
    omega
  · have : x = !t := by cases x <;> cases t <;> simp_all
    simp [runLength, bRounds, this]

theorem bCountsLoop_fuel (cap fuel fuel' : Nat) (t : Bool) (s : List Bool) (pos : 1 ≤ cap)
    (h : bRounds t s ≤ fuel) (h' : bRounds t s ≤ fuel') : bCountsLoop cap fuel t s = bCountsLoop cap fuel' t s := by
  induction fuel generalizing fuel' t s with
  | zero =>
    cases s with
    | nil => cases fuel' <;> rfl
    | cons x xs =>
      simp only [bRounds] at h
      split at h <;> omega
  | succ n ih =>
    cases s with
    | nil => cases fuel' <;> rfl
    | cons x xs =>
      cases fuel' with
      | zero =>
        simp only [bRounds] at h'
        split at h' <;> omega
      | succ m =>
        have := bRounds_round cap pos t x xs
        simp only [bCountsLoop]
        rw [ih m _ _ (by omega) (by omega)]

/-- One round of R111. -/
theorem bCountsFrom_cons (cap : Nat) (pos : 1 ≤ cap) (t x : Bool) (xs : List Bool) :
    bCountsFrom cap t (x :: xs)
      = runLength cap t (x :: xs) ::
          bCountsFrom cap (if runLength cap t (x :: xs) < cap then !t else t)
            ((x :: xs).drop (runLength cap t (x :: xs))) := by
  have round := bRounds_round cap pos t x xs
  have le := bRounds_le t (x :: xs)
  conv => lhs; unfold bCountsFrom
  simp only [List.length_cons, Nat.mul_add, bCountsLoop, Nat.reduceMul]
  simp only [List.length_cons] at le
  unfold bCountsFrom
  rw [bCountsLoop_fuel _ _ _ _ _ pos (by omega) (bRounds_le _ _)]

/-- A segment of target bits that reaches the capacity is a full count, and the target stays (R112). -/
theorem bCountsFrom_full (cap : Nat) (pos : 1 ≤ cap) (t : Bool) (xs : List Bool) :
    bCountsFrom cap t (List.replicate cap t ++ xs) = cap :: bCountsFrom cap t xs := by
  obtain ⟨n, hn⟩ : ∃ n, cap = n + 1 := ⟨cap - 1, by omega⟩
  have shape : List.replicate cap t ++ xs = t :: (List.replicate n t ++ xs) := by
    rw [hn, List.replicate_succ, List.cons_append]
  have len := runLength_replicate cap cap t xs (Nat.le_refl _) (.inl rfl)
  rw [shape] at len ⊢
  rw [bCountsFrom_cons cap pos, len, if_neg (Nat.lt_irrefl _), ← shape, List.drop_left' (by simp)]

/-- A shorter segment of target bits before the other bit, an empty one among them, is its count, and the target toggles
(R112, R113). -/
theorem bCountsFrom_change (cap c : Nat) (lt : c < cap) (t : Bool) (xs : List Bool) :
    bCountsFrom cap t (List.replicate c t ++ (!t) :: xs) = c :: bCountsFrom cap (!t) ((!t) :: xs) := by
  have len := runLength_replicate cap c t ((!t) :: xs) (by omega) (.inr (by simp))
  have pos : 1 ≤ cap := by omega
  cases c with
  | zero =>
    simp only [List.replicate_zero, List.nil_append] at len ⊢
    rw [bCountsFrom_cons cap pos t, len, if_pos lt, List.drop_zero]
  | succ d =>
    have shape : List.replicate (d + 1) t ++ (!t) :: xs = t :: (List.replicate d t ++ (!t) :: xs) := by
      rw [List.replicate_succ, List.cons_append]
    rw [shape] at len ⊢
    rw [bCountsFrom_cons cap pos, len, if_pos lt, ← shape, List.drop_left' (by simp)]

/-- The last segment of a stream, shorter than the capacity, is its count. -/
theorem bCountsFrom_last (cap c : Nat) (pos : 1 ≤ c) (lt : c < cap) (t : Bool) :
    bCountsFrom cap t (List.replicate c t) = [c] := by
  obtain ⟨d, rfl⟩ : ∃ d, c = d + 1 := ⟨c - 1, by omega⟩
  have len := runLength_replicate cap (d + 1) t [] (by omega) (.inr (by simp))
  rw [List.append_nil] at len
  rw [List.replicate_succ] at len ⊢
  rw [bCountsFrom_cons cap (by omega), len, if_pos lt, ← List.replicate_succ, List.drop_of_length_le (by simp)]
  rfl

end Sys2Proof.Machine
end

