-- ==== Sys2Proof/Laws/Packing.lean ====
section
/-! SUPPORT. What the two encoders write: a unit with room for it, the packings of a list in pieces, and how counts are
paired in `BR_PACKED` (`Packs`). -/

namespace Sys2Proof.Machine

/-! ### Capacities and counts -/

theorem cap_of_isValueRun {m : Mode} (h : m.isValueRun = true) : 16 ≤ m.cap ∧ m.cap ≤ 255 := by
  cases m <;> simp_all [Mode.isValueRun, Mode.cap]

theorem cap_of_not_isValueRun {m : Mode} (h : m.isValueRun = false) : 15 ≤ m.cap ∧ m.cap ≤ 255 := by
  cases m <;> simp_all [Mode.isValueRun, Mode.cap]

/-- A count below 255 does not wrap (R101, R122). -/
theorem toNat_succ_of_le {c : Byte} {n : Nat} (h : c.toNat ≤ n) (hn : n < 255) : (c + 1).toNat = c.toNat + 1 := by
  have : (c + 1).toNat = (c.toNat + 1) % 256 := by simp [BitVec.toNat_add]
  omega

theorem length_unpack (c : BppCode) (b : Byte) : (unpack c b).length = c.ppb := by simp [unpack]

/-! ### Value runs -/

/-- R100, with room. -/
theorem emitRun_of_room {c v : Byte} {s : State} (hm : s.mode.isValueRun = true)
    (r : roomForBytes s (unitBytesVR s.mode c v).length = true) :
    emitRun c v s = .go (s.emitted (unitBytesVR s.mode c v)) := by
  unfold emitRun
  cases m : s.mode <;> simp [m, Mode.isValueRun] at hm <;> rw [m] at r <;> simp only [unitBytesVR] at r ⊢
  · have r : roomForBytes s 2 = true := r
    rw [emitVrWideUnit, emitByte_of_room c (n := 1) r, Flow.andThen_go,
      emitByte_of_room (n := 0) v (by rw [roomForBytes_emitted]; exact r), ← State.emitted_append]
    rfl
  · rw [emitVrPackedUnit, emitByte_of_room (n := 0) _ r, nibblePair_of_run]

@[simp] theorem packVR_nil (m : Mode) : packVR m [] = [] := by cases m <;> rfl

theorem packVR_append (m : Mode) (a b : List (Nat × Byte)) : packVR m (a ++ b) = packVR m a ++ packVR m b := by
  cases m <;> simp [packVR, packVRWide, packVRPacked]

/-- The packing of a run list begins with the unit of its first run. -/
theorem packVR_cons (m : Mode) (c v : Byte) (runs : List (Nat × Byte)) (pos : 1 ≤ c.toNat) (hm : m.isValueRun = true) :
    packVR m ((c.toNat, v) :: runs) = unitBytesVR m c v ++ packVR m runs := by
  cases m <;> simp [Mode.isValueRun] at hm <;> simp [packVR, packVRWide, packVRPacked, unitBytesVR]
  congr 1
  apply BitVec.eq_of_toNat_eq
  have := c.isLt
  simp only [BitVec.toNat_shiftLeft, BitVec.toNat_ofNat, BitVec.toNat_sub]
  congr 2
  omega

/-! ### Bit runs -/

@[simp] theorem packBR_nil (m : Mode) : packBR m [] = [] := by cases m <;> rfl

theorem packBRPacked_append : ∀ a b : List Nat, a.length % 2 = 0 →
    packBRPacked (a ++ b) = packBRPacked a ++ packBRPacked b
  | [], _, _ => rfl
  | [_], _, h => by simp at h
  | c :: d :: a, b, h => by
    simp only [List.cons_append, packBRPacked]
    rw [packBRPacked_append a b (by simp at h ⊢; omega)]

theorem packBR_append (m : Mode) (a b : List Nat) (h : m = .brPacked → a.length % 2 = 0) :
    packBR m (a ++ b) = packBR m a ++ packBR m b := by
  cases m <;> simp [packBR, packBRWide]
  exact packBRPacked_append a b (h rfl)

/-- R116: `ceil(m / 2)` bytes. -/
theorem length_packBRPacked : ∀ l : List Nat, (packBRPacked l).length = (l.length + 1) / 2
  | [] => rfl
  | [_] => by simp [packBRPacked]
  | _ :: _ :: a => by simp only [packBRPacked, List.length_cons, length_packBRPacked a]; omega

/-- From a nibble register (`v0`, `h0`) to (`v`, `h`), the counts `counts` have gone out as the list `packed`: in `BR_WIDE`
as they are, in `BR_PACKED` in pairs, what is left over being held (R120). -/
structure Packs (m : Mode) (v0 : Bool) (h0 : Nibble) (counts packed : List Nat) (v : Bool) (h : Nibble) : Prop where
  wide : m = .brWide → packed = counts ∧ v = v0 ∧ h = h0
  paired : m = .brPacked →
    (if v0 then [h0.toNat] else []) ++ counts = packed ++ (if v then [h.toNat] else []) ∧ packed.length % 2 = 0

theorem Packs.nil (m : Mode) (v : Bool) (h : Nibble) : Packs m v h [] [] v h where
  wide := fun _ => ⟨rfl, rfl, rfl⟩
  paired := fun _ => by simp

theorem Packs.append {m : Mode} {v0 v1 v2 : Bool} {h0 h1 h2 : Nibble} {a b p q : List Nat}
    (x : Packs m v0 h0 a p v1 h1) (y : Packs m v1 h1 b q v2 h2) : Packs m v0 h0 (a ++ b) (p ++ q) v2 h2 where
  wide := fun e => by
    obtain ⟨rfl, rfl, rfl⟩ := x.wide e
    obtain ⟨rfl, rfl, rfl⟩ := y.wide e
    exact ⟨rfl, rfl, rfl⟩
  paired := fun e => by
    obtain ⟨x1, x2⟩ := x.paired e
    obtain ⟨y1, y2⟩ := y.paired e
    refine ⟨?_, by rw [List.length_append]; omega⟩
    rw [← List.append_assoc, x1, List.append_assoc, y1, List.append_assoc]

/-- R120, with room for whatever one count can complete. -/
theorem emitCount_packs {c : Byte} {s : State} (hm : s.mode.isValueRun = false) (hc : c.toNat ≤ s.mode.cap) :
    ∃ packed v h, Packs s.mode s.nibValid s.nibHold [c.toNat] packed v h ∧
      (roomForBytes s (packBR s.mode packed).length = true →
        emitCount c s = .go { s.emitted (packBR s.mode packed) with nibValid := v, nibHold := h }) := by
  cases m : s.mode <;> simp [m, Mode.isValueRun] at hm
  · refine ⟨[c.toNat], s.nibValid, s.nibHold, ⟨fun _ => ⟨rfl, rfl, rfl⟩, fun h => nomatch h⟩, fun r => ?_⟩
    have : packBR .brWide [c.toNat] = [c] := by simp [packBR, packBRWide]
    rw [this] at r ⊢
    simp only [emitCount, m, emitBrWideUnit]
    rw [emitByte_of_room (n := 0) _ r]
    rfl
  · rw [m, show Mode.brPacked.cap = 15 from rfl] at hc
    have low : (lowNibble c).toNat = c.toNat := by simp [lowNibble]; omega
    cases v : s.nibValid with
    | false =>
      refine ⟨[], true, lowNibble c, ⟨fun h => (nomatch h), fun _ => ⟨by simp [low], rfl⟩⟩, fun _ => ?_⟩
      rw [packBR_nil, State.emitted_nil]
      simp only [emitCount, m, v, Bool.false_eq_true, if_false]
      rw [← m]
      rfl
    | true =>
      refine ⟨[s.nibHold.toNat, c.toNat], false, s.nibHold, ⟨fun h => (nomatch h), fun _ => ⟨by simp, by simp⟩⟩,
        fun r => ?_⟩
      have hold : BitVec.ofNat 8 s.nibHold.toNat = s.nibHold.setWidth 8 := by
        apply BitVec.eq_of_toNat_eq; simp
      simp only [emitCount, m, v, if_true, emitBrPackedByte]
      rw [emitByte_of_room (n := 0) _ r, nibblePair_of_count _ _ hc]
      simp [packBR, packBRPacked, hold]
      rfl

end Sys2Proof.Machine
end

