-- ==== Sys2Proof/Laws/PerInstr.lean ====
section
/-! SUPPORT. Statements about every instruction as syntax, with one lemma per constructor. -/

namespace Sys2Proof.Laws.EncodedLength

open Sys2Proof Sys2Proof.Machine

/-- R60, R66 to R71, R74: a command is one 11-bit word and is never an encoding that R65 rejects before its operation code
is known to be reserved; a unit takes exactly the bits of its mode, two of them in a `BR_PACKED` byte; a record's two
integers fit their widths. -/
def Statement (i : Instr) : Prop :=
  match encode i with
  | .command w => i.isCommand = true ∧ ((opField w).toNat < 5 → illegalWord w = false)
  | .blob m bytes => i.isCommand = false ∧ 8 * bytes.length = (if m = .brPacked then 2 else 1) * unitBits m
  | .record index value =>
    i.isCommand = false ∧ ∀ p : Params, wellFormed p i = true →
      fitsWidth p.idxw index = true ∧ fitsWidth p.offw value = true

theorem nop : Statement .nop := ⟨rfl, fun _ => rfl⟩

theorem cfg (mode : Mode) (bppc : BppCode) : Statement (.cfg mode bppc) := by
  cases mode <;> cases bppc <;> exact ⟨rfl, fun _ => rfl⟩

theorem beginChunk : Statement .beginChunk := ⟨rfl, fun _ => rfl⟩

theorem push (b : Byte) : Statement (.push b) := by
  simp [Statement, encode, Instr.isCommand, illegalWord]

theorem endChunk : Statement .endChunk := ⟨rfl, fun _ => rfl⟩

theorem reservedOp5 (arg : Byte) : Statement (.reservedOp5 arg) := by
  simp [Statement, encode, Instr.isCommand]

theorem reservedOp6 (arg : Byte) : Statement (.reservedOp6 arg) := by
  simp [Statement, encode, Instr.isCommand]

theorem reservedOp7 (arg : Byte) : Statement (.reservedOp7 arg) := by
  simp [Statement, encode, Instr.isCommand]

theorem unitVrWide (count value : Byte) : Statement (.unitVrWide count value) := ⟨rfl, rfl⟩

theorem unitVrPacked (countM1 value : Nibble) : Statement (.unitVrPacked countM1 value) := ⟨rfl, rfl⟩

theorem unitBrWide (count : Byte) : Statement (.unitBrWide count) := ⟨rfl, rfl⟩

theorem byteBrPacked (countHi countLo : Nibble) : Statement (.byteBrPacked countHi countLo) := ⟨rfl, rfl⟩

theorem offsetRecord (index value : Nat) : Statement (.offsetRecord index value) :=
  ⟨rfl, fun _ h => by simpa [wellFormed] using h⟩

end Sys2Proof.Laws.EncodedLength
end

