-- ==== Sys2Proof/Tests/Slice0.lean ====
section
/-! SUPPORT. Tests. Expected results are the spec's: the encodings of spec/30_encoding.md, and the vectors of
spec/95_test_vectors.md by their ids (S, V, B, T, W, F, P). Then one witness for every statement that has hypotheses. -/

namespace Sys2Proof.Tests

open Sys2Proof Sys2Proof.Machine

/-! ### Well-formedness: one ill-formed term for each check, and the last value that passes it -/

theorem test_wellFormed_zero_count :
    wellFormed .suggested (.unitVrWide 0 7) = false ∧ wellFormed .suggested (.unitVrWide 1 7) = true := by decide

theorem test_wellFormed_index :
    wellFormed ⟨some 8, some 4⟩ (.offsetRecord 16 0) = false ∧ wellFormed ⟨some 8, some 4⟩ (.offsetRecord 15 0) = true := by
  decide

theorem test_wellFormed_value :
    wellFormed ⟨some 8, some 4⟩ (.offsetRecord 0 256) = false ∧
    wellFormed ⟨some 8, some 4⟩ (.offsetRecord 0 255) = true ∧ wellFormed ⟨none, none⟩ (.offsetRecord 9 256) = true := by
  decide

theorem test_params_positive :
    Params.suggested.positive = true ∧ Params.positive ⟨none, some 0⟩ = false ∧ Params.positive ⟨some 0, none⟩ = false := by
  decide

/-! ### Decoding: words and bytes written out from R60 to R69 -/

theorem test_decode_nop : decodeCommand 0b000_00000000#11 = .ok .nop := by decide

theorem test_decode_cfg :
    decodeCommand 0b001_0000_11_00#11 = .ok (.cfg .vrWide .bpp8) ∧
    decodeCommand 0b001_0000_00_11#11 = .ok (.cfg .brPacked .bpp1) ∧
    decodeCommand 0b001_0000_01_10#11 = .ok (.cfg .brWide .bpp2) ∧
    decodeCommand 0b001_0000_10_01#11 = .ok (.cfg .vrPacked .bpp4) := by decide

theorem test_decode_begin : decodeCommand 0b010_00000000#11 = .ok .beginChunk := by decide

theorem test_decode_push : decodeCommand 0b011_10100111#11 = .ok (.push 0xA7) := by decide

theorem test_decode_end : decodeCommand 0b100_00000000#11 = .ok .endChunk := by decide

theorem test_decode_reserved :
    decodeCommand 0b101_00000001#11 = .ok (.reservedOp5 1) ∧ decodeCommand 0b110_10000000#11 = .ok (.reservedOp6 0x80) ∧
    decodeCommand 0b111_11111111#11 = .ok (.reservedOp7 0xFF) := by decide

theorem test_decode_units :
    decode (.blob .vrWide [0b00000010, 0b01100110]) = .ok (.unitVrWide 2 0x66) ∧
    decode (.blob .vrPacked [0b1110_0101]) = .ok (.unitVrPacked 14 5) ∧
    decode (.blob .brWide [0b00001000]) = .ok (.unitBrWide 8) ∧
    decode (.blob .brPacked [0b0011_0010]) = .ok (.byteBrPacked 3 2) ∧
    decode (.record 1 2) = .ok (.offsetRecord 1 2) := by decide

/-- F7 to F9, and `END` with an operand (R65). -/
theorem test_decode_illegal :
    decodeCommand 0x001 = .error .nopArgNotZero ∧ decodeCommand 0x110 = .error .cfgReservedBits ∧
    decodeCommand 0x201 = .error .beginArgNotZero ∧ decodeCommand 0x4FF = .error .endArgNotZero := by decide

theorem test_decode_no_unit :
    decodeUnit .vrWide [0, 7] = .error .zeroCount ∧ decodeUnit .vrWide [7] = .error .notOneUnit ∧
    decodeUnit .vrPacked [7, 7] = .error .notOneUnit ∧ decodeUnit .brPacked [] = .error .notOneUnit := by decide

theorem test_decodeTableWord :
    decodeTableWord 16 0x10D = some (.cfg .vrPacked .bpp8) ∧ decodeTableWord 11 0x3A7 = some (.push 0xA7) ∧
    decodeTableWord 16 0x001 = none ∧ decodeTableWord 16 0x800 = none ∧ decodeTableWord 8 0xF5 = none := by decide

theorem test_encode :
    encode (.cfg .vrWide .bpp8) = .command 0x10C ∧ encode (.cfg .brPacked .bpp1) = .command 0x103 ∧
    encode (.push 0x3C) = .command 0x33C ∧ encode .endChunk = .command 0x400 ∧
    encode (.unitVrPacked 15 5) = .blob .vrPacked [0xF5] ∧ encode (.byteBrPacked 3 2) = .blob .brPacked [0x32] := by decide

/-- Every row of R61 matches a word that decodes to its mnemonic. -/
theorem test_rows_match :
    commandRows.all (fun r => match decodeCommand r.pattern with
      | .ok i => i.mnemonic == r.mnemonic
      | .error _ => false) = true := by decide

/-- R72: the words beside the lines of P1 and P2. -/
theorem test_lines :
    (Line.cfg .vrWide .bpp8).inputs = [.command 0x10C] ∧ (Line.push 0x7E).inputs = [.command 0x37E] ∧
    (Line.chunk [0xA7]).inputs = [.command 0x200, .command 0x3A7, .command 0x400] := by decide

theorem test_line_text :
    (Line.cfg .brPacked .bpp1).text = "CFG BR_PACKED, 1" ∧ (Line.push 0xA7).text = "PUSH 0xA7" ∧
    (Line.chunk [0xA7, 0x05]).text = "CHUNK [0xA7, 0x05]" := by decide

/-! ### One step of each instruction -/

/-- The state an outcome answers. -/
def nextOf : Host.Outcome State Fault Refusal → Option State
  | .next s => some s
  | .fault _ => none
  | .refused _ => none

/-- `IDLE` after a `CFG` from reset. -/
def ready (m : Mode) (c : BppCode) : State := { State.reset with phase := .idle, mode := m, bppc := c }

/-- The first chunk open. -/
def opened (m : Mode) (c : BppCode) : State := { ready m c with phase := .chunk, events := [.off 0 0] }

/-- A value run in progress in the first chunk. -/
def running (m : Mode) (c : BppCode) (val cnt : Byte) : State := (opened m c).setRun true val cnt

/-- A bit run in progress in the first chunk. -/
def counting (m : Mode) (c : BppCode) (t : Bool) (cnt : Byte) (valid : Bool) (hold : Nibble) : State :=
  ((opened m c).setBitRun t cnt).setNibble valid hold

theorem test_nop_in_fault : exec .nop (raiseFault .ovf State.reset) = .next (raiseFault .ovf State.reset) := rfl

/-- P1, line 1. -/
theorem test_cfg :
    (nextOf (exec (.cfg .vrWide .bpp8) State.reset)).map (fun t => (t.phase.code, t.mode.code, t.bppc.code, t.events))
      = some (1, 0, 3, []) := by decide

/-- F4. -/
theorem test_cfg_in_chunk :
    (nextOf (exec (.cfg .vrWide .bpp8) (opened .vrWide .bpp8))).map (fun t => (t.phase, t.faultCode, trace t))
      = some (.fault, .proto, [.off 0 0]) := by decide

/-- P2, the second `BEGIN`. -/
theorem test_begin :
    (nextOf (exec .beginChunk { ready .brPacked .bpp1 with chunkIdx := 1, outCount := 2 })).map
      (fun t => (t.phase, trace t)) = some (.chunk, [.off 1 2]) := by decide

/-- F13. -/
theorem test_begin_last_index :
    (nextOf (exec .beginChunk { ready .vrWide .bpp8 with params := ⟨none, some 1⟩, chunkIdx := 1 })).map
      (fun t => (t.phase, t.faultCode, trace t)) = some (.fault, .ovf, []) := by decide

/-- P4: two pixels from one byte. -/
theorem test_push_two_pixels :
    (nextOf (exec (.push 0xA7) (opened .vrWide .bpp4))).map (fun t => (blob t, t.runVal, t.runCnt, t.inCount))
      = some ([0x01, 0x0A], 7, 1, 1) := by decide

/-- P2: the first `PUSH` holds the count 0 and counts on. -/
theorem test_push_bits :
    (nextOf (exec (.push 0xFF) (opened .brPacked .bpp1))).map
      (fun t => (blob t, t.tgt, t.runCnt, t.nibValid, t.nibHold)) = some ([], true, 8, true, 0) := by decide

/-- P1, the last line. -/
theorem test_end :
    (nextOf (exec .endChunk (running .vrWide .bpp8 0 2))).map
      (fun t => (t.phase, blob t, t.runValid, t.runCnt, t.chunkIdx)) = some (.idle, [0x02, 0x00], false, 0, 1) := by decide

/-- T17. -/
theorem test_end_packed :
    (nextOf (exec .endChunk (counting .brPacked .bpp1 false 8 true 8))).map
      (fun t => (blob t, t.runCnt, t.nibValid, t.nibHold)) = some ([0x88], 0, false, 0) := by decide

/-- F6. -/
theorem test_reserved :
    (nextOf (exec (.reservedOp5 0) State.reset)).map (·.faultCode) = some .illegal ∧
    (nextOf (exec (.reservedOp6 0) State.reset)).map (·.faultCode) = some .illegal ∧
    (nextOf (exec (.reservedOp7 0xFF) State.reset)).map (·.phase) = some .fault := by decide

/-- The formats of T3, T6, T14 and T16, and the record of P2. -/
theorem test_output_rows :
    (nextOf (exec (.unitVrWide 2 0x66) (opened .vrWide .bpp8))).map blob = some [0x02, 0x66] ∧
    (nextOf (exec (.unitVrPacked 15 5) (opened .vrPacked .bpp8))).map blob = some [0xF5] ∧
    (nextOf (exec (.unitBrWide 8) (opened .brWide .bpp8))).map blob = some [0x08] ∧
    (nextOf (exec (.byteBrPacked 15 0) (opened .brPacked .bpp8))).map blob = some [0xF0] ∧
    (nextOf (exec (.offsetRecord 1 2) (ready .brPacked .bpp1))).map offsetTable = some [2] := by decide

/-- F1, as the first step after reset. -/
theorem test_step_push_before_cfg :
    (nextOf (step (State.reset.withFetchWord 16 0x3A7))).map (fun t => (t.phase, t.faultCode, trace t))
      = some (.fault, .proto, []) := by decide

/-- F10: an illegal word is `ILLEGAL` also where its command would be `PROTO`. -/
theorem test_step_illegal_first :
    (nextOf (step (State.reset.withFetchWord 16 0x201))).map (·.faultCode) = some .illegal := by decide

/-- F11. -/
theorem test_step_ignored_in_fault :
    (nextOf (step ((raiseFault .proto State.reset).withFetchWord 16 0x500))).map (·.faultCode) = some .proto := by decide

/-- F12, its last step. -/
theorem test_push_overflow :
    (nextOf (exec (.push 3) { (running .vrWide .bpp8 2 1).emitted [1, 1] with
        params := ⟨some 2, none⟩, inCount := 2 })).map
      (fun t => (t.faultCode, blob t, t.inCount, t.runVal)) = some (.ovf, [1, 1, 1], 3, 2) := by decide

/-- F14, its last step. -/
theorem test_push_in_count_full :
    (nextOf (exec (.push 7) { running .vrWide .bpp8 7 3 with params := ⟨some 2, none⟩, inCount := 3 })).map
      (fun t => (t.faultCode, blob t, t.runCnt)) = some (.ovf, [], 3) := by decide

/-- F15. -/
theorem test_step_reset :
    (nextOf (step { raiseFault .ovf (running .brPacked .bpp8 7 3) with pending := [.reset] })).map readStatus
      = some ⟨0, 0, 0, 0, 0, 0, 0, 0, 0, 0, 0, 0, 0⟩ := by decide

theorem test_step_take :
    (nextOf (step { (opened .vrWide .bpp8).emitted [1, 7] with pending := [.takeByte] })).map blobChannel = some [7] ∧
    (nextOf (step { opened .vrWide .bpp8 with pending := [.takeOffset] })).map offsetChannel = some [] := by decide

/-! ### The steps of one pixel -/

/-- T4 and T7. -/
theorem test_vrStep :
    (vrStep 7 (running .vrWide .bpp8 7 254)).state = { (running .vrWide .bpp8 7 0).emitted [0xFF, 7] with runValid := false } ∧
    (vrStep 6 (running .vrPacked .bpp8 5 15)).state = (running .vrPacked .bpp8 6 1).emitted [0xE5] := by decide

/-- T11 and T16. -/
theorem test_brStep :
    (brStep false (counting .brWide .bpp8 false 254 false 0)).state = (counting .brWide .bpp8 false 0 false 0).emitted [0xFF] ∧
    (brStep true (counting .brPacked .bpp8 false 0 true 15)).state
      = (counting .brPacked .bpp8 true 1 false 15).emitted [0xF0] := by decide

/-- T19. -/
theorem test_brFlush_pad :
    (brFlush (counting .brPacked .bpp8 false 0 true 15)).state = (opened .brPacked .bpp8).emitted [0xF0] := by decide

/-! ### Functional definitions and the reference decoder -/

/-- S3, B15 and B21. -/
theorem test_encodeChunk :
    encodeChunk .vrPacked .bpp4 (List.replicate 8 0x55 ++ [0x5A]) = [0xF5, 0x05, 0x0A] ∧
    encodeChunk .brPacked .bpp8 (List.replicate 15 0x00 ++ [0x01]) = [0xF0, 0x10] ∧
    encodeChunk .brPacked .bpp1 [0x18] = [0x32, 0x30] := by decide

/-- W3. -/
theorem test_encodeRun :
    encodeRun .brPacked .bpp1 [[0xFF, 0x00], [0x00, 0x01]] = ⟨[0x08, 0x80, 0xF0, 0x10], [0, 2], 4, 4⟩ := by decide

/-- W2 and W3 (R138). -/
theorem test_ratio : ratio 10 14 = -40 ∧ ratio 4 4 = 0 ∧ ratio 0 0 = 0 := by
  refine ⟨?_, ?_, ?_⟩ <;> norm_num [ratio]

/-- §2.8, lines 3, 4 and 7. -/
theorem test_decVR :
    decVR .vrWide [5, 0x66] 3 = [0x66, 0x66, 0x66] ∧ decVR .vrWide [0, 0x99, 2, 0x66] 2 = [0x66, 0x66] ∧
    decVR .vrPacked [0xF5, 0x05, 0x0A] 16 = List.replicate 16 5 := ⟨rfl, rfl, rfl⟩

/-- §2.8, lines 10, 11 and 12. -/
theorem test_decBR :
    packBits (decBRBits 15 (countsBR .brPacked [0x08, 0x80]) 16) = [0xFF, 0x00] ∧
    packBits (decBRBits 15 [15, 0, 1] 16) = [0x00, 0x01] ∧ packBits (decBRBits 15 [15, 1] 16) = [0x00, 0x00] :=
  ⟨rfl, rfl, rfl⟩

/-- §2.8, line 2: one pair is needed and one more may be read. Two pixels more than the memory holds: the decoder reads on past
it, which is its caller's fault (R173), and a further chunk's bytes do not become definite pixels (U1). -/
theorem test_reads :
    mayReadUnits .vrWide [2, 0x66, 1, 0x7E] 2 1 = true ∧ mayReadUnits .vrWide [2, 0x66, 1, 0x7E] 2 2 = true ∧
    mayReadUnits .vrWide [2, 0x66, 1, 0x7E] 2 3 = false ∧ mayReadUnits .vrWide [2, 0x66] 4 1 = false ∧
    mayReadUnits .vrWide [2, 0x66] 4 2 = true ∧ callerDecodeVR .vrWide [2, 0x66] [] 4 2 = .error .readPastOwned ∧
    callerDecodeVR .vrWide [2, 0x66] [9, 7] 3 2 = .ok [0x66, 0x66, Config.uncoveredPixel 2] :=
  ⟨by decide, by decide, by decide, by decide, by decide, rfl, rfl⟩

/-- F12's last `PUSH` in the block alone: one byte leaves, and the registers hold no trace of it but `out_count`. -/
theorem test_block_alone :
    (Block.step ⟨some 2, none⟩ 0x303 { (running .vrWide .bpp8 2 1).toBlock with outCount := 2, inCount := 2 }).2
      = [.byte 1] := by decide

/-! ### Witnesses: states and operands that meet the hypotheses of a statement, all of them together

One theorem for each statement that has hypotheses; a statement with several clauses has one conjunct for each. -/

theorem test_reset_inv : BlockInv State.reset where
  faultCode := by decide
  unconf := fun _ => ⟨rfl, rfl, rfl, rfl, rfl, rfl, rfl, rfl, rfl⟩
  idle := fun h => nomatch h
  valueRun := by simp [State.reset]
  bitRun := by simp [State.reset]
  ranges := by decide
  openIndex := by decide
  outCount := rfl
  records := by decide
  addressed := rfl
  marks := by decide
  taken := by decide

/-- Which inputs are still to come is no matter of the invariant. -/
theorem test_inv_pending {s : State} (h : BlockInv s) (l : List Input) : BlockInv (s.setPending l) where
  faultCode := h.faultCode
  unconf := h.unconf
  idle := h.idle
  valueRun := fun a b => let v := h.valueRun a b; ⟨v.1, v.2, v.3, v.4⟩
  bitRun := fun a b => let v := h.bitRun a b; ⟨v.1, v.2, v.3⟩
  ranges := h.ranges
  openIndex := h.openIndex
  outCount := h.outCount
  records := h.records
  addressed := h.addressed
  marks := h.marks
  taken := h.taken

theorem test_ready_inv : BlockInv (ready .vrWide .bpp8) where
  faultCode := by decide
  unconf := fun h => nomatch h
  idle := fun _ => ⟨rfl, rfl, rfl, rfl, rfl, rfl⟩
  valueRun := fun h => nomatch h
  bitRun := fun h => nomatch h
  ranges := by decide
  openIndex := by decide
  outCount := rfl
  records := by decide
  addressed := rfl
  marks := by decide
  taken := by decide

/-- T4's run, one short of the capacity. -/
theorem test_running_inv : BlockInv (running .vrWide .bpp8 7 254) where
  faultCode := by decide
  unconf := fun h => nomatch h
  idle := fun h => nomatch h
  valueRun := fun _ _ => ⟨by decide, by decide, by decide, by decide⟩
  bitRun := fun _ h => nomatch h
  ranges := by decide
  openIndex := by decide
  outCount := rfl
  records := by decide
  addressed := rfl
  marks := by decide
  taken := by decide

/-- T16's count, with another one held. -/
theorem test_counting_inv : BlockInv (counting .brPacked .bpp8 false 14 true 15) where
  faultCode := by decide
  unconf := fun h => nomatch h
  idle := fun h => nomatch h
  valueRun := fun _ h => nomatch h
  bitRun := fun _ _ => ⟨by decide, by decide, by decide⟩
  ranges := by decide
  openIndex := by decide
  outCount := rfl
  records := by decide
  addressed := rfl
  marks := by decide
  taken := by decide

theorem test_faulted_inv : BlockInv (raiseFault .ovf (running .vrWide .bpp8 7 254)) where
  faultCode := by decide
  unconf := fun h => nomatch h
  idle := fun h => nomatch h
  valueRun := fun h => nomatch h
  bitRun := fun h => nomatch h
  ranges := by decide
  openIndex := by decide
  outCount := rfl
  records := by decide
  addressed := rfl
  marks := by decide
  taken := by decide

theorem test_witness_EncodedInstructionsDecodeBack :
    wellFormed .suggested (.unitVrWide 255 0) = true ∧ wellFormed .suggested (.cfg .brPacked .bpp8) = true ∧
    wellFormed .suggested (.offsetRecord 65535 4294967295) = true := by decide

theorem test_witness_DecodedWordsAndUnitsEncodeBack :
    decodeCommand 0x10F = .ok (.cfg .brPacked .bpp8) ∧ decodeUnit .brPacked [0xFF] = .ok (.byteBrPacked 15 15) := by decide

theorem test_witness_CommandRowsAreMatchAndMask :
    (⟨"CFG", 0x100, 0x7F0⟩ : CommandRow) ∈ commandRows ∧ 0x10F#11 &&& 0x7F0 = 0x100 := by decide

theorem test_witness_IllegalWordsFaultAndTheRestDoNot :
    illegalWord 0x4FF = true ∧ illegalWord 0x10F = false := by decide

theorem test_witness_StepRunsTheDecodedCommand :
    (State.reset.withFetchWord 16 0x10C).pending = .command 0x10C :: [] ∧
    decodeCommand 0x10C = .ok (.cfg .vrWide .bpp8) := by decide

theorem test_witness_IllegalWordHasNoOtherEffect :
    ((opened .vrWide .bpp8).withFetchWord 16 0x110).pending = .command 0x110 :: [] ∧
    (opened .vrWide .bpp8).phase ≠ .fault ∧ (opField 0x110).toNat = 1 ∧ cfgZeroField (argField 0x110) ≠ 0 ∧
    (opField 0x201).toNat ∈ [0, 2, 4] ∧ argField 0x201 ≠ 0 ∧ (opField 0x7FF).toNat ∈ [5, 6, 7] := by decide

theorem test_witness_FaultPhaseIgnoresEveryWord :
    ((raiseFault .proto State.reset).withFetchWord 16 0x10C).pending = .command 0x10C :: [] ∧
    ((raiseFault .proto State.reset).withFetchWord 16 0x10C).phase = .fault := by decide

theorem test_witness_EveryStepAnswersANextState : State.reset.pending = [] := rfl

theorem test_witness_ResetEventSetsEveryRegister :
    ((running .vrWide .bpp8 7 254).setPending [.reset]).pending = .reset :: [] := rfl

theorem test_witness_TakingAnEventChangesNoRegister :
    ((running .vrWide .bpp8 7 254).setPending [.takeByte]).pending = .takeByte :: [] ∧
    ((opened .vrWide .bpp8).setPending [.takeOffset]).pending = .takeOffset :: [] := ⟨rfl, rfl⟩

theorem test_witness_NopHasNoEffect : (1 : Byte) ≠ 0 ∧ State.reset.phase ≠ .fault := by decide

theorem test_witness_CfgStartsACompressionRun :
    State.reset.phase = .unconf ∧ (ready .brWide .bpp1).phase = .idle ∧ (opened .brWide .bpp1).phase = .chunk ∧
    cfgZeroField 0x10 ≠ 0 ∧ (opened .brWide .bpp1).phase ≠ .fault := by decide

theorem test_witness_BeginOpensAChunk :
    ((ready .vrWide .bpp8).phase = .idle ∧
      ∀ k, (ready .vrWide .bpp8).params.idxw = some k → (ready .vrWide .bpp8).chunkIdx ≠ 2 ^ k - 1) ∧
    ({ ready .vrWide .bpp8 with chunkIdx := 65535 }.phase = .idle ∧
      { ready .vrWide .bpp8 with chunkIdx := 65535 }.params.idxw = some 16 ∧
      { ready .vrWide .bpp8 with chunkIdx := 65535 }.chunkIdx = 2 ^ 16 - 1) ∧
    (State.reset.phase = .unconf ∧ (opened .vrWide .bpp8).phase = .chunk) ∧
    ((1 : Byte) ≠ 0 ∧ State.reset.phase ≠ .fault) := by
  refine ⟨⟨rfl, ?_⟩, by decide, by decide, by decide⟩
  intro k h
  cases h
  decide

theorem test_witness_PushContinuesTheRunList :
    (running .vrWide .bpp8 7 254).phase = .chunk ∧ (running .vrWide .bpp8 7 254).mode.isValueRun = true ∧
    ValueRunInv (running .vrWide .bpp8 7 254) ∧
    counterFull (running .vrWide .bpp8 7 254).params.offw (running .vrWide .bpp8 7 254).inCount = false ∧
    roomForBytes (running .vrWide .bpp8 7 254) (maxPushBytes .vrWide .bpp8) = true :=
  ⟨rfl, rfl, test_running_inv.valueRun rfl rfl, by decide, by decide⟩

theorem test_witness_PushContinuesTheCountList :
    (counting .brPacked .bpp8 false 14 true 15).phase = .chunk ∧
    (counting .brPacked .bpp8 false 14 true 15).mode.isValueRun = false ∧
    BitRunInv (counting .brPacked .bpp8 false 14 true 15) ∧
    counterFull (counting .brPacked .bpp8 false 14 true 15).params.offw 0 = false ∧
    roomForBytes (counting .brPacked .bpp8 false 14 true 15) (maxPushBytes .brPacked .bpp8) = true :=
  ⟨rfl, rfl, test_counting_inv.bitRun rfl rfl, by decide, by decide⟩

theorem test_witness_EndFlushesTheValueRun :
    (running .vrWide .bpp8 7 254).phase = .chunk ∧ (running .vrWide .bpp8 7 254).mode.isValueRun = true ∧
    roomForBytes (running .vrWide .bpp8 7 254) (maxEndBytes .vrWide) = true := by decide

theorem test_witness_EndFlushesTheBitRun :
    ((counting .brWide .bpp8 true 254 false 0).phase = .chunk ∧
      (counting .brWide .bpp8 true 254 false 0).mode = .brWide ∧
      roomForBytes (counting .brWide .bpp8 true 254 false 0) (maxEndBytes .brWide) = true) ∧
    ((counting .brPacked .bpp8 false 15 true 15).phase = .chunk ∧
      (counting .brPacked .bpp8 false 15 true 15).mode = .brPacked ∧
      (counting .brPacked .bpp8 false 15 true 15).runCnt.toNat ≤ 15 ∧
      roomForBytes (counting .brPacked .bpp8 false 15 true 15) (maxEndBytes .brPacked) = true) := by decide

theorem test_witness_OutOfPhaseCommandsRaiseProto :
    State.reset.phase = .unconf ∧ (ready .vrWide .bpp8).phase = .idle ∧ (opened .vrWide .bpp8).phase = .chunk := by decide

theorem test_witness_PhaseMachine :
    stepWord 0x10C State.reset = .next (configure .vrWide .bpp8 State.reset) ∧
    (raiseFault .ovf State.reset).phase = .fault ∧ State.reset.phase ≠ .fault ∧
    decodeCommand 0x201 = .error .beginArgNotZero ∧ decodeCommand 0x10C = .ok (.cfg .vrWide .bpp8) ∧
    (State.reset.setPending [.reset]).pending = .reset :: [] ∧
    step (State.reset.setPending [.reset]) = .next State.reset := ⟨rfl, rfl, by decide, rfl, rfl, rfl, rfl⟩

theorem test_witness_ReservedOpsRaiseIllegal : State.reset.phase ≠ .fault := by decide

theorem test_witness_OutputRowsEmitTheirFormat :
    (ready .vrWide .bpp8).phase = .idle ∧
    ((opened .vrWide .bpp8).phase = .chunk ∧ (opened .vrWide .bpp8).mode = .vrWide ∧
      roomForBytes (opened .vrWide .bpp8) 2 = true) ∧
    ((opened .vrPacked .bpp8).mode = .vrPacked ∧ roomForBytes (opened .vrPacked .bpp8) 1 = true) ∧
    ((opened .brWide .bpp8).mode = .brWide ∧ roomForBytes (opened .brWide .bpp8) 1 = true) ∧
    ((opened .brPacked .bpp8).mode = .brPacked ∧ roomForBytes (opened .brPacked .bpp8) 1 = true) := by decide

theorem test_witness_EmitByteAppendsOrOverflows :
    (State.reset.setOutCount 4294967295).params.offw = some 32 ∧
    (State.reset.setOutCount 4294967295).outCount = 2 ^ 32 - 1 ∧
    ∀ k, State.reset.params.offw = some k → State.reset.outCount ≠ 2 ^ k - 1 := by
  refine ⟨rfl, rfl, ?_⟩
  intro k h
  cases h
  decide

theorem test_witness_UnpackTakesTheMostSignificantPixelFirst :
    7 < BppCode.bpp1.ppb ∧ 0 < BppCode.bpp8.ppb ∧ 1 ∈ unpack .bpp1 0x01 := by decide

theorem test_witness_UnpackChunkKeepsTheOrder : 7 < BppCode.bpp1.ppb := by decide

theorem test_witness_PixelPreparation : BppCode.bpp4 ≠ .bpp8 ∧ (15 : Byte).toNat < 2 ^ BppCode.bpp4.bpp := by decide

theorem test_witness_ValueRunPixelCases :
    ((opened .vrWide .bpp8).mode.isValueRun = true ∧ roomForBytes (opened .vrWide .bpp8) 2 = true ∧
      (opened .vrWide .bpp8).runValid = false) ∧
    ((running .vrWide .bpp8 7 253).runValid = true ∧ 7 = (running .vrWide .bpp8 7 253).runVal ∧
      (running .vrWide .bpp8 7 253).runCnt.toNat + 1 < Mode.vrWide.cap) ∧
    (running .vrWide .bpp8 7 254).runCnt.toNat + 1 = Mode.vrWide.cap ∧
    (6 : Byte) ≠ (running .vrWide .bpp8 7 254).runVal ∧ roomForBytes (running .vrWide .bpp8 7 254) 2 = true := by decide

theorem test_witness_CountsArePacked :
    roomForBytes (opened .brPacked .bpp8) 1 = true ∧ (opened .brWide .bpp8).mode = .brWide ∧
    (opened .brPacked .bpp8).mode = .brPacked ∧ (15 : Byte).toNat ≤ 15 ∧ (opened .brPacked .bpp8).nibValid = false ∧
    (counting .brPacked .bpp8 false 0 true 15).nibValid = true ∧
    roomForBytes (counting .brPacked .bpp8 false 0 true 15) 1 = true := by decide

theorem test_witness_BitRunPixelCases :
    (false = (counting .brWide .bpp8 false 253 false 0).tgt ∧
      (counting .brWide .bpp8 false 253 false 0).runCnt.toNat + 1 < Mode.brWide.cap) ∧
    ((counting .brWide .bpp8 false 254 false 0).runCnt.toNat + 1 = Mode.brWide.cap ∧
      emitCount 255 (counting .brWide .bpp8 false 255 false 0)
        = .go ((counting .brWide .bpp8 false 255 false 0).emitted [255])) ∧
    (true ≠ (counting .brPacked .bpp8 false 0 true 15).tgt ∧
      emitCount 0 (counting .brPacked .bpp8 false 0 true 15)
        = .go ((counting .brPacked .bpp8 false 0 false 15).emitted [0xF0])) := by decide

/-- F13, F14 and F12. -/
theorem test_witness_OverflowLeavesWhatPrecededIt :
    (let s := { ready .vrWide .bpp8 with params := ⟨none, some 1⟩, chunkIdx := 1 };
      s.phase = .idle ∧ s.params.idxw = some 1 ∧ s.chunkIdx = 2 ^ 1 - 1) ∧
    (let s := { opened .vrWide .bpp8 with params := ⟨some 2, none⟩, inCount := 3 };
      s.phase = .chunk ∧ s.params.offw = some 2 ∧ s.inCount = 2 ^ 2 - 1) ∧
    (let s := { running .vrWide .bpp8 2 1 with params := ⟨some 2, none⟩, inCount := 2, outCount := 2 };
      s.phase = .chunk ∧ s.params.offw = some 2 ∧ s.inCount ≠ 2 ^ 2 - 1 ∧ s.outCount + 2 = 2 ^ 2 ∧ s.mode = .vrWide ∧
        s.bppc = .bpp8 ∧ s.runValid = true ∧ 3 ≠ s.runVal) := by decide

/-- V7: two full runs and a rest; the fourth property with nothing before and nothing after. -/
theorem test_witness_RunListProperties :
    1 ≤ 2 ∧ (2, 7) ∈ vRuns 2 [7, 7, 7, 7, 7] ∧ vRuns 2 [7, 7, 7, 7, 7] = [] ++ (2, 7) :: (2, 7) :: [(1, 7)] ∧
    1 ≤ 5 ∧ ([] : List Byte).getLast? ≠ some 7 ∧ ([8] : List Byte).head? ≠ some 7 := by decide

/-- B15's counts: a zero count between two others. -/
theorem test_witness_CountListProperties :
    2 ≤ 15 ∧ 15 ∈ bCounts 15 (List.replicate 15 false ++ [true]) ∧
    bCounts 15 (List.replicate 15 false ++ [true]) = [15] ++ 0 :: 1 :: [] ∧ 1 ≤ 15 ∧
    ([true] : List Bool).head? ≠ some false := by decide

theorem test_witness_ZeroCountsAreEmitted : 1 ≤ 15 := by decide

theorem test_witness_ValueRunStreamingIsFunctional :
    (opened .vrPacked .bpp8).mode.isValueRun = true ∧ (opened .vrPacked .bpp8).runValid = false ∧
    (opened .vrPacked .bpp8).runCnt = 0 ∧
    roomForBytes (opened .vrPacked .bpp8) (encodeChunk .vrPacked .bpp8 [0x60, 0x6F, 0x70]).length = true := by decide

theorem test_witness_BitRunStreamingIsFunctional :
    (opened .brPacked .bpp1).mode.isValueRun = false ∧ (opened .brPacked .bpp1).tgt = false ∧
    (opened .brPacked .bpp1).runCnt = 0 ∧ (opened .brPacked .bpp1).nibValid = false ∧
    roomForBytes (opened .brPacked .bpp1) (encodeChunk .brPacked .bpp1 [0xFF, 0x00]).length = true := by decide

theorem test_witness_ChunkOutputDependsOnTheChunkAlone :
    let s := (ready .vrWide .bpp8).setPending ((chunkCommands [7, 8]).flatMap presentInstr ++ [.takeByte])
    s.phase = .idle ∧ s.pending = (chunkCommands [7, 8]).flatMap presentInstr ++ [.takeByte] ∧
    counterFull s.params.idxw s.chunkIdx = false ∧ roomForInput s 2 = true ∧
    roomForBytes s (encodeChunk .vrWide .bpp8 [7, 8]).length = true := by decide

theorem test_witness_RunStreamingIsFunctional :
    let s := State.reset.setPending ((runCommands .vrWide .bpp8 [[7], []]).flatMap presentInstr ++ [])
    s.phase = .unconf ∧ s.pending = (runCommands .vrWide .bpp8 [[7], []]).flatMap presentInstr ++ [] ∧
    (ready .vrWide .bpp8).phase = .idle ∧
    fitsWidth s.params.offw (encodeRun .vrWide .bpp8 [[7], []]).compressedSize = true ∧
    fitsWidth s.params.offw (encodeRun .vrWide .bpp8 [[7], []]).originalSize = true ∧
    fitsWidth s.params.idxw 2 = true := by decide

/-- W4's offsets 0, 2, 2. -/
theorem test_witness_OffsetsAreCumulativeLengths :
    let r := encodeRun .vrPacked .bpp8 [[0x60, 0x6F, 0x70], [], [0x55]]
    r.offsets[0]? = some 0 ∧ r.offsets[1]? = some 2 ∧ r.offsets[2]? = some 2 ∧ r.offsets.getLast? = some 2 := by decide

theorem test_witness_CommandOutputBounds :
    BlockInv (running .vrWide .bpp8 7 254) ∧ decodeCommand 0x308 = .ok (.push 8) ∧
    (∃ t, exec (.push 8) (running .vrWide .bpp8 7 254) = .next t) ∧
    BlockInv (ready .vrWide .bpp8) ∧ decodeCommand 0x200 = .ok .beginChunk ∧
    (∃ t, exec .beginChunk (ready .vrWide .bpp8) = .next t) ∧
    decodeCommand 0x400 = .ok .endChunk ∧ ∃ t, exec .endChunk (running .vrWide .bpp8 7 254) = .next t :=
  ⟨test_running_inv, by decide, ⟨_, rfl⟩, test_ready_inv, by decide, ⟨_, rfl⟩, by decide, ⟨_, rfl⟩⟩

theorem test_witness_DecodingGivesThePreparedPixels :
    Mode.vrPacked.isValueRun = true ∧ Mode.brPacked.isValueRun = false := by decide

theorem test_witness_OneBitPerPixelRoundTripIsExact : Mode.brPacked.isValueRun = false := by decide

/-- V14 and its like: two chunks that `VR_PACKED` at 8 bits encodes alike. -/
theorem test_witness_LosslessConfigurationsAreInjective :
    (lossless .brPacked .bpp1 = true ∧ ([0xFF] : List Byte).length = [0xFF].length ∧
      encodeChunk .brPacked .bpp1 [0xFF] = encodeChunk .brPacked .bpp1 [0xFF]) ∧
    lossless .vrPacked .bpp8 = false ∧
    encodeChunk .vrPacked .bpp8 [0x60] = encodeChunk .vrPacked .bpp8 [0x6F] := by decide

/-- §2.8, line 2: one pair is not needed. -/
theorem test_witness_ValueRunDecoderReadsOnlyWhatItNeeds :
    Mode.vrWide.isValueRun = true ∧ 2 ≤ (expandUnits (unitsVR .vrWide [2, 0x66, 1, 0x7E])).length := by decide

theorem test_witness_DecodedBitsArePackedMsbFirst : 8 < [false, false, false, true, true, false, false, false, true].length := by
  decide

theorem test_witness_ChunksDecodeOutOfTheBlob :
    ([[0xFF, 0x00], [0x00, 0x01]] : List (List Byte))[1]? = some [0x00, 0x01] ∧ Mode.brPacked.isValueRun = false ∧
    Mode.vrWide.isValueRun = true := by decide

theorem test_witness_EveryStepKeepsTheInvariant :
    BlockInv ((running .vrWide .bpp8 7 254).setPending [.command 0x307]) ∧
    ∃ t, step ((running .vrWide .bpp8 7 254).setPending [.command 0x307]) = .next t :=
  ⟨test_inv_pending test_running_inv _, _, rfl⟩

theorem test_witness_FaultIsStickyUntilReset :
    let s := (raiseFault .ovf (running .vrWide .bpp8 7 254)).setPending [.command 0x10C]
    BlockInv s ∧ (∃ t, step s = .next t) ∧ s.phase = .fault ∧ s.pending.head? ≠ some .reset :=
  ⟨test_inv_pending test_faulted_inv _, ⟨_, rfl⟩, rfl, by decide⟩

theorem test_witness_EventsAreNeverTakenBack :
    step ((ready .vrWide .bpp8).setPending [.command 0x200]) = .next (openChunk (ready .vrWide .bpp8)) := rfl

theorem test_witness_OutputIsNeverReadBack :
    stepWord 0x200 (ready .vrWide .bpp8) = .next (openChunk (ready .vrWide .bpp8)) := rfl

theorem test_witness_ConfigurationChangesOnlyAtCfg :
    step (State.reset.withFetchWord 16 0x10D) = .next (configure .vrPacked .bpp8 State.reset) := rfl

theorem test_witness_UnboundedCountersNeverOverflow :
    let s := { running .vrWide .bpp8 7 254 with params := ⟨none, none⟩, pending := [.command 0x308] }
    s.params = ⟨none, none⟩ ∧ s.faultCode ≠ .ovf ∧ ∃ t, step s = .next t := ⟨rfl, by decide, _, rfl⟩

theorem test_witness_PushAndEndFrame :
    (∃ b, Instr.push 8 = .push b) ∧ (∃ t, exec (.push 8) (running .vrWide .bpp8 7 254) = .next t) ∧
    (∃ t, exec .endChunk (counting .brPacked .bpp8 false 14 true 15) = .next t) ∧
    (running .vrWide .bpp8 7 254).mode.isValueRun = true ∧
    (counting .brPacked .bpp8 false 14 true 15).mode.isValueRun = false ∧
    (counting .brWide .bpp8 false 254 false 0).mode = .brWide :=
  ⟨⟨_, rfl⟩, ⟨_, rfl⟩, ⟨_, rfl⟩, rfl, rfl, rfl⟩

theorem test_witness_EmittedByteHasItsAddress :
    BlockInv (running .vrWide .bpp8 7 254) ∧
    emitByte 7 (running .vrWide .bpp8 7 254) = .go ((running .vrWide .bpp8 7 254).emitted [7]) :=
  ⟨test_running_inv, rfl⟩

theorem test_witness_RecordCarriesTheBytesBeforeIt :
    BlockInv (ready .vrWide .bpp8) ∧ exec .beginChunk (ready .vrWide .bpp8) = .next (openChunk (ready .vrWide .bpp8)) ∧
    (openChunk (ready .vrWide .bpp8)).phase = .chunk := ⟨test_ready_inv, rfl, rfl⟩

theorem test_witness_EndLeavesNothingInside :
    BlockInv (counting .brPacked .bpp8 false 14 true 15) ∧ (counting .brPacked .bpp8 false 14 true 15).phase = .chunk ∧
    ∃ t, exec .endChunk (counting .brPacked .bpp8 false 14 true 15) = .next t ∧ t.phase = .idle :=
  ⟨test_counting_inv, rfl, _, rfl, rfl⟩

theorem test_witness_ResultIsDefinedWhenComplete :
    BlockInv (running .vrWide .bpp8 7 254) ∧ (running .vrWide .bpp8 7 254).phase ≠ .idle ∧
    BlockInv (ready .vrWide .bpp8) ∧ (ready .vrWide .bpp8).phase = .idle :=
  ⟨test_running_inv, by decide, test_ready_inv, rfl⟩

end Sys2Proof.Tests
end

/-! PROOFS for the scope of the block (spec/00_scope.md): the block alone decides what a word does (O53), and unbounded
counters raise no `OVF` (O55). -/

namespace Sys2Proof.Machine

/-! ### A past in front of a state

`s.after past` is the block of `s` at the interface of `past`, with the events of `s` behind those of `past`. Every part of
a step commutes with it: nothing that the block does depends on what it did before, but through its registers. -/

/-- The block of `s`, its widths and its events, with what `past` has of the host's side (R26). -/
def State.after (s past : State) : State :=
  { past with toBlock := s.toBlock, params := s.params, events := past.events ++ s.events }

/-- The same past in front of a step's state, whether the step goes on or stopped. -/
def Flow.after (f : Flow) (past : State) : Flow :=
  match f with
  | .go s => .go (s.after past)
  | .stop s => .stop (s.after past)

section
variable (s past : State)

@[simp] theorem State.after_toBlock : (s.after past).toBlock = s.toBlock := rfl
@[simp] theorem State.after_params : (s.after past).params = s.params := rfl
@[simp] theorem State.after_events : (s.after past).events = past.events ++ s.events := rfl

@[simp] theorem State.after_append (e : Event) : (s.after past).append e = (s.append e).after past := by
  simp [State.after, State.append]

/-- A block that was handed nothing yet, behind a past: the past with this block in it. -/
theorem Block.alone_after (p : Params) (b : Block) :
    (b.alone p).after past = { past with toBlock := b, params := p } := by
  simp [State.after, Block.alone]

end

theorem Flow.state_after (f : Flow) (past : State) : (f.after past).state = f.state.after past := by
  cases f <;> rfl

theorem Flow.andThen_after {f g : Flow} {k : State → Flow} {past : State} (first : f = g.after past)
    (rest : ∀ t, k (t.after past) = (k t).after past) : f.andThen k = (g.andThen k).after past := by
  subst first
  cases g with
  | go t => exact rest t
  | stop t => rfl

/-- The tests of a step read registers and widths alone, so they decide alike with a past and without. -/
theorem Flow.ite_after {c : Prop} [Decidable c] {f f' g g' : Flow} {past : State} (yes : f = g.after past)
    (no : f' = g'.after past) : (if c then f else f') = (if c then g else g').after past := by
  split
  · exact yes
  · exact no

section
variable (s past : State)

theorem emitByte_after (v : Byte) : emitByte v (s.after past) = (emitByte v s).after past := by
  refine Flow.ite_after rfl ?_
  rw [State.after_append]
  rfl

/-! ### The encoders -/

theorem emitVrWideUnit_after (c v : Byte) :
    emitVrWideUnit c v (s.after past) = (emitVrWideUnit c v s).after past :=
  Flow.andThen_after (emitByte_after s past c) fun t => emitByte_after t past v

theorem emitVrPackedUnit_after (c v : Nibble) :
    emitVrPackedUnit c v (s.after past) = (emitVrPackedUnit c v s).after past :=
  emitByte_after s past _

theorem emitRun_after (c v : Byte) : emitRun c v (s.after past) = (emitRun c v s).after past := by
  simp only [emitRun, State.after_toBlock]
  split
  · exact emitVrWideUnit_after s past c v
  · exact emitVrPackedUnit_after s past _ _
  · rfl
  · rfl

theorem vrExtend_after (q : Byte) : vrExtend q (s.after past) = (vrExtend q s).after past :=
  Flow.ite_after rfl (Flow.ite_after rfl (Flow.andThen_after (emitRun_after s past _ _) fun _ => rfl))

theorem vrSaturate_after : vrSaturate (s.after past) = (vrSaturate s).after past :=
  Flow.ite_after (Flow.andThen_after (emitRun_after s past _ _) fun _ => rfl) rfl

theorem vrStep_after (q : Byte) : vrStep q (s.after past) = (vrStep q s).after past :=
  Flow.andThen_after (vrExtend_after s past q) fun t => vrSaturate_after t past

theorem vrFlush_after : vrFlush (s.after past) = (vrFlush s).after past :=
  Flow.andThen_after (Flow.ite_after (emitRun_after s past _ _) rfl) fun _ => rfl

theorem emitBrWideUnit_after (c : Byte) : emitBrWideUnit c (s.after past) = (emitBrWideUnit c s).after past :=
  emitByte_after s past c

theorem emitBrPackedByte_after (hi lo : Nibble) :
    emitBrPackedByte hi lo (s.after past) = (emitBrPackedByte hi lo s).after past :=
  Flow.andThen_after (emitByte_after s past _) fun _ => rfl

theorem emitCount_after (c : Byte) : emitCount c (s.after past) = (emitCount c s).after past := by
  simp only [emitCount, State.after_toBlock]
  split
  · exact emitBrWideUnit_after s past c
  · exact Flow.ite_after (emitBrPackedByte_after s past _ _) rfl
  · rfl
  · rfl

theorem brStep_after (b : Bool) : brStep b (s.after past) = (brStep b s).after past :=
  Flow.ite_after
    (Flow.ite_after (Flow.andThen_after (emitCount_after (s.setBitRun s.tgt (s.runCnt + 1)) past _) fun _ => rfl) rfl)
    (Flow.andThen_after (emitCount_after s past _) fun _ => rfl)

theorem padNibble_after : padNibble (s.after past) = (padNibble s).after past :=
  Flow.ite_after (emitBrPackedByte_after s past _ _) rfl

theorem brFlush_after : brFlush (s.after past) = (brFlush s).after past :=
  Flow.andThen_after
    (Flow.andThen_after (Flow.ite_after rfl (emitCount_after s past _)) fun t => padNibble_after t past) fun _ => rfl

theorem pixelStep_after (p : Byte) : pixelStep p (s.after past) = (pixelStep p s).after past :=
  Flow.ite_after (vrStep_after s past _) (brStep_after s past _)

theorem feedPixels_after (ps : List Byte) : feedPixels ps (s.after past) = (feedPixels ps s).after past := by
  induction ps generalizing s with
  | nil => rfl
  | cons p ps ih => exact Flow.andThen_after (pixelStep_after s past p) ih

theorem flushChunk_after : flushChunk (s.after past) = (flushChunk s).after past :=
  Flow.ite_after (vrFlush_after s past) (brFlush_after s past)

theorem openChunk_after : openChunk (s.after past) = (openChunk s).after past := by
  unfold openChunk emitOffset
  rw [State.after_append]
  rfl

end

/-! ### Instructions and words

`CFG` sets a mark at the end of the events, and the past moves it. So whole answers are compared by the registers, the
widths and the events alone. -/

/-- `t` has the block and the widths of `s`, and the events of `s` behind those of `past`. -/
structure Follows (past s t : State) : Prop where
  block : t.toBlock = s.toBlock
  params : t.params = s.params
  events : t.events = past.events ++ s.events

theorem follows_after (s past : State) : Follows past s (s.after past) := ⟨rfl, rfl, rfl⟩

theorem configure_toBlock (m : Mode) (c : BppCode) (s : State) :
    (configure m c s).toBlock = ⟨.idle, s.faultCode, m, c, false, 0, 0, false, false, 0, 0, 0, 0⟩ := rfl

theorem configure_follows (m : Mode) (c : BppCode) (s past : State) :
    Follows past (configure m c s) (configure m c (s.after past)) where
  block := by rw [configure_toBlock, configure_toBlock, State.after_toBlock]
  params := by simp [configure]
  events := by simp [configure]

theorem Flow.follows_of_eq_after {f g : Flow} {past : State} (h : f = g.after past) : Follows past g.state f.state := by
  rw [h, Flow.state_after]
  exact follows_after _ past

/-- Both answers are next states, and the second follows the first. -/
def AnswerFollows (past : State) (a b : Answer) : Prop :=
  ∃ t u, a = .next t ∧ b = .next u ∧ Follows past t u

theorem AnswerFollows.of_eq_after {t u past : State} (h : u = t.after past) : AnswerFollows past (.next t) (.next u) :=
  ⟨t, u, rfl, rfl, h ▸ follows_after t past⟩

theorem AnswerFollows.ite {c : Prop} [Decidable c] {a a' b b' : Answer} {past : State} (yes : AnswerFollows past a b)
    (no : AnswerFollows past a' b') : AnswerFollows past (if c then a else a') (if c then b else b') := by
  split
  · exact yes
  · exact no

section
variable (s past : State)

theorem runCommand_follows (legal : Phase → Bool) {body : State → Flow}
    (h : Follows past (body s).state (body (s.after past)).state) :
    AnswerFollows past (runCommand legal body s) (runCommand legal body (s.after past)) := by
  refine .ite ?_ (.ite ?_ ?_)
  · exact .of_eq_after rfl
  · exact ⟨_, _, rfl, rfl, h⟩
  · exact .of_eq_after (t := raiseFault .proto s) rfl

theorem rejectIllegal_follows : AnswerFollows past (rejectIllegal s) (rejectIllegal (s.after past)) :=
  .ite (.of_eq_after rfl) (.of_eq_after (t := raiseFault .illegal s) rfl)

theorem produceUnit_follows (m : Mode) {body : State → Flow} (h : body (s.after past) = (body s).after past) :
    AnswerFollows past (produceUnit m body s) (produceUnit m body (s.after past)) :=
  .ite ⟨_, _, rfl, rfl, Flow.follows_of_eq_after h⟩ (.of_eq_after rfl)

theorem execNop_follows : AnswerFollows past (execNop s) (execNop (s.after past)) := by
  rw [execNop_eq, execNop_eq]
  exact .of_eq_after rfl

theorem execCfg_follows (m : Mode) (c : BppCode) : AnswerFollows past (execCfg m c s) (execCfg m c (s.after past)) :=
  runCommand_follows s past _ (body := fun s => .go (configure m c s)) (configure_follows m c s past)

theorem execBegin_follows : AnswerFollows past (execBegin s) (execBegin (s.after past)) := by
  refine runCommand_follows s past _ (Flow.follows_of_eq_after (Flow.ite_after rfl ?_))
  rw [openChunk_after]
  rfl

theorem execPush_follows (b : Byte) : AnswerFollows past (execPush b s) (execPush b (s.after past)) :=
  runCommand_follows s past _ (Flow.follows_of_eq_after
    (Flow.ite_after rfl (feedPixels_after (s.setInCount (s.inCount + 1)) past _)))

theorem execEnd_follows : AnswerFollows past (execEnd s) (execEnd (s.after past)) :=
  runCommand_follows s past _ (Flow.follows_of_eq_after (Flow.andThen_after (flushChunk_after s past) fun _ => rfl))

theorem execOffsetRecord_follows (index value : Nat) :
    AnswerFollows past (execOffsetRecord index value s) (execOffsetRecord index value (s.after past)) :=
  .ite (.of_eq_after (State.after_append s past _)) (.of_eq_after rfl)

/-- No instruction reads the past. -/
theorem exec_follows (i : Instr) : AnswerFollows past (exec i s) (exec i (s.after past)) := by
  cases i with
  | nop => exact execNop_follows s past
  | cfg m c => exact execCfg_follows s past m c
  | beginChunk => exact execBegin_follows s past
  | push b => exact execPush_follows s past b
  | endChunk => exact execEnd_follows s past
  | reservedOp5 arg => exact rejectIllegal_follows s past
  | reservedOp6 arg => exact rejectIllegal_follows s past
  | reservedOp7 arg => exact rejectIllegal_follows s past
  | unitVrWide c v => exact produceUnit_follows s past _ (emitVrWideUnit_after s past c v)
  | unitVrPacked c v => exact produceUnit_follows s past _ (emitVrPackedUnit_after s past c v)
  | unitBrWide c => exact produceUnit_follows s past _ (emitBrWideUnit_after s past c)
  | byteBrPacked hi lo => exact produceUnit_follows s past _ (emitBrPackedByte_after s past hi lo)
  | offsetRecord index value => exact execOffsetRecord_follows s past index value

theorem stepWord_follows (w : CmdWord) : AnswerFollows past (stepWord w s) (stepWord w (s.after past)) := by
  unfold stepWord
  cases decodeCommand w with
  | ok i => exact exec_follows s past i
  | error e => exact rejectIllegal_follows s past

end

theorem Block.step_eq {w : CmdWord} {p : Params} {b : Block} {u : State} (h : stepWord w (b.alone p) = .next u) :
    Block.step p w b = (u.toBlock, u.events) := by
  rw [Block.step, h]

/-- What a word does at the interface `past` follows what it does to the block alone. -/
theorem stepWord_follows_alone (w : CmdWord) (p : Params) (b : Block) (past : State) :
    AnswerFollows past (stepWord w (b.alone p)) (stepWord w { past with toBlock := b, params := p }) := by
  rw [← Block.alone_after]
  exact stepWord_follows _ past w

/-- Settles O53: `s` and the state that differs from it on the host's side are one block at two interfaces. -/
theorem outputIsNeverReadBack : Obligations.OutputIsNeverReadBack := by
  intro s t w h
  obtain ⟨u, t₁, alone, atS, f⟩ := stepWord_follows_alone w s.params s.toBlock s
  cases h.symm.trans atS
  rw [Block.step_eq alone]
  refine ⟨f.block, f.events, fun es at1 at2 n1 n2 => ?_⟩
  obtain ⟨u', t', alone', atOther, f'⟩ := stepWord_follows_alone w s.params s.toBlock
    { s with events := es, resetAt := at1, runAt := at2, bytesTaken := n1, offsTaken := n2 }
  cases alone.symm.trans alone'
  exact ⟨t', u.events, atOther, ⟨f.block.trans f'.block.symm, f.params.trans f'.params.symm⟩, f.events, f'.events⟩

/-! ### Unbounded counters -/

theorem Flow.Emits.faultCode_ne_ovf {s : State} {f : Flow} (e : Flow.Emits s f) (unbounded : s.params.offw = none)
    (h : s.faultCode ≠ .ovf) : f.state.faultCode ≠ .ovf := by
  obtain ⟨l, g, ⟨-, code⟩ | ⟨-, -, bounded⟩⟩ := e.state
  · rwa [code]
  · exact absurd unbounded bounded

theorem rejectIllegal_faultCode_ne_ovf {s t : State} (hs : s.faultCode ≠ .ovf) (h : rejectIllegal s = .next t) :
    t.faultCode ≠ .ovf := by
  obtain ⟨-, rfl⟩ | ⟨-, rfl⟩ := rejectIllegal_cases h
  · exact hs
  · simp

/-- A command whose body cannot overflow does not overflow: its refusal is `PROTO`. -/
theorem runCommand_faultCode_ne_ovf {legal : Phase → Bool} {body : State → Flow} {s t : State}
    (hs : s.faultCode ≠ .ovf) (hb : (body s).state.faultCode ≠ .ovf)
    (h : runCommand legal body s = .next t) : t.faultCode ≠ .ovf := by
  obtain ⟨-, rfl⟩ | ⟨-, -, rfl⟩ | ⟨-, -, rfl⟩ := runCommand_cases h
  · exact hs
  · simp
  · exact hb

theorem stepWord_faultCode_ne_ovf {w : CmdWord} {s t : State} (unbounded : s.params = ⟨none, none⟩)
    (hs : s.faultCode ≠ .ovf) (h : stepWord w s = .next t) : t.faultCode ≠ .ovf := by
  have offw : s.params.offw = none := by rw [unbounded]
  have idxw : s.params.idxw = none := by rw [unbounded]
  obtain h | rfl | ⟨m, c, -, h⟩ | ⟨-, h⟩ | ⟨b, -, h⟩ | ⟨-, h⟩ := stepWord_cases h
  · exact rejectIllegal_faultCode_ne_ovf hs h
  · exact hs
  · exact runCommand_faultCode_ne_ovf hs (by simpa [configure] using hs) h
  · refine runCommand_faultCode_ne_ovf hs ?_ h
    simpa [idxw, counterFull, openChunk, emitOffset] using hs
  · refine runCommand_faultCode_ne_ovf hs ?_ h
    have fed := (feedPixels_emits (unpack s.bppc b) (s.setInCount (s.inCount + 1))).faultCode_ne_ovf offw hs
    simpa [offw, counterFull] using fed
  · refine runCommand_faultCode_ne_ovf hs ?_ h
    exact Flow.andThen_state (P := fun u => u.faultCode ≠ .ovf) ((flushChunk_emits s).faultCode_ne_ovf offw hs)
      fun _ _ flushed => flushed

/-- Settles O55: what raises `OVF` is a counter at the last value of its width, and there is none. -/
theorem unboundedCountersNeverOverflow : Obligations.UnboundedCountersNeverOverflow := by
  intro s t unbounded hs h
  obtain ⟨-, rfl⟩ | ⟨w, rest, -, h⟩ | ⟨rest, -, rfl⟩ | ⟨rest, -, rfl⟩ | ⟨rest, -, rfl⟩ := step_cases h
  · exact hs
  · exact stepWord_faultCode_ne_ovf (s := s.setPending rest) unbounded hs h
  · simp [State.reset]
  · rwa [takeByte_toBlock]
  · rwa [takeOffset_toBlock]

end Sys2Proof.Machine

/-! PROOFS for the state of the block (spec/10_state.md), the small ones: reset, the waiting block, faults, the
configuration, and the frame of `PUSH` and `END`. -/

namespace Sys2Proof.Machine

/-! ### Reset -/

/-- Settles O12, one entry of R25's table after the other. -/
theorem resetStateIsTheTable : Obligations.ResetStateIsTheTable :=
  ⟨rfl, rfl, rfl, rfl, rfl, rfl, rfl, rfl, rfl, rfl, rfl, rfl, rfl, rfl⟩

theorem step_reset {s : State} {rest : List Input} (h : s.pending = .reset :: rest) :
    step s = .next (resetBlock (s.setPending rest)) := by
  rw [step, h]

@[simp] theorem trace_resetBlock (s : State) : trace (resetBlock s) = [] := by simp [trace]

/-- Settles O11: the next state is `resetBlock`, which keeps the host's side and moves the trace's mark to the end. -/
theorem resetEventSetsEveryRegister : Obligations.ResetEventSetsEveryRegister := by
  intro s rest h
  exact ⟨_, step_reset h, rfl, rfl, rfl, rfl, trace_resetBlock _, rfl, rfl⟩

/-! ### Every step answers -/

/-- No instruction is refused: every arm of `exec` answers a next state (R191). -/
theorem stepWord_next (w : CmdWord) (s : State) : ∃ t, stepWord w s = .next t := by
  obtain ⟨t, -, h, -, -⟩ := stepWord_follows s s w
  exact ⟨t, h⟩

theorem step_of_no_input {s : State} (h : s.pending = []) : step s = .next s := by
  rw [step, h]

/-- Settles O10: a word by `stepWord_next`, every other input by the definition of a step. -/
theorem everyStepAnswersANextState : Obligations.EveryStepAnswersANextState := by
  intro s
  refine ⟨?_, step_of_no_input⟩
  unfold step
  split
  · exact ⟨_, rfl⟩
  · exact stepWord_next _ _
  · exact ⟨_, rfl⟩
  · exact ⟨_, rfl⟩
  · exact ⟨_, rfl⟩

/-! ### A faulted block -/

theorem rejectIllegal_of_fault {s : State} (h : s.phase = .fault) : rejectIllegal s = .next s := if_pos h

/-- R150: in `FAULT` every word is taken and ignored. -/
theorem stepWord_of_fault {w : CmdWord} {s t : State} (h : s.phase = .fault) (hw : stepWord w s = .next t) : t = s := by
  have ignored {legal : Phase → Bool} {body : State → Flow} (hc : runCommand legal body s = .next t) : t = s := by
    rw [runCommand_fault h] at hc
    cases hc
    rfl
  obtain hw | hw | ⟨m, c, -, hw⟩ | ⟨-, hw⟩ | ⟨b, -, hw⟩ | ⟨-, hw⟩ := stepWord_cases hw
  · rw [rejectIllegal_of_fault h] at hw
    cases hw
    rfl
  · exact hw
  · exact ignored hw
  · exact ignored hw
  · exact ignored hw
  · exact ignored hw

/-- R198: of the host's inputs only the reset event changes the registers of a faulted block. -/
theorem step_toBlock_of_fault {s t : State} (p : s.phase = .fault) (noReset : s.pending.head? ≠ some .reset)
    (h : step s = .next t) : t.toBlock = s.toBlock := by
  obtain ⟨-, rfl⟩ | ⟨w, rest, -, h⟩ | ⟨rest, reset, -⟩ | ⟨rest, -, rfl⟩ | ⟨rest, -, rfl⟩ := step_cases h
  · rfl
  · rw [stepWord_of_fault (s := s.setPending rest) p h]
    rfl
  · exact absurd (by rw [reset]; rfl) noReset
  · exact takeByte_toBlock _
  · exact takeOffset_toBlock _

theorem faultFlag_iff (s : State) : faultFlag s = true ↔ s.faultCode ≠ .noFault := by
  unfold faultFlag
  cases s.faultCode <;> decide

/-- Settles O51: the registers stay, and the invariant says that the recorded code is nonzero. -/
theorem faultIsStickyUntilReset : Obligations.FaultIsStickyUntilReset := by
  intro s t inv h p noReset
  have same := step_toBlock_of_fault p noReset h
  have code : t.faultCode = s.faultCode := by rw [same]
  exact ⟨by rw [same, p], code, by rw [faultFlag_iff, code]; exact inv.faultCode.mp p⟩

/-! ### What `PUSH` and `END` write

Besides the phase, the fault code and the run-length registers, which `Grew` sets aside, each writes its one counter. -/

theorem Grew.raiseFault (c : FaultCode) (s : State) : Grew s (raiseFault c s) [] := by
  constructor <;> simp [byteEvents]

theorem execPush_grew {b : Byte} {s t : State} (h : execPush b s = .next t) : ∃ n l, Grew (s.setInCount n) t l := by
  obtain ⟨-, rfl⟩ | ⟨-, rfl⟩ | ⟨-, -, rfl⟩ | ⟨-, -, rfl⟩ := execPush_cases h
  · exact ⟨t.inCount, [], .refl t⟩
  · exact ⟨s.inCount, [], .raiseFault .proto s⟩
  · exact ⟨s.inCount, [], .raiseFault .ovf s⟩
  · obtain ⟨l, g, -⟩ := (feedPixels_emits (unpack s.bppc b) (s.setInCount (s.inCount + 1))).state
    exact ⟨_, l, g⟩

/-- The last assignments of `END` (R155) write no more than `chunk_idx` and the phase. -/
theorem Grew.closed {s t : State} {l : List Byte} (g : Grew s t l) (n : Nat) :
    Grew (s.setChunkIdx n) ((t.setChunkIdx n).setPhase .idle) l :=
  { g with chunkIdx := rfl }

theorem execEnd_grew {s t : State} (h : execEnd s = .next t) : ∃ n l, Grew (s.setChunkIdx n) t l := by
  have flushed := flushChunk_emits s
  obtain ⟨-, rfl⟩ | ⟨-, rfl⟩ | ⟨-, stop⟩ | ⟨-, u, go, rfl⟩ := execEnd_cases h
  · exact ⟨t.chunkIdx, [], .refl t⟩
  · exact ⟨s.chunkIdx, [], .raiseFault .proto s⟩
  · rw [stop] at flushed
    obtain ⟨l, g, -⟩ := flushed
    exact ⟨s.chunkIdx, l, g⟩
  · rw [go] at flushed
    obtain ⟨l, g, -⟩ := flushed
    exact ⟨_, l, g.closed _⟩

/-! ### The configuration -/

theorem rejectIllegal_frame {s t : State} (h : rejectIllegal s = .next t) :
    t.params = s.params ∧ t.mode = s.mode ∧ t.bppc = s.bppc := by
  obtain ⟨-, rfl⟩ | ⟨-, rfl⟩ := rejectIllegal_cases h <;> exact ⟨rfl, rfl, rfl⟩

theorem execBegin_frame {s t : State} (h : execBegin s = .next t) :
    t.params = s.params ∧ t.mode = s.mode ∧ t.bppc = s.bppc := by
  obtain ⟨-, rfl⟩ | ⟨-, rfl⟩ | ⟨-, -, rfl⟩ | ⟨-, -, rfl⟩ := execBegin_cases h <;> exact ⟨rfl, rfl, rfl⟩

/-- A word leaves the widths, and `mode` and `bppc` unless it is an accepted `CFG` (R152). -/
theorem stepWord_config {w : CmdWord} {s t : State} (h : stepWord w s = .next t) :
    t.params = s.params ∧ ((t.mode = s.mode ∧ t.bppc = s.bppc) ∨
      (s.phase ≠ .chunk ∧ s.phase ≠ .fault ∧ ∃ m c, decodeCommand w = .ok (.cfg m c) ∧ t.mode = m ∧ t.bppc = c)) := by
  obtain h | rfl | ⟨m, c, d, h⟩ | ⟨-, h⟩ | ⟨b, -, h⟩ | ⟨-, h⟩ := stepWord_cases h
  · obtain ⟨hp, hmc⟩ := rejectIllegal_frame h
    exact ⟨hp, .inl hmc⟩
  · exact ⟨rfl, .inl ⟨rfl, rfl⟩⟩
  · obtain ⟨-, rfl⟩ | ⟨-, rfl⟩ | ⟨p, rfl⟩ := execCfg_cases h
    · exact ⟨rfl, .inl ⟨rfl, rfl⟩⟩
    · exact ⟨rfl, .inl ⟨rfl, rfl⟩⟩
    · have open_or_fault : s.phase ≠ .chunk ∧ s.phase ≠ .fault := by
        obtain p | p := p <;> simp [p]
      exact ⟨rfl, .inr ⟨open_or_fault.1, open_or_fault.2, m, c, d, rfl, rfl⟩⟩
  · obtain ⟨hp, hmc⟩ := execBegin_frame h
    exact ⟨hp, .inl hmc⟩
  · obtain ⟨n, l, g⟩ := execPush_grew h
    exact ⟨g.params, .inl ⟨g.mode, g.bppc⟩⟩
  · obtain ⟨n, l, g⟩ := execEnd_grew h
    exact ⟨g.params, .inl ⟨g.mode, g.bppc⟩⟩

theorem takeByte_params (s : State) : (takeByte s).params = s.params := by
  unfold takeByte
  split <;> rfl

theorem takeOffset_params (s : State) : (takeOffset s).params = s.params := by
  unfold takeOffset
  split <;> rfl

/-- Settles O54: of the host's inputs only a word and the reset event write the configuration. -/
theorem configurationChangesOnlyAtCfg : Obligations.ConfigurationChangesOnlyAtCfg := by
  intro s t h
  obtain ⟨-, rfl⟩ | ⟨w, rest, word, h⟩ | ⟨rest, reset, rfl⟩ | ⟨rest, -, rfl⟩ | ⟨rest, -, rfl⟩ := step_cases h
  · exact ⟨rfl, .inl ⟨rfl, rfl⟩⟩
  · have head : s.pending.head? = some (.command w) := by rw [word]; rfl
    obtain ⟨hp, same | ⟨noChunk, noFault, m, c, d, hm, hc⟩⟩ := stepWord_config h
    · exact ⟨hp, .inl same⟩
    · exact ⟨hp, .inr (.inr ⟨noChunk, noFault, w, m, c, head, d, hm, hc⟩)⟩
  · exact ⟨rfl, .inr (.inl (by rw [reset]; rfl))⟩
  · exact ⟨takeByte_params _, .inl (by rw [takeByte_toBlock]; exact ⟨rfl, rfl⟩)⟩
  · exact ⟨takeOffset_params _, .inl (by rw [takeOffset_toBlock]; exact ⟨rfl, rfl⟩)⟩

/-! ### The run-length registers that `PUSH` and `END` leave

A property that every pixel keeps is kept by a whole byte, and so is the mode. -/

theorem feedPixels_keeps {P : State → Prop} (ps : List Byte)
    (pixel : ∀ p t, P t → P (pixelStep p t).state) {s : State} (h : P s) : P (feedPixels ps s).state := by
  induction ps generalizing s with
  | nil => exact h
  | cons p ps ih => exact Flow.andThen_state (pixel p s h) fun t _ ht => ih ht

theorem Flow.Emits.mode {s : State} {f : Flow} (h : Flow.Emits s f) : f.state.mode = s.mode := by
  obtain ⟨l, g, -⟩ := h.state
  exact g.mode

theorem Flow.Emits.mode_of_go {s t : State} {f : Flow} (h : Flow.Emits s f) (go : f = .go t) : t.mode = s.mode := by
  subst go
  exact h.mode

theorem SameBits.trans {s t u : State} (a : SameBits s t) (b : SameBits t u) : SameBits s u := by
  obtain ⟨a1, a2, a3⟩ := a
  obtain ⟨b1, b2, b3⟩ := b
  exact ⟨b1.trans a1, b2.trans a2, b3.trans a3⟩

theorem SameRun.trans {s t u : State} (a : SameRun s t) (b : SameRun t u) : SameRun s u := by
  obtain ⟨a1, a2⟩ := a
  obtain ⟨b1, b2⟩ := b
  exact ⟨b1.trans a1, b2.trans a2⟩

/-- The nibble registers (R17), which only `BR_PACKED` uses. -/
def SameNibble (s t : State) : Prop := t.nibValid = s.nibValid ∧ t.nibHold = s.nibHold

theorem SameNibble.trans {s t u : State} (a : SameNibble s t) (b : SameNibble t u) : SameNibble s u := by
  obtain ⟨a1, a2⟩ := a
  obtain ⟨b1, b2⟩ := b
  exact ⟨b1.trans a1, b2.trans a2⟩

theorem emitCount_sameNibble {c : Byte} {s : State} (m : s.mode ≠ .brPacked) :
    SameNibble s (emitCount c s).state := by
  obtain ⟨-, -, -, same⟩ := emitCount_registers c s
  exact (same m).2

/-- Outside `BR_PACKED` the bit-run family writes no nibble register (R120). -/
theorem brStep_sameNibble {b : Bool} {s : State} (m : s.mode ≠ .brPacked) : SameNibble s (brStep b s).state := by
  unfold brStep
  split
  · dsimp only
    split
    · exact Flow.andThen_state (P := SameNibble s)
        (emitCount_sameNibble (s := s.setBitRun s.tgt (s.runCnt + 1)) m) fun _ _ h => h
    · exact ⟨rfl, rfl⟩
  · exact Flow.andThen_state (P := SameNibble s) (emitCount_sameNibble m) fun _ _ h => h

theorem pixelStep_of_isValueRun {p : Byte} {s : State} (m : s.mode.isValueRun = true) :
    pixelStep p s = vrStep (prepVR s.mode s.bppc p) s := if_pos m

theorem pixelStep_of_not_isValueRun {p : Byte} {s : State} (m : s.mode.isValueRun = false) :
    pixelStep p s = brStep (thresh p) s := if_neg (by simp [m])

theorem flushChunk_of_isValueRun {s : State} (m : s.mode.isValueRun = true) : flushChunk s = vrFlush s := if_pos m

theorem flushChunk_of_not_isValueRun {s : State} (m : s.mode.isValueRun = false) : flushChunk s = brFlush s :=
  if_neg (by simp [m])

/-- How `SameBits`, `SameRun` and `SameNibble` over one pixel in the chunk's mode give the same over a list of pixels. -/
theorem feedPixels_relates {R : State → State → Prop} (ps : List Byte) {s : State} (refl : R s s)
    (trans : ∀ {t u}, R s t → R t u → R s u) (pixel : ∀ p t, t.mode = s.mode → R t (pixelStep p t).state) :
    R s (feedPixels ps s).state :=
  (feedPixels_keeps (P := fun t => t.mode = s.mode ∧ R s t) ps
    (fun p t ⟨hm, ht⟩ => ⟨(pixelStep_emits p t).mode.trans hm, trans ht (pixel p t hm)⟩) ⟨rfl, refl⟩).2

theorem feedPixels_sameBits (ps : List Byte) {s : State} (m : s.mode.isValueRun = true) :
    SameBits s (feedPixels ps s).state :=
  feedPixels_relates ps ⟨rfl, rfl, rfl⟩ SameBits.trans fun p t hm => by
    rw [pixelStep_of_isValueRun (by rw [hm, m])]
    exact vrStep_sameBits _ t

theorem feedPixels_sameRun (ps : List Byte) {s : State} (m : s.mode.isValueRun = false) :
    SameRun s (feedPixels ps s).state :=
  feedPixels_relates ps ⟨rfl, rfl⟩ SameRun.trans fun p t hm => by
    rw [pixelStep_of_not_isValueRun (by rw [hm, m])]
    exact brStep_sameRun _ t

theorem feedPixels_sameNibble (ps : List Byte) {s : State} (m : s.mode = .brWide) :
    SameNibble s (feedPixels ps s).state :=
  feedPixels_relates ps ⟨rfl, rfl⟩ SameNibble.trans fun p t hm => by
    rw [pixelStep_of_not_isValueRun (by rw [hm, m]; rfl)]
    exact brStep_sameNibble (by simp [hm, m])

theorem execPush_registers {b : Byte} {s t : State} (h : execPush b s = .next t) :
    (s.mode.isValueRun = true → SameBits s t) ∧ (s.mode.isValueRun = false → SameRun s t) ∧
      (s.mode = .brWide → SameNibble s t) := by
  obtain ⟨-, rfl⟩ | ⟨-, rfl⟩ | ⟨-, -, rfl⟩ | ⟨-, -, rfl⟩ := execPush_cases h
  · exact ⟨fun _ => ⟨rfl, rfl, rfl⟩, fun _ => ⟨rfl, rfl⟩, fun _ => ⟨rfl, rfl⟩⟩
  · exact ⟨fun _ => ⟨rfl, rfl, rfl⟩, fun _ => ⟨rfl, rfl⟩, fun _ => ⟨rfl, rfl⟩⟩
  · exact ⟨fun _ => ⟨rfl, rfl, rfl⟩, fun _ => ⟨rfl, rfl⟩, fun _ => ⟨rfl, rfl⟩⟩
  · exact ⟨feedPixels_sameBits (s := s.setInCount (s.inCount + 1)) _,
      feedPixels_sameRun (s := s.setInCount (s.inCount + 1)) _,
      feedPixels_sameNibble (s := s.setInCount (s.inCount + 1)) _⟩

theorem flushChunk_sameBits {s : State} (m : s.mode.isValueRun = true) : SameBits s (flushChunk s).state := by
  rw [flushChunk_of_isValueRun m]
  exact vrFlush_sameBits s

theorem flushChunk_sameRun {s : State} (m : s.mode.isValueRun = false) : SameRun s (flushChunk s).state := by
  rw [flushChunk_of_not_isValueRun m]
  exact brFlush_sameRun s

theorem execEnd_registers {s t : State} (h : execEnd s = .next t) :
    (s.mode.isValueRun = true → SameBits s t) ∧ (s.mode.isValueRun = false → SameRun s t) := by
  have bits := flushChunk_sameBits (s := s)
  have run := flushChunk_sameRun (s := s)
  obtain ⟨-, rfl⟩ | ⟨-, rfl⟩ | ⟨-, stop⟩ | ⟨-, u, go, rfl⟩ := execEnd_cases h
  · exact ⟨fun _ => ⟨rfl, rfl, rfl⟩, fun _ => ⟨rfl, rfl⟩⟩
  · exact ⟨fun _ => ⟨rfl, rfl, rfl⟩, fun _ => ⟨rfl, rfl⟩⟩
  · rw [stop] at bits run
    exact ⟨bits, run⟩
  · rw [go] at bits run
    exact ⟨bits, run⟩

/-- Settles O56: `Grew` for the interface and the events, the families' own lemmas for the run-length registers. -/
theorem pushAndEndFrame : Obligations.PushAndEndFrame := by
  rintro s t i (⟨b, rfl⟩ | rfl) h
  · obtain ⟨n, l, g⟩ := execPush_grew h
    obtain ⟨bits, run, nibble⟩ := execPush_registers h
    exact ⟨g.mode, g.bppc, g.params, g.pending, g.resetAt, g.runAt, g.bytesTaken, g.offsTaken,
      fun e => (nomatch e), fun _ => g.chunkIdx, bits, run, fun _ => nibble, l, g.events, g.outCount⟩
  · obtain ⟨n, l, g⟩ := execEnd_grew h
    obtain ⟨bits, run⟩ := execEnd_registers h
    exact ⟨g.mode, g.bppc, g.params, g.pending, g.resetAt, g.runAt, g.bytesTaken, g.offsTaken,
      fun _ => g.inCount, fun ⟨_, e⟩ => (nomatch e), bits, run, fun ⟨_, e⟩ => (nomatch e), l, g.events, g.outCount⟩

end Sys2Proof.Machine

/-! PROOFS for the invariant of the block (R23): what one pixel does in each case of R97 and R117, that `PUSH` and `END`
keep the registers of the open chunk in order, and that every step keeps `BlockInv` (O49, O50). -/

namespace Sys2Proof.Machine

/-! ### The cases of a pixel

One equation per case of `VRStep` (R97) and of `BRStep` (R117), for a count that stays in its range. -/

theorem toNat_one_ne_cap (m : Mode) : (1 : Byte).toNat ≠ m.cap := by cases m <;> decide

section
variable {s : State}

/-- R97 (a): a run of one pixel is no full one. -/
theorem vrStep_start (q : Byte) (idle : s.runValid = false) : vrStep q s = .go (s.setRun true q 1) := by
  rw [vrStep, vrExtend, if_pos idle]
  exact if_neg (toNat_one_ne_cap s.mode)

/-- R97 (b), short of the capacity. -/
theorem vrStep_extend (running : s.runValid = true) (short : (s.runCnt + 1).toNat ≠ s.mode.cap) :
    vrStep s.runVal s = .go (s.setRun true s.runVal (s.runCnt + 1)) := by
  rw [vrStep, vrExtend, if_neg (by simp [running]), if_pos rfl]
  exact if_neg short

/-- R97 (b) and (d): the pixel that fills the run. -/
theorem vrStep_saturate (running : s.runValid = true) (full : (s.runCnt + 1).toNat = s.mode.cap) :
    vrStep s.runVal s = (emitRun (s.runCnt + 1) s.runVal (s.setRun true s.runVal (s.runCnt + 1))).andThen
      fun t => .go (t.setRun false t.runVal 0) := by
  rw [vrStep, vrExtend, if_neg (by simp [running]), if_pos rfl]
  exact if_pos full

/-- R97 (c): the run of another value is written, and the new one has one pixel. -/
theorem vrStep_change {q : Byte} (running : s.runValid = true) (ne : q ≠ s.runVal) :
    vrStep q s = (emitRun s.runCnt s.runVal s).andThen fun t => .go (t.setRun true q 1) := by
  rw [vrStep, vrExtend, if_neg (by simp [running]), if_neg ne, Flow.andThen_assoc]
  congr 1
  funext t
  exact if_neg (toNat_one_ne_cap t.mode)

/-- R117: a target bit, short of the capacity. -/
theorem brStep_extend (short : (s.runCnt + 1).toNat ≠ s.mode.cap) :
    brStep s.tgt s = .go (s.setBitRun s.tgt (s.runCnt + 1)) := by
  rw [brStep, if_pos rfl]
  exact if_neg short

/-- R117: the target bit that fills the count. -/
theorem brStep_saturate (full : (s.runCnt + 1).toNat = s.mode.cap) :
    brStep s.tgt s = (emitCount (s.runCnt + 1) (s.setBitRun s.tgt (s.runCnt + 1))).andThen
      fun t => .go (t.setBitRun t.tgt 0) := by
  rw [brStep, if_pos rfl]
  exact if_pos full

/-- R117: the other bit. -/
theorem brStep_toggle {b : Bool} (ne : b ≠ s.tgt) :
    brStep b s = (emitCount s.runCnt s).andThen fun t => .go (t.setBitRun (!t.tgt) 1) := if_neg ne

end

/-! ### The registers of the open chunk -/

theorem prepVR_lt (c : BppCode) (v : Byte) : (prepVR .vrPacked c v).toNat < 16 := by
  have shifted : ∀ v : Byte, (v >>> 4).toNat < 16 := by decide
  have masked : ∀ v : Byte, (v &&& 0xF).toNat < 16 := by decide
  cases c
  · exact masked v
  · exact masked v
  · exact masked v
  · exact shifted v

/-- R15 after a write of the run registers, whatever was emitted before it. -/
theorem ValueRunInv.setRun {s u : State} {valid : Bool} {val cnt : Byte} (inv : ValueRunInv s) (mode : u.mode = s.mode)
    (bits : SameBits s u) (running : valid = true → 1 ≤ cnt.toNat ∧ cnt.toNat ≤ s.mode.cap - 1)
    (idle : valid = false → cnt = 0) (packed : s.mode = .vrPacked → val.toNat < 16) :
    ValueRunInv (u.setRun valid val cnt) where
  inProgress := by simpa [mode] using running
  none := idle
  unused := by
    obtain ⟨h1, h2, h3⟩ := bits
    obtain ⟨i1, i2, i3⟩ := inv.unused
    exact ⟨h1.trans i1, h2.trans i2, h3.trans i3⟩
  prepared := by simpa [mode] using packed

theorem emitRun_go {c v : Byte} {s t : State} (h : emitRun c v s = .go t) :
    t.mode = s.mode ∧ SameBits s t ∧ SameRun s t := by
  obtain ⟨bits, run, -⟩ := emitRun_registers c v s
  rw [h] at bits run
  exact ⟨(emitRun_emits c v s).mode_of_go h, bits, run⟩

theorem vrStep_keeps_valueRunInv {q : Byte} {s t : State} (m : s.mode.isValueRun = true) (inv : ValueRunInv s)
    (hq : s.mode = .vrPacked → q.toNat < 16) (h : vrStep q s = .go t) : ValueRunInv t := by
  have cap := cap_of_isValueRun m
  have one : 1 ≤ (1 : Byte).toNat ∧ (1 : Byte).toNat ≤ s.mode.cap - 1 := ⟨Nat.le_refl 1, by simp; omega⟩
  cases running : s.runValid with
  | false =>
    rw [vrStep_start q running] at h
    cases h
    exact inv.setRun rfl ⟨rfl, rfl, rfl⟩ (fun _ => one) (fun e => nomatch e) hq
  | true =>
    obtain ⟨-, le⟩ := inv.inProgress running
    have succ := toNat_succ_of_le le (by omega)
    by_cases eq : q = s.runVal
    · subst eq
      by_cases full : (s.runCnt + 1).toNat = s.mode.cap
      · rw [vrStep_saturate running full] at h
        obtain ⟨u, e, h⟩ := Flow.andThen_eq_go h
        cases h
        obtain ⟨mode, bits, -, val⟩ := emitRun_go e
        exact inv.setRun mode bits (fun e => nomatch e) (fun _ => rfl) (by rwa [val])
      · rw [vrStep_extend running full] at h
        cases h
        exact inv.setRun rfl ⟨rfl, rfl, rfl⟩ (fun _ => by omega) (fun e => nomatch e) hq
    · rw [vrStep_change running eq] at h
      obtain ⟨u, e, h⟩ := Flow.andThen_eq_go h
      cases h
      obtain ⟨mode, bits, -⟩ := emitRun_go e
      exact inv.setRun mode bits (fun _ => one) (fun e => nomatch e) hq

/-- R16: the count stays below the capacity. -/
theorem brStep_runCnt_le {b : Bool} {s t : State} (m : s.mode.isValueRun = false)
    (le : s.runCnt.toNat ≤ s.mode.cap - 1) (h : brStep b s = .go t) : t.runCnt.toNat ≤ s.mode.cap - 1 := by
  have cap := cap_of_not_isValueRun m
  have succ := toNat_succ_of_le le (by omega)
  by_cases eq : b = s.tgt
  · subst eq
    by_cases full : (s.runCnt + 1).toNat = s.mode.cap
    · rw [brStep_saturate full] at h
      obtain ⟨u, -, h⟩ := Flow.andThen_eq_go h
      cases h
      exact Nat.zero_le _
    · rw [brStep_extend full] at h
      cases h
      simp only [State.setBitRun_runCnt]
      omega
  · rw [brStep_toggle eq] at h
    obtain ⟨u, -, h⟩ := Flow.andThen_eq_go h
    cases h
    have one : (1 : Byte).toNat = 1 := rfl
    simp only [State.setBitRun_runCnt, one]
    omega

theorem brStep_keeps_bitRunInv {b : Bool} {s t : State} (m : s.mode.isValueRun = false) (inv : BitRunInv s)
    (h : brStep b s = .go t) : BitRunInv t := by
  have mode := (brStep_emits b s).mode_of_go h
  have run := brStep_sameRun b s
  have nibble : s.mode ≠ .brPacked → SameNibble s (brStep b s).state := brStep_sameNibble
  rw [h] at run nibble
  obtain ⟨valid, val⟩ := run
  obtain ⟨i1, i2⟩ := inv.unused
  refine ⟨by rw [mode]; exact brStep_runCnt_le m inv.count h, ⟨valid.trans i1, val.trans i2⟩, fun ne => ?_⟩
  rw [mode] at ne
  obtain ⟨n1, n2⟩ := nibble ne
  obtain ⟨j1, j2⟩ := inv.nibble ne
  exact ⟨n1.trans j1, n2.trans j2⟩

/-- What every pixel that raises no fault keeps, a whole byte keeps. -/
theorem feedPixels_go_keeps {P : State → Prop} (pixel : ∀ p t u, P t → pixelStep p t = .go u → P u) {ps : List Byte}
    {s t : State} (h : P s) (fed : feedPixels ps s = .go t) : P t := by
  induction ps generalizing s with
  | nil =>
    cases fed
    exact h
  | cons p ps ih =>
    obtain ⟨u, first, rest⟩ := Flow.andThen_eq_go fed
    exact ih (pixel p s u h first) rest

theorem feedPixels_keeps_valueRunInv {ps : List Byte} {s t : State} (m : s.mode.isValueRun = true)
    (inv : ValueRunInv s) (h : feedPixels ps s = .go t) : ValueRunInv t :=
  (feedPixels_go_keeps (P := fun u => u.mode.isValueRun = true ∧ ValueRunInv u) (fun p t u ⟨ht, it⟩ e => by
    have mode := (pixelStep_emits p t).mode_of_go e
    rw [pixelStep_of_isValueRun ht] at e
    refine ⟨by rw [mode, ht], vrStep_keeps_valueRunInv ht it (fun packed => ?_) e⟩
    rw [packed]
    exact prepVR_lt _ _) ⟨m, inv⟩ h).2

theorem feedPixels_keeps_bitRunInv {ps : List Byte} {s t : State} (m : s.mode.isValueRun = false)
    (inv : BitRunInv s) (h : feedPixels ps s = .go t) : BitRunInv t :=
  (feedPixels_go_keeps (P := fun u => u.mode.isValueRun = false ∧ BitRunInv u) (fun p t u ⟨ht, it⟩ e => by
    have mode := (pixelStep_emits p t).mode_of_go e
    rw [pixelStep_of_not_isValueRun ht] at e
    exact ⟨by rw [mode, ht], brStep_keeps_bitRunInv ht it e⟩) ⟨m, inv⟩ h).2

/-! ### The flush clears the registers (R98, R118) -/

theorem vrFlush_runClear {s t : State} (inv : ValueRunInv s) (h : vrFlush s = .go t) : RunClear t := by
  have bits := vrFlush_sameBits s
  rw [h] at bits
  obtain ⟨b1, b2, b3⟩ := bits
  obtain ⟨i1, i2, i3⟩ := inv.unused
  obtain ⟨u, -, e⟩ := Flow.andThen_eq_go h
  cases e
  exact ⟨rfl, rfl, rfl, b1.trans i1, b2.trans i2, b3.trans i3⟩

/-- After the zero pad no count is held (R118). -/
theorem padNibble_nibValid {s t : State} (unused : s.mode ≠ .brPacked → s.nibValid = false)
    (h : padNibble s = .go t) : t.nibValid = false := by
  unfold padNibble at h
  split at h
  · obtain ⟨u, -, e⟩ := Flow.andThen_eq_go h
    cases e
    rfl
  · rename_i held
    cases h
    by_cases packed : s.mode = .brPacked
    · simpa [packed] using held
    · exact unused packed

theorem brFlush_runClear {s t : State} (inv : BitRunInv s) (h : brFlush s = .go t) : RunClear t := by
  have run := brFlush_sameRun s
  rw [h] at run
  obtain ⟨valid, val⟩ := run
  obtain ⟨i1, i2⟩ := inv.unused
  obtain ⟨u, padded, e⟩ := Flow.andThen_eq_go h
  cases e
  obtain ⟨v, counted, padded⟩ := Flow.andThen_eq_go padded
  refine ⟨valid.trans i1, val.trans i2, rfl, rfl, ?_, rfl⟩
  refine padNibble_nibValid (t := u) (fun ne => ?_) padded
  split at counted
  · cases counted
    exact (inv.nibble ne).1
  · have same : s.mode ≠ .brPacked → SameNibble s (emitCount s.runCnt s).state := emitCount_sameNibble
    rw [counted] at same
    rw [(emitCount_emits s.runCnt s).mode_of_go counted] at ne
    exact (same ne).1.trans (inv.nibble ne).1

/-! ### The range of `out_count` (R10, R130) -/

/-- `out_count` lies in its range. -/
def OutCountFits (s : State) : Prop := fitsWidth s.params.offw s.outCount = true

theorem fitsWidth_succ {w : Option Nat} {n : Nat} (h : fitsWidth w n = true) (notFull : counterFull w n = false) :
    fitsWidth w (n + 1) = true := by
  cases w with
  | none => rfl
  | some k =>
    simp only [fitsWidth, counterFull, decide_eq_true_eq, beq_eq_false_iff_ne] at h notFull ⊢
    omega

@[simp] theorem fitsWidth_zero (w : Option Nat) : fitsWidth w 0 = true := by
  cases w <;> simp [fitsWidth]

section
variable {s : State}

theorem emitByte_fits (v : Byte) (h : OutCountFits s) : OutCountFits (emitByte v s).state := by
  unfold emitByte
  split
  · exact h
  · rename_i notFull
    exact fitsWidth_succ h (by simpa using notFull)

theorem emitRun_fits (c v : Byte) (h : OutCountFits s) : OutCountFits (emitRun c v s).state := by
  unfold emitRun
  split
  · exact Flow.andThen_state (emitByte_fits c h) fun t _ ht => emitByte_fits v ht
  · exact emitByte_fits _ h
  · exact h
  · exact h

theorem vrExtend_fits (q : Byte) (h : OutCountFits s) : OutCountFits (vrExtend q s).state := by
  unfold vrExtend
  split
  · exact h
  · split
    · exact h
    · exact Flow.andThen_state (emitRun_fits _ _ h) fun _ _ ht => ht

theorem vrSaturate_fits (h : OutCountFits s) : OutCountFits (vrSaturate s).state := by
  unfold vrSaturate
  split
  · exact Flow.andThen_state (emitRun_fits _ _ h) fun _ _ ht => ht
  · exact h

theorem vrFlush_fits (h : OutCountFits s) : OutCountFits (vrFlush s).state := by
  refine Flow.andThen_state (P := OutCountFits) ?_ fun _ _ ht => ht
  split
  · exact emitRun_fits _ _ h
  · exact h

theorem emitBrPackedByte_fits (hi lo : Nibble) (h : OutCountFits s) : OutCountFits (emitBrPackedByte hi lo s).state :=
  Flow.andThen_state (emitByte_fits _ h) fun _ _ ht => ht

theorem emitCount_fits (c : Byte) (h : OutCountFits s) : OutCountFits (emitCount c s).state := by
  unfold emitCount
  split
  · exact emitByte_fits c h
  · split
    · exact emitBrPackedByte_fits _ _ h
    · exact h
  · exact h
  · exact h

theorem brStep_fits (b : Bool) (h : OutCountFits s) : OutCountFits (brStep b s).state := by
  unfold brStep
  split
  · dsimp only
    split
    · exact Flow.andThen_state (emitCount_fits (s := s.setBitRun s.tgt (s.runCnt + 1)) _ h) fun _ _ ht => ht
    · exact h
  · exact Flow.andThen_state (emitCount_fits _ h) fun _ _ ht => ht

theorem padNibble_fits (h : OutCountFits s) : OutCountFits (padNibble s).state := by
  unfold padNibble
  split
  · exact emitBrPackedByte_fits _ _ h
  · exact h

theorem brFlush_fits (h : OutCountFits s) : OutCountFits (brFlush s).state := by
  refine Flow.andThen_state (P := OutCountFits)
    (Flow.andThen_state (P := OutCountFits) ?_ fun _ _ ht => padNibble_fits ht) fun _ _ ht => ht
  split
  · exact h
  · exact emitCount_fits _ h

theorem pixelStep_fits (p : Byte) (h : OutCountFits s) : OutCountFits (pixelStep p s).state := by
  unfold pixelStep
  split
  · exact Flow.andThen_state (vrExtend_fits _ h) fun _ _ ht => vrSaturate_fits ht
  · exact brStep_fits _ h

theorem feedPixels_fits (ps : List Byte) (h : OutCountFits s) : OutCountFits (feedPixels ps s).state :=
  feedPixels_keeps ps (fun p _ ht => pixelStep_fits p ht) h

theorem flushChunk_fits (h : OutCountFits s) : OutCountFits (flushChunk s).state := by
  unfold flushChunk
  split
  · exact vrFlush_fits h
  · exact brFlush_fits h

end

/-! ### The invariant without the phases

`BlockInv` is a part about the counters and the events, which holds in every phase and which emitted bytes keep, and a
part about the phase. -/

/-- The clauses of `BlockInv` that ask for no phase (R10, R42, R43, R51, R131, R219). -/
structure Accounted (s : State) : Prop where
  ranges : fitsWidth s.params.offw s.outCount = true ∧
    fitsWidth s.params.offw s.inCount = true ∧ fitsWidth s.params.idxw s.chunkIdx = true
  outCount : s.outCount = (blob s).length
  addressed : wellAddressed 0 0 (runEvents s) = true
  marks : s.resetAt ≤ s.runAt ∧ s.runAt ≤ s.events.length
  taken : s.bytesTaken ≤ (bytesOf s.events).length ∧ s.offsTaken ≤ (recordsOf s.events).length

theorem BlockInv.accounted {s : State} (h : BlockInv s) : Accounted s :=
  ⟨h.ranges, h.outCount, h.addressed, h.marks, h.taken⟩

/-- Emitted bytes are accounted for, while `out_count` stays in its range. -/
theorem Accounted.grew {s t : State} {l : List Byte} (a : Accounted s) (g : Grew s t l) (fits : OutCountFits t) :
    Accounted t := by
  obtain ⟨-, inRange, idxRange⟩ := a.ranges
  obtain ⟨reset_le, run_le⟩ := a.marks
  obtain ⟨bytes, offs⟩ := a.taken
  have run := runEvents_append (byteEvents l) run_le g.runAt g.events
  refine ⟨⟨fits, ?_, ?_⟩, ?_, ?_, ⟨?_, ?_⟩, ?_, ?_⟩
  · rwa [g.params, g.inCount]
  · rwa [g.params, g.chunkIdx]
  · rw [g.outCount, blob, run, a.outCount, blob]
    simp
  · rw [run, wellAddressed_append, a.addressed]
    simp
  · rwa [g.resetAt, g.runAt]
  · rw [g.runAt, g.events, List.length_append]
    omega
  · rw [g.bytesTaken, g.events, bytesOf_append, List.length_append]
    omega
  · rw [g.offsTaken, g.events, recordsOf_append, List.length_append]
    omega

/-- Emitted bytes are no records. -/
theorem Grew.offsetTable {s t : State} {l : List Byte} (g : Grew s t l) (marks : s.runAt ≤ s.events.length) :
    offsetTable t = offsetTable s := by
  rw [Machine.offsetTable, runEvents_append (byteEvents l) marks g.runAt g.events]
  simp [Machine.offsetTable]

theorem Accounted.setPhase {s : State} (a : Accounted s) (p : Phase) : Accounted (s.setPhase p) :=
  ⟨a.ranges, a.outCount, a.addressed, a.marks, a.taken⟩

theorem Accounted.setInCount {s : State} (a : Accounted s) (notFull : counterFull s.params.offw s.inCount = false) :
    Accounted (s.setInCount (s.inCount + 1)) := by
  obtain ⟨out, inRange, idx⟩ := a.ranges
  exact ⟨⟨out, fitsWidth_succ inRange notFull, idx⟩, a.outCount, a.addressed, a.marks, a.taken⟩

theorem Accounted.setChunkIdx {s : State} (a : Accounted s)
    (notFull : counterFull s.params.idxw s.chunkIdx = false) : Accounted (s.setChunkIdx (s.chunkIdx + 1)) := by
  obtain ⟨out, inRange, idx⟩ := a.ranges
  exact ⟨⟨out, inRange, fitsWidth_succ idx notFull⟩, a.outCount, a.addressed, a.marks, a.taken⟩

/-- In `FAULT` the invariant is the accounts and the recorded code. -/
theorem BlockInv.of_fault {s : State} (a : Accounted s) (p : s.phase = .fault) (code : s.faultCode ≠ .noFault) :
    BlockInv s where
  faultCode := iff_of_true p code
  unconf := fun e => by simp [p] at e
  idle := fun e => by simp [p] at e
  valueRun := fun e => by simp [p] at e
  bitRun := fun e => by simp [p] at e
  ranges := a.ranges
  openIndex := fun e => by simp [p] at e
  outCount := a.outCount
  records := fun ne => absurd p ne
  addressed := a.addressed
  marks := a.marks
  taken := a.taken

/-- In `IDLE` it is the accounts, the cleared registers and one record a chunk. -/
theorem BlockInv.of_idle {s : State} (a : Accounted s) (p : s.phase = .idle) (code : s.faultCode = .noFault)
    (clear : RunClear s) (records : (offsetTable s).length = s.chunkIdx) : BlockInv s where
  faultCode := iff_of_false (by simp [p]) (by simp [code])
  unconf := fun e => by simp [p] at e
  idle := fun _ => clear
  valueRun := fun e => by simp [p] at e
  bitRun := fun e => by simp [p] at e
  ranges := a.ranges
  openIndex := fun e => by simp [p] at e
  outCount := a.outCount
  records := fun _ => by simpa [p] using records
  addressed := a.addressed
  marks := a.marks
  taken := a.taken

/-- In `CHUNK` it is the accounts, the family's rules, and one record more than closed chunks. -/
theorem BlockInv.of_chunk {s : State} (a : Accounted s) (p : s.phase = .chunk) (code : s.faultCode = .noFault)
    (valueRun : s.mode.isValueRun = true → ValueRunInv s) (bitRun : s.mode.isValueRun = false → BitRunInv s)
    (openIndex : counterFull s.params.idxw s.chunkIdx = false)
    (records : (offsetTable s).length = s.chunkIdx + 1) : BlockInv s where
  faultCode := iff_of_false (by simp [p]) (by simp [code])
  unconf := fun e => by simp [p] at e
  idle := fun e => by simp [p] at e
  valueRun := fun _ => valueRun
  bitRun := fun _ => bitRun
  ranges := a.ranges
  openIndex := fun _ => openIndex
  outCount := a.outCount
  records := fun _ => by simpa [p] using records
  addressed := a.addressed
  marks := a.marks
  taken := a.taken

/-! ### Every command keeps the invariant -/

section
variable {s t : State}

theorem BlockInv.noFault (inv : BlockInv s) (p : s.phase ≠ .fault) : s.faultCode = .noFault := by
  by_contra code
  exact p (inv.faultCode.mpr code)

theorem BlockInv.raiseFault (inv : BlockInv s) {c : FaultCode} (code : c ≠ .noFault) : BlockInv (raiseFault c s) :=
  .of_fault (inv.accounted.grew (.raiseFault c s) inv.ranges.1) rfl code

theorem rejectIllegal_keeps_inv (inv : BlockInv s) (h : rejectIllegal s = .next t) : BlockInv t := by
  obtain ⟨-, rfl⟩ | ⟨-, rfl⟩ := rejectIllegal_cases h
  · exact inv
  · exact inv.raiseFault (by decide)

/-- From the end of the events on, a new run has no bytes and no records. -/
theorem runEvents_markRun (s : State) : runEvents s.markRun = [] := by simp [runEvents]

theorem execCfg_keeps_inv {m : Mode} {c : BppCode} (inv : BlockInv s) (h : execCfg m c s = .next t) : BlockInv t := by
  obtain ⟨-, rfl⟩ | ⟨-, rfl⟩ | ⟨p, rfl⟩ := execCfg_cases h
  · exact inv
  · exact inv.raiseFault (by decide)
  · have run : runEvents (configure m c s) = [] := runEvents_markRun s
    have notFault : s.phase ≠ .fault := by obtain p | p := p <;> simp [p]
    refine .of_idle ⟨⟨fitsWidth_zero _, fitsWidth_zero _, fitsWidth_zero _⟩, ?_, ?_,
      ⟨inv.marks.1.trans inv.marks.2, Nat.le_refl _⟩, inv.taken⟩ rfl (inv.noFault notFault)
      ⟨rfl, rfl, rfl, rfl, rfl, rfl⟩ ?_
    · rw [blob, run]
      rfl
    · rw [run]
      rfl
    · rw [offsetTable, run]
      rfl

/-- The record of `BEGIN` is the next one, and addresses the next byte (R43, R51). -/
theorem openChunk_accounted (a : Accounted s) (records : (offsetTable s).length = s.chunkIdx) :
    Accounted (openChunk s) := by
  obtain ⟨reset_le, run_le⟩ := a.marks
  obtain ⟨bytes, offs⟩ := a.taken
  have run : runEvents (openChunk s) = runEvents s ++ [.off s.chunkIdx s.outCount] :=
    runEvents_append _ run_le rfl rfl
  have ev : (openChunk s).events = s.events ++ [.off s.chunkIdx s.outCount] := rfl
  refine ⟨a.ranges, ?_, ?_, ⟨reset_le, ?_⟩, ?_, ?_⟩
  · have out : (openChunk s).outCount = s.outCount := rfl
    rw [blob, run, out, a.outCount, blob]
    simp [bytesOf]
  · have index : (recordsOf (runEvents s)).length = s.chunkIdx := by simpa [offsetTable] using records
    have value : (bytesOf (runEvents s)).length = s.outCount := a.outCount.symm
    rw [run, wellAddressed_append, a.addressed, index, value]
    simp [wellAddressed]
  · rw [ev, List.length_append]
    exact Nat.le_add_right_of_le run_le
  · rw [ev, bytesOf_append, List.length_append]
    exact Nat.le_add_right_of_le bytes
  · rw [ev, recordsOf_append, List.length_append]
    exact Nat.le_add_right_of_le offs

theorem execBegin_keeps_inv (inv : BlockInv s) (h : execBegin s = .next t) : BlockInv t := by
  obtain ⟨-, rfl⟩ | ⟨-, rfl⟩ | ⟨-, -, rfl⟩ | ⟨p, notFull, rfl⟩ := execBegin_cases h
  · exact inv
  · exact inv.raiseFault (by decide)
  · exact inv.raiseFault (by decide)
  · have records : (offsetTable s).length = s.chunkIdx := by simpa [p] using inv.records (by simp [p])
    have run : runEvents (openChunk s) = runEvents s ++ [.off s.chunkIdx s.outCount] :=
      runEvents_append _ inv.marks.2 rfl rfl
    refine .of_chunk (openChunk_accounted inv.accounted records) rfl (inv.noFault (by simp [p]))
      (fun _ => ?_) (fun _ => ?_) notFull ?_
    · exact ⟨fun e => (nomatch e), fun _ => rfl, ⟨rfl, rfl, rfl⟩, fun _ => by simp [openChunk]⟩
    · exact ⟨Nat.zero_le _, ⟨rfl, rfl⟩, fun _ => ⟨rfl, rfl⟩⟩
    · have index : (openChunk s).chunkIdx = s.chunkIdx := rfl
      rw [index, ← records, offsetTable, run]
      simp [offsetTable, recordsOf]

theorem execPush_keeps_inv {b : Byte} (inv : BlockInv s) (h : execPush b s = .next t) : BlockInv t := by
  obtain ⟨-, rfl⟩ | ⟨-, rfl⟩ | ⟨-, -, rfl⟩ | ⟨p, notFull, rfl⟩ := execPush_cases h
  · exact inv
  · exact inv.raiseFault (by decide)
  · exact inv.raiseFault (by decide)
  · have counted : Accounted (s.setInCount (s.inCount + 1)) := inv.accounted.setInCount notFull
    have fits := feedPixels_fits (unpack s.bppc b) counted.ranges.1
    have emits := feedPixels_emits (unpack s.bppc b) (s.setInCount (s.inCount + 1))
    cases fed : feedPixels (unpack s.bppc b) (s.setInCount (s.inCount + 1)) with
    | stop u =>
      rw [fed] at fits emits
      obtain ⟨l, g, phase, code, -⟩ := emits
      exact .of_fault (counted.grew g fits) phase (by simp [code])
    | go u =>
      rw [fed] at fits emits
      obtain ⟨l, g, phase, code⟩ := emits
      change BlockInv u
      refine .of_chunk (counted.grew g fits) (phase.trans p) (code.trans (inv.noFault (by simp [p])))
        (fun m => ?_) (fun m => ?_) ?_ ?_
      · have m : s.mode.isValueRun = true := by rwa [g.mode] at m
        have i := inv.valueRun p m
        exact feedPixels_keeps_valueRunInv (s := s.setInCount (s.inCount + 1)) m
          ⟨i.inProgress, i.none, i.unused, i.prepared⟩ fed
      · have m : s.mode.isValueRun = false := by rwa [g.mode] at m
        have i := inv.bitRun p m
        exact feedPixels_keeps_bitRunInv (s := s.setInCount (s.inCount + 1)) m
          ⟨i.count, i.unused, i.nibble⟩ fed
      · simpa [g.params, g.chunkIdx] using inv.openIndex p
      · have index : u.chunkIdx = s.chunkIdx := g.chunkIdx
        have table : offsetTable u = offsetTable s := g.offsetTable counted.marks.2
        rw [table, index]
        simpa [p] using inv.records (by simp [p])

theorem flushChunk_runClear (inv : BlockInv s) (p : s.phase = .chunk) (h : flushChunk s = .go t) : RunClear t := by
  cases m : s.mode.isValueRun with
  | true =>
    rw [flushChunk_of_isValueRun m] at h
    exact vrFlush_runClear (inv.valueRun p m) h
  | false =>
    rw [flushChunk_of_not_isValueRun m] at h
    exact brFlush_runClear (inv.bitRun p m) h

theorem execEnd_keeps_inv (inv : BlockInv s) (h : execEnd s = .next t) : BlockInv t := by
  have fits := flushChunk_fits inv.ranges.1
  have emits := flushChunk_emits s
  obtain ⟨-, rfl⟩ | ⟨-, rfl⟩ | ⟨-, stop⟩ | ⟨p, u, go, rfl⟩ := execEnd_cases h
  · exact inv
  · exact inv.raiseFault (by decide)
  · rw [stop] at fits emits
    obtain ⟨l, g, phase, code, -⟩ := emits
    exact .of_fault (inv.accounted.grew g fits) phase (by simp [code])
  · rw [go] at fits emits
    obtain ⟨l, g, -, code⟩ := emits
    have notFull : counterFull u.params.idxw u.chunkIdx = false := by
      rw [g.params, g.chunkIdx]
      exact inv.openIndex p
    have table : offsetTable u = offsetTable s := g.offsetTable inv.marks.2
    refine .of_idle (((inv.accounted.grew g fits).setChunkIdx notFull).setPhase .idle) rfl
      (code.trans (inv.noFault (by simp [p]))) (flushChunk_runClear (t := u) inv p go) ?_
    change (offsetTable u).length = u.chunkIdx + 1
    rw [table, g.chunkIdx]
    simpa [p] using inv.records (by simp [p])

theorem stepWord_keeps_inv {w : CmdWord} (inv : BlockInv s) (h : stepWord w s = .next t) : BlockInv t := by
  obtain h | rfl | ⟨m, c, -, h⟩ | ⟨-, h⟩ | ⟨b, -, h⟩ | ⟨-, h⟩ := stepWord_cases h
  · exact rejectIllegal_keeps_inv inv h
  · exact inv
  · exact execCfg_keeps_inv inv h
  · exact execBegin_keeps_inv inv h
  · exact execPush_keeps_inv inv h
  · exact execEnd_keeps_inv inv h

end

/-! ### The host's other inputs -/

/-- The clauses about registers and events, with other inputs to come and other numbers of events taken. -/
theorem BlockInv.host {s : State} (inv : BlockInv s) (l : List Input) {n k : Nat}
    (taken : n ≤ (bytesOf s.events).length ∧ k ≤ (recordsOf s.events).length) :
    BlockInv { s with pending := l, bytesTaken := n, offsTaken := k } where
  faultCode := inv.faultCode
  unconf := inv.unconf
  idle := inv.idle
  valueRun := fun p m => { inv.valueRun p m with }
  bitRun := fun p m => { inv.bitRun p m with }
  ranges := inv.ranges
  openIndex := inv.openIndex
  outCount := inv.outCount
  records := inv.records
  addressed := inv.addressed
  marks := inv.marks
  taken := taken

theorem takeByte_keeps_inv {s : State} (inv : BlockInv s) : BlockInv (takeByte s) := by
  unfold takeByte
  split
  · exact inv
  · rename_i nonempty
    refine inv.host s.pending ⟨?_, inv.taken.2⟩
    simp [blobChannel] at nonempty
    omega

theorem takeOffset_keeps_inv {s : State} (inv : BlockInv s) : BlockInv (takeOffset s) := by
  unfold takeOffset
  split
  · exact inv
  · rename_i nonempty
    refine inv.host s.pending ⟨inv.taken.1, ?_⟩
    simp [offsetChannel] at nonempty
    omega

/-- In `UNCONF` with everything 0 and an empty run the invariant is that the host took no more than there was. -/
theorem resetBlock_inv {s : State}
    (taken : s.bytesTaken ≤ (bytesOf s.events).length ∧ s.offsTaken ≤ (recordsOf s.events).length) :
    BlockInv (resetBlock s) := by
  have run : runEvents (resetBlock s) = [] := by simp [runEvents]
  refine
    { faultCode := iff_of_false (by simp [State.reset]) (by simp [State.reset])
      unconf := fun _ => ⟨rfl, rfl, rfl, rfl, rfl, rfl, rfl, rfl, rfl⟩
      idle := fun e => nomatch e
      valueRun := fun e => nomatch e
      bitRun := fun e => nomatch e
      ranges := ⟨fitsWidth_zero _, fitsWidth_zero _, fitsWidth_zero _⟩
      openIndex := fun e => nomatch e
      outCount := ?_
      records := fun _ => ?_
      addressed := ?_
      marks := ⟨Nat.le_refl _, Nat.le_refl _⟩
      taken := taken }
  · rw [blob, run]
    rfl
  · rw [offsetTable, run]
    rfl
  · rw [run]
    rfl

/-- Settles O49: a reset block that was handed nothing. -/
theorem resetStateMeetsTheInvariant : Obligations.ResetStateMeetsTheInvariant :=
  resetBlock_inv (s := State.reset) ⟨Nat.le_refl _, Nat.le_refl _⟩

/-- Settles O50: every input of the host keeps the invariant. -/
theorem everyStepKeepsTheInvariant : Obligations.EveryStepKeepsTheInvariant := by
  intro s t inv h
  have waiting (rest : List Input) : BlockInv (s.setPending rest) := inv.host rest inv.taken
  obtain ⟨-, rfl⟩ | ⟨w, rest, -, h⟩ | ⟨rest, -, rfl⟩ | ⟨rest, -, rfl⟩ | ⟨rest, -, rfl⟩ := step_cases h
  · exact inv
  · exact stepWord_keeps_inv (waiting rest) h
  · exact resetBlock_inv inv.taken
  · exact takeByte_keeps_inv (waiting rest)
  · exact takeOffset_keeps_inv (waiting rest)

end Sys2Proof.Machine

/-! PROOFS for `PUSH`: with room, what a byte emits and leaves pending continues the run list (O17, R92) or the count
list (O18, R111) of the open chunk. Each is shown for one pixel, then for a list of pixels. -/

namespace Sys2Proof.Machine

/-- An accepted `PUSH` (R154) whose pixels raise no fault. -/
theorem execPush_fed {b : Byte} {s t : State} (p : s.phase = .chunk)
    (notFull : counterFull s.params.offw s.inCount = false)
    (fed : feedPixels (unpack s.bppc b) (s.setInCount (s.inCount + 1)) = .go t) : exec (.push b) s = .next t := by
  change execPush b s = .next t
  rw [execPush, runCommand_accepted (by simp [p]) (by simp [p])]
  simp [notFull, fed]

theorem unpack_ne_nil (c : BppCode) (b : Byte) : unpack c b ≠ [] := by
  rw [← List.length_pos_iff, length_unpack]
  cases c <;> decide

/-! ### Value runs -/

/-- `s` after the units of `runs` have left it and its run registers were written. -/
def State.afterRuns (s : State) (runs : List (Nat × Byte)) (valid : Bool) (val cnt : Byte) : State :=
  (s.emitted (packVR s.mode runs)).setRun valid val cnt

theorem State.afterRuns_nil (s : State) (valid : Bool) (val cnt : Byte) :
    s.afterRuns [] valid val cnt = s.setRun valid val cnt := by
  rw [State.afterRuns, packVR_nil, State.emitted_nil]

theorem State.afterRuns_afterRuns (s : State) (runs runs' : List (Nat × Byte)) (valid valid' : Bool)
    (val cnt val' cnt' : Byte) :
    (s.afterRuns runs valid val cnt).afterRuns runs' valid' val' cnt'
      = s.afterRuns (runs ++ runs') valid' val' cnt' := by
  rw [State.afterRuns, State.afterRuns, State.afterRuns, packVR_append, State.emitted_append]
  rfl

/-- R15 on the count of the run registers. -/
def ShortRun (cap : Nat) (valid : Bool) (cnt : Byte) : Prop :=
  if valid then 1 ≤ cnt.toNat ∧ cnt.toNat < cap else cnt = 0

theorem ValueRunInv.shortRun {s : State} (inv : ValueRunInv s) (m : s.mode.isValueRun = true) :
    ShortRun s.mode.cap s.runValid s.runCnt := by
  have cap := cap_of_isValueRun m
  unfold ShortRun
  split
  · obtain ⟨pos, le⟩ := inv.inProgress ‹_›
    omega
  · rename_i idle
    exact inv.none (by simpa using idle)

/-- The prepared pixels `qs`, fed to `s`, give the runs `runs`, with the run registers left at (`valid`, `val`, `cnt`):
whatever pixels come next, the run list is `runs` and then that of what is now pending. -/
structure ContinuesRuns (s : State) (qs : List Byte) (runs : List (Nat × Byte)) (valid : Bool) (val cnt : Byte) :
    Prop where
  short : ShortRun s.mode.cap valid cnt
  runList : ∀ rest, vRuns s.mode.cap (pendingPixels s ++ (qs ++ rest))
    = runs ++ vRuns s.mode.cap (pendingPixels (s.afterRuns runs valid val cnt) ++ rest)
  full : valid = false → (runs = [] ∧ s.runValid = false) ∨ ∃ v, runs.getLast? = some (s.mode.cap, v)
  length : runs.length ≤ qs.length

theorem ContinuesRuns.nil {s : State} (short : ShortRun s.mode.cap s.runValid s.runCnt) :
    ContinuesRuns s [] [] s.runValid s.runVal s.runCnt where
  short := short
  runList := fun _ => by
    rw [State.afterRuns_nil]
    rfl
  full := fun idle => .inl ⟨rfl, idle⟩
  length := Nat.le_refl _

theorem ContinuesRuns.append {s : State} {ps qs : List Byte} {a b : List (Nat × Byte)} {valid valid' : Bool}
    {val cnt val' cnt' : Byte} (x : ContinuesRuns s ps a valid val cnt)
    (y : ContinuesRuns (s.afterRuns a valid val cnt) qs b valid' val' cnt') :
    ContinuesRuns s (ps ++ qs) (a ++ b) valid' val' cnt' where
  short := y.short
  runList := fun rest => by
    have next := y.runList rest
    rw [State.afterRuns_afterRuns] at next
    rw [List.append_assoc, x.runList, List.append_assoc]
    exact congrArg _ next
  full := fun idle => by
    obtain ⟨noRuns, before⟩ | ⟨v, last⟩ := y.full idle
    · rw [noRuns, List.append_nil]
      exact x.full before
    · exact .inr ⟨v, by rw [List.getLast?_append, last]; rfl⟩
  length := by
    rw [List.length_append, List.length_append]
    exact Nat.add_le_add x.length y.length

theorem packVR_singleton {m : Mode} {c : Byte} (v : Byte) (pos : 1 ≤ c.toNat) (hm : m.isValueRun = true) :
    packVR m [(c.toNat, v)] = unitBytesVR m c v := by
  rw [packVR_cons m c v [] pos hm, packVR_nil, List.append_nil]

section
variable {s : State}

theorem pendingPixels_of_running (h : s.runValid = true) : pendingPixels s = List.replicate s.runCnt.toNat s.runVal :=
  if_pos h

theorem pendingPixels_of_idle (h : s.runValid = false) : pendingPixels s = [] := if_neg (by simp [h])

/-- R97: one prepared pixel, in the cases (a) to (d). -/
theorem vrStep_continues (q : Byte) (m : s.mode.isValueRun = true) (short : ShortRun s.mode.cap s.runValid s.runCnt) :
    ∃ runs valid val cnt, ContinuesRuns s [q] runs valid val cnt ∧
      (roomForBytes s (packVR s.mode runs).length = true → vrStep q s = .go (s.afterRuns runs valid val cnt)) := by
  have cap := cap_of_isValueRun m
  have one : ShortRun s.mode.cap true 1 := ⟨Nat.le_refl 1, by simp; omega⟩
  cases running : s.runValid with
  | false =>
    refine ⟨[], true, q, 1, ⟨one, fun rest => ?_, fun e => (nomatch e), Nat.zero_le _⟩, fun _ => ?_⟩
    · rw [State.afterRuns_nil, pendingPixels_of_idle running, pendingPixels_of_running rfl]
      rfl
    · rw [State.afterRuns_nil, vrStep_start q running]
  | true =>
    rw [running] at short
    obtain ⟨pos, lt⟩ := short
    have succ := toNat_succ_of_le (c := s.runCnt) (n := s.mode.cap - 1) (by omega) (by omega)
    by_cases eq : q = s.runVal
    · subst eq
      have longer (rest : List Byte) : pendingPixels s ++ ([s.runVal] ++ rest)
          = List.replicate (s.runCnt + 1).toNat s.runVal ++ rest := by
        rw [pendingPixels_of_running running, succ, List.replicate_succ', List.append_assoc]
      by_cases full : (s.runCnt + 1).toNat = s.mode.cap
      · have unit := packVR_singleton s.runVal (c := s.runCnt + 1) (by omega) m
        refine ⟨[((s.runCnt + 1).toNat, s.runVal)], false, s.runVal, 0,
          ⟨rfl, fun rest => ?_, fun _ => .inr ⟨s.runVal, by rw [full]; rfl⟩, Nat.le_refl _⟩, fun room => ?_⟩
        · rw [longer, pendingPixels_of_idle rfl]
          exact vRuns_replicate _ _ _ _ (by omega) (by omega) (.inl full)
        · rw [vrStep_saturate running full, State.afterRuns, unit]
          rw [unit] at room
          rw [emitRun_of_room (s := s.setRun true s.runVal (s.runCnt + 1)) m room]
          rfl
      · refine ⟨[], true, s.runVal, s.runCnt + 1,
          ⟨⟨by omega, by omega⟩, fun rest => ?_, fun e => (nomatch e), Nat.zero_le _⟩, fun _ => ?_⟩
        · rw [longer, State.afterRuns_nil, pendingPixels_of_running rfl]
          rfl
        · rw [State.afterRuns_nil, vrStep_extend running full]
    · have unit := packVR_singleton s.runVal pos m
      refine ⟨[(s.runCnt.toNat, s.runVal)], true, q, 1,
        ⟨one, fun rest => ?_, fun e => (nomatch e), Nat.le_refl _⟩, fun room => ?_⟩
      · rw [pendingPixels_of_running running, pendingPixels_of_running rfl]
        exact vRuns_replicate _ _ _ _ pos lt.le (.inr (by simpa using eq))
      · rw [vrStep_change running eq, State.afterRuns, unit]
        rw [unit] at room
        rw [emitRun_of_room m room]
        rfl

end

/-- R154 in the value-run family, for any number of pixels. -/
theorem feedPixels_continuesRuns (ps : List Byte) {s : State} (m : s.mode.isValueRun = true)
    (short : ShortRun s.mode.cap s.runValid s.runCnt) :
    ∃ runs valid val cnt, ContinuesRuns s (ps.map (prepVR s.mode s.bppc)) runs valid val cnt ∧
      (roomForBytes s (packVR s.mode runs).length = true →
        feedPixels ps s = .go (s.afterRuns runs valid val cnt)) := by
  induction ps generalizing s with
  | nil =>
    refine ⟨[], _, _, _, .nil short, fun _ => ?_⟩
    rw [State.afterRuns_nil]
    rfl
  | cons p ps ih =>
    obtain ⟨a, valid, val, cnt, x, first⟩ := vrStep_continues (prepVR s.mode s.bppc p) m short
    obtain ⟨b, valid', val', cnt', y, others⟩ := ih (s := s.afterRuns a valid val cnt) m x.short
    refine ⟨a ++ b, valid', val', cnt', x.append y, fun room => ?_⟩
    rw [packVR_append, List.length_append] at room
    rw [feedPixels, pixelStep_of_isValueRun m, first (roomForBytes_mono room (Nat.le_add_right _ _)),
      Flow.andThen_go, others, State.afterRuns_afterRuns]
    exact (roomForBytes_emitted s (packVR s.mode a) _).trans room

/-- The run now pending is the rest of the run list. -/
theorem vRuns_pending {cap : Nat} {valid : Bool} {val cnt : Byte} (short : ShortRun cap valid cnt) :
    vRuns cap (if valid then List.replicate cnt.toNat val else []) = if valid then [(cnt.toNat, val)] else [] := by
  cases valid with
  | false => rfl
  | true =>
    obtain ⟨pos, lt⟩ := short
    have single := vRuns_replicate cap cnt.toNat val [] pos lt.le (.inr (by simp))
    rwa [List.append_nil] at single

/-- R143: a pixel writes at most one unit. -/
theorem length_packVR_le {m : Mode} {c : BppCode} {runs : List (Nat × Byte)} (hm : m.isValueRun = true)
    (le : runs.length ≤ c.ppb) : (packVR m runs).length ≤ maxPushBytes m c := by
  cases m with
  | vrWide =>
    simp only [packVR, packVRWide, maxPushBytes, List.length_flatMap, List.length_cons, List.length_nil,
      List.map_const', List.sum_replicate, smul_eq_mul]
    omega
  | vrPacked => simpa [packVR, packVRPacked, maxPushBytes] using le
  | brWide => cases hm
  | brPacked => cases hm

/-- Settles O17: the pixels of one byte, of which R143's bound leaves room for all the units. -/
theorem pushContinuesTheRunList : Obligations.PushContinuesTheRunList := by
  intro s b p m inv notFull room
  obtain ⟨runs, valid, val, cnt, x, fed⟩ := feedPixels_continuesRuns (unpack s.bppc b)
    (s := s.setInCount (s.inCount + 1)) m (inv.shortRun m)
  have bound : (packVR s.mode runs).length ≤ maxPushBytes s.mode s.bppc :=
    length_packVR_le m (by simpa [length_unpack] using x.length)
  refine ⟨valid, val, cnt, runs, execPush_fed p notFull (fed (roomForBytes_mono room bound)), ?_, ?_, bound⟩
  · have list := x.runList []
    rw [List.append_nil, List.append_nil] at list
    exact list.trans (congrArg _ (vRuns_pending x.short))
  · have short := x.short
    cases valid with
    | true => exact short.2
    | false =>
      refine ⟨short, fun r last => ?_⟩
      obtain ⟨noRuns, -⟩ | ⟨v, last'⟩ := x.full rfl
      · simp [noRuns] at last
      · rw [last] at last'
        cases last'
        rfl

/-! ### Bit runs -/

/-- `s` after the counts `packed` have left it and its bit-run and nibble registers were written. -/
def State.afterCounts (s : State) (packed : List Nat) (t : Bool) (cnt : Byte) (valid : Bool) (hold : Nibble) : State :=
  ((s.emitted (packBR s.mode packed)).setBitRun t cnt).setNibble valid hold

theorem State.afterCounts_nil (s : State) (t : Bool) (cnt : Byte) :
    s.afterCounts [] t cnt s.nibValid s.nibHold = s.setBitRun t cnt := by
  rw [State.afterCounts, packBR_nil, State.emitted_nil]
  rfl

theorem State.afterCounts_afterCounts (s : State) {a b : List Nat} (even : s.mode = .brPacked → a.length % 2 = 0)
    (t t' valid valid' : Bool) (cnt cnt' : Byte) (hold hold' : Nibble) :
    (s.afterCounts a t cnt valid hold).afterCounts b t' cnt' valid' hold'
      = s.afterCounts (a ++ b) t' cnt' valid' hold' := by
  rw [State.afterCounts, State.afterCounts, State.afterCounts, packBR_append _ _ _ even, State.emitted_append]
  rfl

/-- The bits `bs`, fed to `s`, give the counts `counts`, of which `packed` go out, with the registers left at (`t`,
`cnt`, `valid`, `hold`): whatever bits come next, the count list is `counts` and then that of what is now pending. -/
structure ContinuesCounts (s : State) (bs : List Bool) (counts packed : List Nat) (t : Bool) (cnt : Byte) (valid : Bool)
    (hold : Nibble) : Prop where
  short : cnt.toNat < s.mode.cap
  packs : Packs s.mode s.nibValid s.nibHold counts packed valid hold
  countList : ∀ rest, bCountsFrom s.mode.cap s.tgt (pendingBits s ++ (bs ++ rest))
    = counts ++ bCountsFrom s.mode.cap t (List.replicate cnt.toNat t ++ rest)
  target : t = bs.getLast?.getD s.tgt
  full : cnt = 0 → (bs = [] ∧ counts = [] ∧ s.runCnt = 0) ∨ counts.getLast? = some s.mode.cap
  length : counts.length ≤ bs.length

theorem ContinuesCounts.nil {s : State} (short : s.runCnt.toNat < s.mode.cap) :
    ContinuesCounts s [] [] [] s.tgt s.runCnt s.nibValid s.nibHold where
  short := short
  packs := .nil _ _ _
  countList := fun _ => rfl
  target := rfl
  full := fun zero => .inl ⟨rfl, rfl, zero⟩
  length := Nat.le_refl _

theorem ContinuesCounts.append {s : State} {bs cs : List Bool} {a b p r : List Nat} {t t' valid valid' : Bool}
    {cnt cnt' : Byte} {hold hold' : Nibble} (x : ContinuesCounts s bs a p t cnt valid hold)
    (y : ContinuesCounts (s.afterCounts p t cnt valid hold) cs b r t' cnt' valid' hold') :
    ContinuesCounts s (bs ++ cs) (a ++ b) (p ++ r) t' cnt' valid' hold' where
  short := y.short
  packs := x.packs.append y.packs
  countList := fun rest => by
    rw [List.append_assoc, x.countList, List.append_assoc]
    exact congrArg _ (y.countList rest)
  target := by
    have last : t' = cs.getLast?.getD t := y.target
    rw [last, x.target, List.getLast?_append]
    cases cs.getLast? <;> rfl
  full := fun zero => by
    obtain ⟨noBits, noCounts, before⟩ | last := y.full zero
    · rw [noBits, noCounts, List.append_nil, List.append_nil]
      exact x.full before
    · exact .inr (by rw [List.getLast?_append, last]; rfl)
  length := by
    rw [List.length_append, List.length_append]
    exact Nat.add_le_add x.length y.length

/-- R117: one bit, in its three cases. -/
theorem brStep_continues (b : Bool) {s : State} (m : s.mode.isValueRun = false)
    (short : s.runCnt.toNat < s.mode.cap) :
    ∃ counts packed t cnt valid hold, ContinuesCounts s [b] counts packed t cnt valid hold ∧
      (roomForBytes s (packBR s.mode packed).length = true →
        brStep b s = .go (s.afterCounts packed t cnt valid hold)) := by
  have cap := cap_of_not_isValueRun m
  have succ := toNat_succ_of_le (c := s.runCnt) (n := s.mode.cap - 1) (by omega) (by omega)
  by_cases eq : b = s.tgt
  · subst eq
    have longer (rest : List Bool) : pendingBits s ++ ([s.tgt] ++ rest)
        = List.replicate (s.runCnt + 1).toNat s.tgt ++ rest := by
      rw [pendingBits, succ, List.replicate_succ', List.append_assoc]
    by_cases full : (s.runCnt + 1).toNat = s.mode.cap
    · obtain ⟨packed, v, h, packs, emit⟩ :=
        emitCount_packs (s := s.setBitRun s.tgt (s.runCnt + 1)) (c := s.runCnt + 1) m (by rw [full]; rfl)
      refine ⟨_, packed, s.tgt, 0, v, h, ⟨by simp; omega, packs, fun rest => ?_, rfl,
        fun _ => .inr (by rw [full]; rfl), Nat.le_refl _⟩, fun room => ?_⟩
      · rw [longer, full]
        exact bCountsFrom_full _ (by omega) _ _
      · rw [brStep_saturate full, emit room]
        rfl
    · refine ⟨[], [], s.tgt, s.runCnt + 1, s.nibValid, s.nibHold, ⟨by omega, .nil _ _ _, fun rest => ?_, rfl,
        fun zero => ?_, Nat.zero_le _⟩, fun _ => ?_⟩
      · rw [longer]
        rfl
      · rw [zero] at succ
        cases succ
      · rw [State.afterCounts_nil, brStep_extend full]
  · have other : b = !s.tgt := by cases b <;> cases h : s.tgt <;> simp_all
    obtain ⟨packed, v, h, packs, emit⟩ := emitCount_packs (c := s.runCnt) m short.le
    refine ⟨_, packed, b, 1, v, h, ⟨by simp; omega, packs, fun rest => ?_, rfl, fun e => absurd e (by decide),
      Nat.le_refl _⟩, fun room => ?_⟩
    · rw [other]
      exact bCountsFrom_change _ _ short _ _
    · rw [brStep_toggle eq, emit room, other]
      rfl

/-- R154 in the bit-run family, for any number of pixels. -/
theorem feedPixels_continuesCounts (ps : List Byte) {s : State} (m : s.mode.isValueRun = false)
    (short : s.runCnt.toNat < s.mode.cap) :
    ∃ counts packed t cnt valid hold, ContinuesCounts s (ps.map thresh) counts packed t cnt valid hold ∧
      (roomForBytes s (packBR s.mode packed).length = true →
        feedPixels ps s = .go (s.afterCounts packed t cnt valid hold)) := by
  induction ps generalizing s with
  | nil =>
    refine ⟨[], [], _, _, _, _, .nil short, fun _ => ?_⟩
    rw [State.afterCounts_nil]
    rfl
  | cons p ps ih =>
    obtain ⟨a, q, t, cnt, valid, hold, x, first⟩ := brStep_continues (thresh p) m short
    obtain ⟨b, r, t', cnt', valid', hold', y, others⟩ := ih (s := s.afterCounts q t cnt valid hold) m x.short
    have even : s.mode = .brPacked → q.length % 2 = 0 := fun packed => (x.packs.paired packed).2
    refine ⟨a ++ b, q ++ r, t', cnt', valid', hold', x.append y, fun room => ?_⟩
    rw [packBR_append _ _ _ even, List.length_append] at room
    rw [feedPixels, pixelStep_of_not_isValueRun m, first (roomForBytes_mono room (Nat.le_add_right _ _)),
      Flow.andThen_go, others, State.afterCounts_afterCounts _ even]
    exact (roomForBytes_emitted s (packBR s.mode q) _).trans room

/-- The bits now pending are the last count, if there are any. -/
theorem bCountsFrom_pending {cap : Nat} (t : Bool) {cnt : Byte} (short : cnt.toNat < cap) :
    bCountsFrom cap t (List.replicate cnt.toNat t) = if cnt = 0 then [] else [cnt.toNat] := by
  split
  · rename_i zero
    rw [zero]
    rfl
  · rename_i ne
    have pos : cnt.toNat ≠ 0 := fun zero => ne (BitVec.eq_of_toNat_eq zero)
    exact bCountsFrom_last cap _ (by omega) short t

/-- R143: a pixel produces at most one count, and a held one makes up a pair. -/
theorem Packs.length_packBR_le {m : Mode} {c : BppCode} {v0 v : Bool} {h0 h : Nibble} {counts packed : List Nat}
    (packs : Packs m v0 h0 counts packed v h) (hm : m.isValueRun = false) (le : counts.length ≤ c.ppb) :
    (packBR m packed).length ≤ maxPushBytes m c := by
  cases m with
  | vrWide => cases hm
  | vrPacked => cases hm
  | brWide =>
    obtain ⟨rfl, -, -⟩ := packs.wide rfl
    simpa [packBR, packBRWide, maxPushBytes] using le
  | brPacked =>
    obtain ⟨pairs, even⟩ := packs.paired rfl
    have total := congrArg List.length pairs
    have held : (if v0 then [h0.toNat] else []).length ≤ 1 := by cases v0 <;> simp
    rw [List.length_append, List.length_append] at total
    simp only [packBR, length_packBRPacked, maxPushBytes]
    omega

/-- Settles O18: the bits of one byte, of which R143's bound leaves room for all the counts. -/
theorem pushContinuesTheCountList : Obligations.PushContinuesTheCountList := by
  intro s b p m inv notFull room
  have cap := cap_of_not_isValueRun m
  have below : s.runCnt.toNat < s.mode.cap := by
    have := inv.count
    omega
  obtain ⟨counts, packed, t, cnt, valid, hold, x, fed⟩ := feedPixels_continuesCounts (unpack s.bppc b)
    (s := s.setInCount (s.inCount + 1)) m below
  have bound : (packBR s.mode packed).length ≤ maxPushBytes s.mode s.bppc :=
    x.packs.length_packBR_le m (by simpa [length_unpack] using x.length)
  have nonempty : (unpack s.bppc b).map thresh ≠ [] := by simpa using unpack_ne_nil s.bppc b
  refine ⟨t, valid, cnt, hold, counts, packed, execPush_fed p notFull (fed (roomForBytes_mono room bound)), ?_,
    x.short, fun zero => ?_, ?_, x.packs.wide, x.packs.paired, bound⟩
  · have list := x.countList []
    rw [List.append_nil, List.append_nil] at list
    exact list.trans (congrArg _ (bCountsFrom_pending t x.short))
  · obtain ⟨noBits, -, -⟩ | last := x.full zero
    · exact absurd noBits nonempty
    · exact last
  · have target := x.target
    rw [List.getLast?_eq_some_getLast nonempty] at target ⊢
    exact congrArg _ target.symm

end Sys2Proof.Machine

/-! PROOFS for what leaves the block (spec/20_memory.md): the two channels as the host drains them (O13), the events of
a step (O52), an emitted byte and a record at their addresses (O57, O58), and the empty block after `END` (O59). -/

namespace Sys2Proof.Machine

/-! ### Taking an event -/

@[simp] theorem takeByte_events (s : State) : (takeByte s).events = s.events := by
  unfold takeByte
  split <;> rfl

@[simp] theorem takeByte_pending (s : State) : (takeByte s).pending = s.pending := by
  unfold takeByte
  split <;> rfl

@[simp] theorem takeOffset_events (s : State) : (takeOffset s).events = s.events := by
  unfold takeOffset
  split <;> rfl

@[simp] theorem takeOffset_pending (s : State) : (takeOffset s).pending = s.pending := by
  unfold takeOffset
  split <;> rfl

theorem blobChannel_takeByte (s : State) : blobChannel (takeByte s) = (blobChannel s).tail := by
  unfold takeByte
  split
  · rename_i empty
    rw [List.isEmpty_iff.mp empty, List.tail_nil]
  · simp [blobChannel, List.tail_drop]

theorem offsetChannel_takeByte (s : State) : offsetChannel (takeByte s) = offsetChannel s := by
  unfold takeByte
  split <;> rfl

theorem offsetChannel_takeOffset (s : State) : offsetChannel (takeOffset s) = (offsetChannel s).tail := by
  unfold takeOffset
  split
  · rename_i empty
    rw [List.isEmpty_iff.mp empty, List.tail_nil]
  · simp [offsetChannel, List.tail_drop]

theorem blobChannel_takeOffset (s : State) : blobChannel (takeOffset s) = blobChannel s := by
  unfold takeOffset
  split <;> rfl

theorem step_takeByte {s : State} {rest : List Input} (h : s.pending = .takeByte :: rest) :
    step s = .next (takeByte (s.setPending rest)) := by
  rw [step, h]

theorem step_takeOffset {s : State} {rest : List Input} (h : s.pending = .takeOffset :: rest) :
    step s = .next (takeOffset (s.setPending rest)) := by
  rw [step, h]

/-- Settles O13: the next state is `takeByte` or `takeOffset` of the state without that input. -/
theorem takingAnEventChangesNoRegister : Obligations.TakingAnEventChangesNoRegister := by
  intro s rest
  refine ⟨fun h => ⟨_, step_takeByte h, blobChannel_takeByte _, offsetChannel_takeByte _,
    ⟨takeByte_toBlock _, takeByte_params _⟩, takeByte_events _, takeByte_pending _⟩, fun h => ?_⟩
  exact ⟨_, step_takeOffset h, offsetChannel_takeOffset _, blobChannel_takeOffset _,
    ⟨takeOffset_toBlock _, takeOffset_params _⟩, takeOffset_events _, takeOffset_pending _⟩

/-! ### The events of a step -/

/-- Settles O52: a word adds the events of the block's own transition (`outputIsNeverReadBack`), other inputs none. -/
theorem eventsAreNeverTakenBack : Obligations.EventsAreNeverTakenBack := by
  intro s t h
  obtain ⟨-, rfl⟩ | ⟨w, rest, -, h⟩ | ⟨rest, -, rfl⟩ | ⟨rest, -, rfl⟩ | ⟨rest, -, rfl⟩ := step_cases h
  · exact ⟨[], List.append_nil _⟩
  · obtain ⟨-, events, -⟩ := outputIsNeverReadBack _ _ w h
    exact ⟨_, events.symm⟩
  · exact ⟨[], List.append_nil _⟩
  · exact ⟨[], by simp⟩
  · exact ⟨[], by simp⟩

/-! ### Addresses -/

/-- Emitted bytes join the blob at its end (R42). -/
theorem Grew.blob {s t : State} {l : List Byte} (g : Grew s t l) (marks : s.runAt ≤ s.events.length) :
    blob t = blob s ++ l := by
  rw [Machine.blob, runEvents_append (byteEvents l) marks g.runAt g.events, bytesOf_append, bytesOf_byteEvents]
  rfl

theorem Grew.emitted (s : State) (l : List Byte) : Grew s (s.emitted l) l := by
  constructor <;> rfl

/-- An `EmitByte` that goes on emits its byte (R130). -/
theorem emitByte_go {v : Byte} {s t : State} (h : emitByte v s = .go t) : t = s.emitted [v] := by
  unfold emitByte at h
  split at h
  · cases h
  · cases h
    rfl

/-- Settles O57: the blob's length before the byte is `out_count` (R131). -/
theorem emittedByteHasItsAddress : Obligations.EmittedByteHasItsAddress := by
  intro s t v inv h
  have joined : blob t = blob s ++ [v] := by
    rw [emitByte_go h]
    exact (Grew.emitted s [v]).blob inv.marks.2
  rw [joined, inv.outCount]
  exact ⟨rfl, by simp, fun n lt => List.getElem?_append_left lt⟩

/-- `BEGIN` adds its record to the events of the run (R135, R153). -/
theorem runEvents_openChunk {s : State} (marks : s.runAt ≤ s.events.length) :
    runEvents (openChunk s) = runEvents s ++ [.off s.chunkIdx s.outCount] :=
  runEvents_append _ marks rfl rfl

/-- Settles O58: of the outcomes of `BEGIN` from a state of the invariant only the accepted one leaves a chunk open. -/
theorem recordCarriesTheBytesBeforeIt : Obligations.RecordCarriesTheBytesBeforeIt := by
  intro s t inv h opened
  obtain ⟨p, rfl⟩ | ⟨-, rfl⟩ | ⟨-, -, rfl⟩ | ⟨p, -, rfl⟩ := execBegin_cases h
  · rw [p] at opened
    cases opened
  · cases opened
  · cases opened
  · have run := runEvents_openChunk inv.marks.2
    have table : offsetTable (openChunk s) = offsetTable s ++ [(blob s).length] := by
      rw [offsetTable, run, ← inv.outCount]
      simp [offsetTable, recordsOf]
    have records : (offsetTable s).length = s.chunkIdx := by simpa [p] using inv.records (by simp [p])
    refine ⟨p, table, ?_, by rw [table, List.length_append, records]; rfl⟩
    rw [blob, run]
    simp [blob, bytesOf]

/-! ### After `END` -/

/-- In cleared registers no pixel, no bit and no count is left (R24). -/
theorem RunClear.nothing_pending {s : State} (clear : RunClear s) :
    pendingPixels s = [] ∧ pendingBits s = [] ∧ heldCount s = [] := by
  obtain ⟨valid, -, cnt, -, nib, -⟩ := clear
  simp [pendingPixels, pendingBits, heldCount, valid, cnt, nib]

/-- Settles O59: the flush of an `END` that ends in `IDLE` went through, and it clears the run-length registers. -/
theorem endLeavesNothingInside : Obligations.EndLeavesNothingInside := by
  intro s t inv p h idle
  have emits := flushChunk_emits s
  obtain ⟨f, -⟩ | ⟨u | i, -⟩ | ⟨-, stop⟩ | ⟨-, u, go, rfl⟩ := execEnd_cases h
  · rw [p] at f
    cases f
  · rw [p] at u
    cases u
  · rw [p] at i
    cases i
  · rw [stop] at emits
    obtain ⟨l, -, fault, -⟩ := emits
    rw [idle] at fault
    cases fault
  · rw [go] at emits
    obtain ⟨l, g, -⟩ := emits
    have clear := flushChunk_runClear inv p go
    obtain ⟨pixels, bits, held⟩ := clear.nothing_pending
    obtain ⟨valid, -, cnt, -, nib, -⟩ := clear
    exact ⟨valid, cnt, nib, pixels, bits, held, congrArg (· + 1) g.chunkIdx⟩

end Sys2Proof.Machine

/-! PROOFS for the offset table as the way into the blob (O48): the reference decoder gives the prepared pixels of a chunk
back from its encoding, whatever follows it (R180), and the blob of a run from an offset on begins with that chunk's encoding
(R49, R133). -/

namespace Sys2Proof.Machine

/-! ### A stream of segments -/

/-- What the inner loops of R92 and R111 count is a segment of equal elements. -/
theorem replicate_runLength_append_drop {α : Type} [DecidableEq α] (cap : Nat) (v : α) (s : List α) :
    List.replicate (runLength cap v s) v ++ s.drop (runLength cap v s) = s := by
  induction cap generalizing s with
  | zero => simp [runLength]
  | succ n ih =>
    cases s with
    | nil => simp [runLength]
    | cons x xs =>
      unfold runLength
      split
      · rename_i eq
        rw [List.replicate_succ, List.cons_append, List.drop_succ_cons, ih, eq]
      · rfl

/-- Induction over the rounds of R92. -/
theorem vRuns_induction (cap : Nat) {P : List Byte → Prop} (nil : P [])
    (round : ∀ v rest, P ((v :: rest).drop (1 + runLength (cap - 1) v rest)) → P (v :: rest))
    (s : List Byte) : P s := by
  induction len : s.length using Nat.strongRecOn generalizing s with
  | _ n ih =>
    cases s with
    | nil => exact nil
    | cons v rest =>
      have lt : ((v :: rest).drop (1 + runLength (cap - 1) v rest)).length < n := by
        rw [← len, List.length_drop, List.length_cons]
        omega
      exact round v rest (ih _ lt _ rfl)

/-- Induction over the rounds of R111. -/
theorem bCounts_induction {cap : Nat} (pos : 1 ≤ cap) {P : Bool → List Bool → Prop} (nil : ∀ t, P t [])
    (round : ∀ t x xs, P (if runLength cap t (x :: xs) < cap then !t else t)
      ((x :: xs).drop (runLength cap t (x :: xs))) → P t (x :: xs)) (t : Bool) (s : List Bool) : P t s := by
  induction rounds : bRounds t s using Nat.strongRecOn generalizing t s with
  | _ n ih =>
    cases s with
    | nil => exact nil t
    | cons x xs =>
      have lt := bRounds_round cap pos t x xs
      exact round t x xs (ih _ (by omega) _ _ rfl)

/-! ### Value runs -/

/-- R93: the counts of a run list lie between 1 and the capacity, and its values are pixels of the stream. -/
theorem mem_vRuns {cap : Nat} (pos : 1 ≤ cap) {s : List Byte} :
    ∀ r ∈ vRuns cap s, 1 ≤ r.1 ∧ r.1 ≤ cap ∧ r.2 ∈ s := by
  induction s using vRuns_induction cap with
  | nil => simp
  | round v rest ih =>
    rw [vRuns_cons]
    intro r hr
    obtain rfl | hr := List.mem_cons.mp hr
    · have le := runLength_le_cap (cap - 1) v rest
      exact ⟨Nat.le_add_right _ _, by simp only; omega, List.mem_cons_self⟩
    · obtain ⟨lo, hi, mem⟩ := ih r hr
      exact ⟨lo, hi, List.mem_of_mem_drop mem⟩

/-- R93: the runs, one after the other, are the stream. -/
theorem expandUnits_vRuns (cap : Nat) (s : List Byte) : expandUnits (vRuns cap s) = s := by
  induction s using vRuns_induction cap with
  | nil => rfl
  | round v rest ih =>
    rw [vRuns_cons]
    change List.replicate _ v ++ expandUnits _ = _
    rw [ih, Nat.add_comm, List.replicate_succ, List.cons_append, List.drop_succ_cons, replicate_runLength_append_drop]

theorem length_expandUnits (us : List (Nat × Byte)) : (expandUnits us).length = (us.map Prod.fst).sum := by
  simp [expandUnits, List.length_flatMap]

/-- R171: where the first units cover the destination exactly and none is empty, those are the needed ones. -/
theorem needUnits_append_sum (cs ds : List Nat) (pos : ∀ c ∈ cs, 1 ≤ c) : needUnits (cs ++ ds) cs.sum = cs.length := by
  induction cs with
  | nil => cases ds <;> rfl
  | cons c cs ih =>
    obtain ⟨hc, hcs⟩ := List.forall_mem_cons.mp pos
    obtain ⟨k, total⟩ : ∃ k, (c :: cs).sum = k + 1 := ⟨c + cs.sum - 1, by rw [List.sum_cons]; omega⟩
    have left : k + 1 - c = cs.sum := by rw [← total, List.sum_cons]; omega
    rw [total, List.cons_append, needUnits, left, ih hcs, List.length_cons, Nat.add_comm]
    exact Nat.succ_ne_zero k

theorem fillTo_length {α : Type} (free : Nat → α) (l : List α) : fillTo free l.length l = l := by
  simp [fillTo]

/-- The run lists that a value-run mode can pack: counts in its range, and in `VR_PACKED` values that fit a nibble. -/
def PackableRuns (m : Mode) (runs : List (Nat × Byte)) : Prop :=
  ∀ r ∈ runs, 1 ≤ r.1 ∧ r.1 ≤ m.cap ∧ (m = .vrPacked → r.2.toNat < 16)

/-- The fields of a packed byte (R67, R69), each read back. -/
theorem nibblePair_fields : ∀ hi lo : Nibble,
    (nibblePair hi lo >>> 4).toNat = hi.toNat ∧ nibblePair hi lo &&& 0xF = lo.setWidth 8 := by decide

/-- The first unit of a source that begins with a unit's bytes (R66, R67, R171, R172). -/
theorem unitsVR_unitBytesVR {m : Mode} (hm : m.isValueRun = true) {c v : Byte} (lo : 1 ≤ c.toNat) (hi : c.toNat ≤ m.cap)
    (nibble : m = .vrPacked → v.toNat < 16) (src : List Byte) :
    unitsVR m (unitBytesVR m c v ++ src) = (c.toNat, v) :: unitsVR m src := by
  cases m with
  | vrWide => rfl
  | vrPacked =>
    have count : ∀ c : Byte, 1 ≤ c.toNat → c.toNat ≤ 16 → (lowNibble (c - 1)).toNat + 1 = c.toNat := by decide
    have value : ∀ v : Byte, v.toNat < 16 → (lowNibble v).setWidth 8 = v := by decide
    obtain ⟨high, low⟩ := nibblePair_fields (lowNibble (c - 1)) (lowNibble v)
    rw [nibblePair_of_run] at high low
    rw [value v (nibble rfl)] at low
    change (_ + 1, _) :: unitsVRPacked src = _
    rw [high, low, count c lo hi]
    rfl
  | brWide => cases hm
  | brPacked => cases hm

/-- The units of a packed run list are its runs, whatever follows. -/
theorem unitsVR_packVR {m : Mode} {runs : List (Nat × Byte)} (hm : m.isValueRun = true) (ok : PackableRuns m runs)
    (src : List Byte) : unitsVR m (packVR m runs ++ src) = runs ++ unitsVR m src := by
  have cap := cap_of_isValueRun hm
  induction runs with
  | nil => rw [packVR_nil]; rfl
  | cons r runs ih =>
    obtain ⟨⟨lo, hi, nibble⟩, others⟩ := List.forall_mem_cons.mp ok
    obtain ⟨n, v⟩ := r
    obtain ⟨c, rfl⟩ : ∃ c : Byte, c.toNat = n := ⟨BitVec.ofNat 8 n, by simp at hi ⊢; omega⟩
    rw [packVR_cons m c v runs lo hm, List.append_assoc, unitsVR_unitBytesVR hm lo hi nibble, ih others,
      List.cons_append]

/-- Decoding a packed run list with its number of pixels gives its pixels. -/
theorem decVR_packVR {m : Mode} {runs : List (Nat × Byte)} (hm : m.isValueRun = true) (ok : PackableRuns m runs)
    (tail : List Byte) : decVR m (packVR m runs ++ tail) (expandUnits runs).length = expandUnits runs := by
  have need := needUnits_append_sum (runs.map Prod.fst) ((unitsVR m tail).map Prod.fst)
    (by simpa using fun c v mem => (ok (c, v) mem).1)
  rw [← length_expandUnits, List.length_map] at need
  simp only [decVR, unitsVR_packVR hm ok, List.map_append, need, List.take_left, List.take_length, fillTo_length]

theorem encodeChunk_of_isValueRun {m : Mode} (hm : m.isValueRun = true) (c : BppCode) (bytes : List Byte) :
    encodeChunk m c bytes = packVR m (vRuns m.cap (preparedVR m c bytes)) := by
  cases m with
  | vrWide => rfl
  | vrPacked => rfl
  | brWide => cases hm
  | brPacked => cases hm

theorem packableRuns_preparedVR {m : Mode} (hm : m.isValueRun = true) (c : BppCode) (bytes : List Byte) :
    PackableRuns m (vRuns m.cap (preparedVR m c bytes)) := by
  have cap := cap_of_isValueRun hm
  intro r hr
  obtain ⟨lo, hi, mem⟩ := mem_vRuns (by omega) r hr
  refine ⟨lo, hi, fun packed => ?_⟩
  obtain ⟨p, -, eq⟩ := List.mem_map.mp mem
  rw [← eq, packed]
  exact prepVR_lt c p

/-- R180 in the value-run family. -/
theorem decVR_encodeChunk {m : Mode} (hm : m.isValueRun = true) (c : BppCode) (bytes tail : List Byte) :
    decVR m (encodeChunk m c bytes ++ tail) (unpackChunk c bytes).length = preparedVR m c bytes := by
  have decoded := decVR_packVR hm (packableRuns_preparedVR hm c bytes) tail
  rw [expandUnits_vRuns] at decoded
  have length : (unpackChunk c bytes).length = (preparedVR m c bytes).length := by simp [preparedVR]
  rw [encodeChunk_of_isValueRun hm, length, decoded]

/-! ### Bit runs -/

/-- R114: no count is above the capacity. -/
theorem bCountsFrom_le_cap {cap : Nat} (pos : 1 ≤ cap) (t : Bool) (s : List Bool) :
    ∀ c ∈ bCountsFrom cap t s, c ≤ cap := by
  induction t, s using bCounts_induction pos with
  | nil => simp
  | round t x xs ih =>
    rw [bCountsFrom_cons cap pos]
    exact List.forall_mem_cons.mpr ⟨runLength_le_cap _ _ _, ih⟩

/-- R175: the count list of a stream, whatever follows it, gives the stream back. -/
theorem decBitsLoop_bCountsFrom {cap : Nat} (pos : 1 ≤ cap) (extra : List Nat) (t : Bool) (s : List Bool) :
    decBitsLoop cap t (bCountsFrom cap t s ++ extra) s.length = s := by
  induction t, s using bCounts_induction pos with
  | nil t => cases extra <;> rfl
  | round t x xs ih =>
    have le := runLength_le_length cap t (x :: xs)
    rw [List.length_drop] at ih
    rw [bCountsFrom_cons cap pos, List.cons_append, List.length_cons, decBitsLoop, ← List.length_cons (a := x),
      Nat.min_eq_left le, ih, replicate_runLength_append_drop]

/-- The two counts of a packed byte (R69), each read back. -/
theorem packedCounts_fields : ∀ c < 16, ∀ d < 16,
    ((BitVec.ofNat 8 c <<< 4 ||| BitVec.ofNat 8 d) >>> 4).toNat = c ∧
      ((BitVec.ofNat 8 c <<< 4 ||| BitVec.ofNat 8 d) &&& 0xF).toNat = d := by decide

theorem countsBR_packedByte {c d : Nat} (hc : c ≤ 15) (hd : d ≤ 15) (src : List Byte) :
    countsBR .brPacked ((BitVec.ofNat 8 c <<< 4 ||| BitVec.ofNat 8 d) :: src) = c :: d :: countsBR .brPacked src := by
  obtain ⟨first, second⟩ := packedCounts_fields c (Nat.lt_succ_of_le hc) d (Nat.lt_succ_of_le hd)
  change _ :: _ :: countsBR .brPacked src = _
  rw [first, second]

theorem countsBR_packBRPacked (tail : List Byte) : ∀ counts : List Nat, (∀ c ∈ counts, c ≤ 15) →
    ∃ extra, countsBR .brPacked (packBRPacked counts ++ tail) = counts ++ extra
  | [], _ => ⟨_, rfl⟩
  | [c], ok => by
    have padded := countsBR_packedByte (ok c (by simp)) (Nat.zero_le 15) tail
    rw [BitVec.or_zero] at padded
    exact ⟨_, padded⟩
  | c :: d :: counts, ok => by
    obtain ⟨extra, rest⟩ := countsBR_packBRPacked tail counts fun x mem => ok x (by simp [mem])
    refine ⟨extra, ?_⟩
    rw [packBRPacked, List.cons_append, countsBR_packedByte (ok c (by simp)) (ok d (by simp)), rest]
    rfl

/-- The counts of a packed count list are that list, then the zero pad, if any, and what follows (R68, R69, R178). -/
theorem countsBR_packBR {m : Mode} {counts : List Nat} (hm : m.isValueRun = false) (ok : ∀ c ∈ counts, c ≤ m.cap)
    (tail : List Byte) : ∃ extra, countsBR m (packBR m counts ++ tail) = counts ++ extra := by
  cases m with
  | vrWide => cases hm
  | vrPacked => cases hm
  | brWide =>
    refine ⟨tail.map BitVec.toNat, ?_⟩
    have read : ∀ c ∈ counts, (BitVec.ofNat 8 c).toNat = c := fun c mem => by
      rw [BitVec.toNat_ofNat]
      exact Nat.mod_eq_of_lt (Nat.lt_succ_of_le (ok c mem))
    rw [countsBR, packBR, packBRWide, List.map_append, List.map_map,
      List.map_congr_left (f := BitVec.toNat ∘ BitVec.ofNat 8) (g := id) read, List.map_id]
  | brPacked => exact countsBR_packBRPacked tail counts ok

theorem encodeChunk_of_not_isValueRun {m : Mode} (hm : m.isValueRun = false) (c : BppCode) (bytes : List Byte) :
    encodeChunk m c bytes = packBR m (bCounts m.cap (preparedBR c bytes)) := by
  cases m with
  | vrWide => cases hm
  | vrPacked => cases hm
  | brWide => rfl
  | brPacked => rfl

/-- R180 in the bit-run family. -/
theorem decBRBits_encodeChunk {m : Mode} (hm : m.isValueRun = false) (c : BppCode) (bytes tail : List Byte) :
    decBRBits m.cap (countsBR m (encodeChunk m c bytes ++ tail)) (unpackChunk c bytes).length = preparedBR c bytes := by
  have cap := cap_of_not_isValueRun hm
  have pos : 1 ≤ m.cap := by omega
  obtain ⟨extra, counts⟩ := countsBR_packBR hm (bCountsFrom_le_cap pos false (preparedBR c bytes)) tail
  have length : (unpackChunk c bytes).length = (preparedBR c bytes).length := by simp [preparedBR]
  rw [encodeChunk_of_not_isValueRun hm, bCounts, counts, decBRBits, length, decBitsLoop_bCountsFrom pos, fillTo_length]

/-! ### The blob of a run -/

/-- The offsets of the chunks of a run, the first of them at `o` (R49). -/
def chunkOffsets (m : Mode) (c : BppCode) : Nat → List (List Byte) → List Nat
  | _, [] => []
  | o, bytes :: chunks => o :: chunkOffsets m c (o + (encodeChunk m c bytes).length) chunks

/-- The loop of R133, from any blob and table on. -/
theorem foldl_addChunk (m : Mode) (c : BppCode) (chunks : List (List Byte)) (blob : List Byte) (offsets : List Nat) :
    chunks.foldl (addChunk m c) (blob, offsets)
      = (blob ++ chunks.flatMap (encodeChunk m c), offsets ++ chunkOffsets m c blob.length chunks) := by
  induction chunks generalizing blob offsets with
  | nil => simp [chunkOffsets]
  | cons bytes chunks ih => simp [addChunk, ih, chunkOffsets]

theorem encodeRun_eq (m : Mode) (c : BppCode) (chunks : List (List Byte)) :
    encodeRun m c chunks = ⟨chunks.flatMap (encodeChunk m c), chunkOffsets m c 0 chunks, (chunks.map List.length).sum,
      (chunks.flatMap (encodeChunk m c)).length⟩ := by
  simp [encodeRun, foldl_addChunk]

/-- At the offset of a chunk its encoding begins, whatever came before the run's first byte. -/
theorem chunkSource_chunkOffsets {m : Mode} {c : BppCode} {chunks : List (List Byte)} {i : Nat} {ch : List Byte}
    (h : chunks[i]? = some ch) (before : List Byte) :
    ∃ tail, chunkSource (before ++ chunks.flatMap (encodeChunk m c)) (chunkOffsets m c before.length chunks) i
      = encodeChunk m c ch ++ tail := by
  induction chunks generalizing i before with
  | nil => cases h
  | cons bytes chunks ih =>
    rw [List.flatMap_cons]
    cases i with
    | zero =>
      cases h
      exact ⟨_, List.drop_left⟩
    | succ i =>
      have next := ih (i := i) h (before ++ encodeChunk m c bytes)
      rwa [List.length_append, List.append_assoc] at next

/-- Settles O48: what follows a chunk in the blob does not disturb its decoding (R180). -/
theorem chunksDecodeOutOfTheBlob : Obligations.ChunksDecodeOutOfTheBlob := by
  intro m c chunks i ch h
  obtain ⟨tail, source⟩ := chunkSource_chunkOffsets (m := m) (c := c) h []
  rw [List.nil_append, List.length_nil] at source
  rw [encodeRun_eq, source]
  exact ⟨fun hm => decVR_encodeChunk hm c ch tail, fun hm => decBRBits_encodeChunk hm c ch tail⟩

end Sys2Proof.Machine

/-! PROOFS for the commands of a chunk (O38). What an open chunk still has to emit is a function of its registers and of
the bytes to come (`restOfChunk`): each `PUSH` emits a first part of it, and `END` what is left. -/

namespace Sys2Proof.Machine

/-! ### Presented commands -/

theorem decodeCommand_begin : decodeCommand (commandWord 2 0) = .ok .beginChunk := by decide

theorem decodeCommand_push (b : Byte) : decodeCommand (commandWord 3 b) = .ok (.push b) := by
  simp [decodeCommand]

theorem decodeCommand_end : decodeCommand (commandWord 4 0) = .ok .endChunk := by decide

/-- A presented word is executed as the instruction it decodes to (R150). -/
theorem step_of_decodes {s : State} {w : CmdWord} {i : Instr} {rest : List Input} (h : s.pending = .command w :: rest)
    (d : decodeCommand w = .ok i) : step s = exec i (s.setPending rest) := by
  rw [step, h]
  change stepWord w _ = _
  rw [stepWord, d]

theorem run_succ {s t : State} (n : Nat) (h : step s = .next t) :
    Host.Core.run core (n + 1) s = Host.Core.run core n t := by
  have next : core.step s = .next t := h
  simp only [Host.Core.run, next]

theorem execBegin_opened {s : State} (p : s.phase = .idle) (notFull : counterFull s.params.idxw s.chunkIdx = false) :
    exec .beginChunk s = .next (openChunk s) := by
  change execBegin s = _
  rw [execBegin, runCommand_accepted (by simp [p]) (by simp [p])]
  simp [notFull]

theorem execEnd_flushed {s t : State} (p : s.phase = .chunk) (flushed : flushChunk s = .go t) :
    exec .endChunk s = .next ((t.setChunkIdx (t.chunkIdx + 1)).setPhase .idle) := by
  change execEnd s = _
  rw [execEnd, runCommand_accepted (by simp [p]) (by simp [p]), flushed]
  rfl

/-! ### Room -/

theorem roomForInput_iff (s : State) (n : Nat) :
    roomForInput s n = true ↔ ∀ k, s.params.offw = some k → s.inCount + n < 2 ^ k := by
  unfold roomForInput
  cases s.params.offw <;> simp

/-- Room is about `in_count` and the width alone. -/
theorem roomForInput_congr {s t : State} {m n : Nat} (p : t.params = s.params) (c : t.inCount + m = s.inCount + n) :
    roomForInput t m = roomForInput s n := by
  unfold roomForInput
  rw [p, c]

theorem not_counterFull_of_roomForInput {s : State} {n : Nat} (h : roomForInput s (n + 1) = true) :
    counterFull s.params.offw s.inCount = false := by
  rw [Bool.eq_false_iff]
  intro full
  obtain ⟨k, hk, e⟩ := (counterFull_iff _ _).mp full
  have := (roomForInput_iff s _).mp h k hk
  omega

/-- The room that emitted bytes leave. -/
theorem Grew.roomForBytes {s t : State} {l : List Byte} (g : Grew s t l) (n : Nat) :
    roomForBytes t n = roomForBytes s (l.length + n) :=
  roomForBytes_congr g.params (by rw [g.outCount, Nat.add_assoc])

/-! ### What an open chunk still has to emit -/

/-- The clauses of `BlockInv` about the registers of an open chunk (R15 to R17). -/
structure ChunkOpen (s : State) : Prop where
  phase : s.phase = .chunk
  valueRun : s.mode.isValueRun = true → ValueRunInv s
  bitRun : s.mode.isValueRun = false → BitRunInv s

/-- What the open chunk emits from here on, if `bytes` are its bytes still to come: the packing of what is pending or
held with what they add (R24, R99, R119). -/
def restOfChunk (s : State) (bytes : List Byte) : List Byte :=
  if s.mode.isValueRun then
    packVR s.mode (vRuns s.mode.cap (pendingPixels s ++ preparedVR s.mode s.bppc bytes))
  else
    packBR s.mode (heldCount s ++ bCountsFrom s.mode.cap s.tgt (pendingBits s ++ preparedBR s.bppc bytes))

section
variable {s : State}

theorem restOfChunk_of_isValueRun (m : s.mode.isValueRun = true) (bytes : List Byte) :
    restOfChunk s bytes
      = packVR s.mode (vRuns s.mode.cap (pendingPixels s ++ preparedVR s.mode s.bppc bytes)) := if_pos m

theorem restOfChunk_of_not_isValueRun (m : s.mode.isValueRun = false) (bytes : List Byte) :
    restOfChunk s bytes
      = packBR s.mode (heldCount s ++ bCountsFrom s.mode.cap s.tgt (pendingBits s ++ preparedBR s.bppc bytes)) :=
  if_neg (by simp [m])

theorem chunkOpen_openChunk (s : State) : ChunkOpen (openChunk s) where
  phase := rfl
  valueRun := fun _ =>
    ⟨fun e => (nomatch e), fun _ => rfl, ⟨rfl, rfl, rfl⟩, fun _ => (by decide : (0 : Byte).toNat < 16)⟩
  bitRun := fun _ => ⟨Nat.zero_le _, ⟨rfl, rfl⟩, fun _ => ⟨rfl, rfl⟩⟩

/-- The next input and the count of pushed bytes are no part of it. -/
theorem ChunkOpen.setInput (inv : ChunkOpen s) (next : List Input) (n : Nat) :
    ChunkOpen ((s.setPending next).setInCount n) :=
  ⟨inv.phase, fun m => { inv.valueRun m with }, fun m => { inv.bitRun m with }⟩

/-- Right after `BEGIN` it is the encoding of the whole chunk, whatever the registers held before (R54). -/
theorem restOfChunk_openChunk (s : State) (bytes : List Byte) :
    restOfChunk (openChunk s) bytes = encodeChunk s.mode s.bppc bytes := by
  cases m : s.mode.isValueRun with
  | true =>
    rw [encodeChunk_of_isValueRun m]
    exact if_pos m
  | false =>
    rw [encodeChunk_of_not_isValueRun m]
    exact if_neg (by simp [openChunk, emitOffset, m])

/-! ### `PUSH` -/

theorem preparedVR_cons (m : Mode) (c : BppCode) (b : Byte) (bytes : List Byte) :
    preparedVR m c (b :: bytes) = (unpack c b).map (prepVR m c) ++ preparedVR m c bytes := List.map_append

theorem preparedBR_cons (c : BppCode) (b : Byte) (bytes : List Byte) :
    preparedBR c (b :: bytes) = (unpack c b).map thresh ++ preparedBR c bytes := List.map_append

theorem Grew.afterRuns (s : State) (runs : List (Nat × Byte)) (valid : Bool) (val cnt : Byte) :
    Grew s (s.afterRuns runs valid val cnt) (packVR s.mode runs) := by
  constructor <;> rfl

theorem Grew.afterCounts (s : State) (packed : List Nat) (t : Bool) (cnt : Byte) (valid : Bool) (hold : Nibble) :
    Grew s (s.afterCounts packed t cnt valid hold) (packBR s.mode packed) := by
  constructor <;> rfl

/-- Counts that go out, and those that are held and follow, pack as they would all together. -/
theorem Packs.packBR {m : Mode} {v0 v : Bool} {h0 h : Nibble} {counts packed : List Nat}
    (packs : Packs m v0 h0 counts packed v h) (hm : m.isValueRun = false) (unused : m ≠ .brPacked → v0 = false)
    (rest : List Nat) :
    packBR m ((if v0 then [h0.toNat] else []) ++ (counts ++ rest))
      = packBR m packed ++ packBR m ((if v then [h.toNat] else []) ++ rest) := by
  cases m with
  | vrWide => cases hm
  | vrPacked => cases hm
  | brWide =>
    obtain ⟨rfl, rfl, rfl⟩ := packs.wide rfl
    rw [unused (by decide)]
    exact packBR_append .brWide packed rest fun e => nomatch e
  | brPacked =>
    obtain ⟨pairs, even⟩ := packs.paired rfl
    rw [← List.append_assoc, pairs, List.append_assoc, packBR_append _ _ _ fun _ => even]

theorem feedPixels_restOfChunk_valueRun (m : s.mode.isValueRun = true) (inv : ValueRunInv s) (b : Byte)
    (bytes : List Byte) (room : roomForBytes s (restOfChunk s (b :: bytes)).length = true) :
    ∃ t l, feedPixels (unpack s.bppc b) s = .go t ∧ Grew s t l ∧
      restOfChunk s (b :: bytes) = l ++ restOfChunk t bytes := by
  obtain ⟨runs, valid, val, cnt, x, fed⟩ := feedPixels_continuesRuns (unpack s.bppc b) m (inv.shortRun m)
  have rest : restOfChunk s (b :: bytes)
      = packVR s.mode runs ++ restOfChunk (s.afterRuns runs valid val cnt) bytes := by
    rw [restOfChunk_of_isValueRun m, preparedVR_cons, x.runList, packVR_append]
    exact congrArg _ (restOfChunk_of_isValueRun (s := s.afterRuns runs valid val cnt) m bytes).symm
  rw [rest, List.length_append] at room
  exact ⟨_, _, fed (roomForBytes_mono room (Nat.le_add_right _ _)), .afterRuns .., rest⟩

theorem feedPixels_restOfChunk_bitRun (m : s.mode.isValueRun = false) (inv : BitRunInv s) (b : Byte)
    (bytes : List Byte) (room : roomForBytes s (restOfChunk s (b :: bytes)).length = true) :
    ∃ t l, feedPixels (unpack s.bppc b) s = .go t ∧ Grew s t l ∧
      restOfChunk s (b :: bytes) = l ++ restOfChunk t bytes := by
  have cap := cap_of_not_isValueRun m
  have count := inv.count
  obtain ⟨counts, packed, t, cnt, valid, hold, x, fed⟩ := feedPixels_continuesCounts (unpack s.bppc b) m (by omega)
  have rest : restOfChunk s (b :: bytes)
      = packBR s.mode packed ++ restOfChunk (s.afterCounts packed t cnt valid hold) bytes := by
    rw [restOfChunk_of_not_isValueRun m, preparedBR_cons, x.countList, heldCount,
      x.packs.packBR m fun ne => (inv.nibble ne).1]
    exact congrArg _ (restOfChunk_of_not_isValueRun (s := s.afterCounts packed t cnt valid hold) m bytes).symm
  rw [rest, List.length_append] at room
  exact ⟨_, _, fed (roomForBytes_mono room (Nat.le_add_right _ _)), .afterCounts .., rest⟩

/-- R154: with room for the rest of the chunk, the pixels of a byte emit a first part of it and leave the rest. -/
theorem feedPixels_restOfChunk (inv : ChunkOpen s) (b : Byte) (bytes : List Byte)
    (room : roomForBytes s (restOfChunk s (b :: bytes)).length = true) :
    ∃ t l, feedPixels (unpack s.bppc b) s = .go t ∧ Grew s t l ∧ ChunkOpen t ∧
      restOfChunk s (b :: bytes) = l ++ restOfChunk t bytes := by
  have fedRest : ∃ t l, feedPixels (unpack s.bppc b) s = .go t ∧ Grew s t l ∧
      restOfChunk s (b :: bytes) = l ++ restOfChunk t bytes := by
    cases m : s.mode.isValueRun with
    | true => exact feedPixels_restOfChunk_valueRun m (inv.valueRun m) b bytes room
    | false => exact feedPixels_restOfChunk_bitRun m (inv.bitRun m) b bytes room
  obtain ⟨t, l, fed, g, rest⟩ := fedRest
  have emits := feedPixels_emits (unpack s.bppc b) s
  rw [fed] at emits
  obtain ⟨-, -, phase, -⟩ := emits
  refine ⟨t, l, fed, g, ⟨phase.trans inv.phase, fun m => ?_, fun m => ?_⟩, rest⟩
  · rw [g.mode] at m
    exact feedPixels_keeps_valueRunInv m (inv.valueRun m) fed
  · rw [g.mode] at m
    exact feedPixels_keeps_bitRunInv m (inv.bitRun m) fed

/-! ### `END` -/

theorem vrFlush_restOfChunk (m : s.mode.isValueRun = true) (inv : ValueRunInv s)
    (room : roomForBytes s (restOfChunk s []).length = true) :
    ∃ t, vrFlush s = .go t ∧ Grew s t (restOfChunk s []) := by
  have rest : restOfChunk s [] = packVR s.mode (if s.runValid then [(s.runCnt.toNat, s.runVal)] else []) := by
    rw [restOfChunk_of_isValueRun m, ← vRuns_pending (inv.shortRun m)]
    exact congrArg _ (congrArg _ (List.append_nil _))
  cases running : s.runValid with
  | false =>
    rw [rest, running, vrFlush, running, if_neg (by simp), if_neg (by simp)]
    refine ⟨_, rfl, ?_⟩
    rw [← State.afterRuns_nil]
    exact .afterRuns ..
  | true =>
    obtain ⟨pos, -⟩ := inv.inProgress running
    rw [rest, running, if_pos rfl, packVR_singleton s.runVal pos m] at room
    rw [rest, running, if_pos rfl, vrFlush, running, if_pos rfl, packVR_singleton s.runVal pos m,
      emitRun_of_room m room]
    exact ⟨_, rfl, by constructor <;> rfl⟩

/-- The last count of `BRFlush` (R118). -/
def lastCount (s : State) : Flow := if s.runCnt = 0 then .go s else emitCount s.runCnt s

theorem brFlush_eq (s : State) : brFlush s = ((lastCount s).andThen padNibble).andThen fun t =>
    .go ((t.setBitRun false 0).setNibble t.nibValid 0) := rfl

theorem eq_brWide {m : Mode} (hm : m.isValueRun = false) (ne : m ≠ .brPacked) : m = .brWide := by
  cases m with
  | vrWide => cases hm
  | vrPacked => cases hm
  | brWide => rfl
  | brPacked => exact absurd rfl ne

theorem lastCount_restOfChunk (m : s.mode.isValueRun = false) (inv : BitRunInv s)
    (room : roomForBytes s (restOfChunk s []).length = true) :
    ∃ t l, lastCount s = .go t ∧ Grew s t l ∧ (t.mode ≠ .brPacked → t.nibValid = false) ∧
      restOfChunk s [] = l ++ packBR t.mode (heldCount t) := by
  have cap := cap_of_not_isValueRun m
  have count := inv.count
  have unused : s.mode ≠ .brPacked → s.nibValid = false := fun ne => (inv.nibble ne).1
  have rest : restOfChunk s [] = packBR s.mode (heldCount s ++ if s.runCnt = 0 then [] else [s.runCnt.toNat]) := by
    rw [restOfChunk_of_not_isValueRun m, ← bCountsFrom_pending s.tgt (cap := s.mode.cap) (by omega)]
    exact congrArg _ (congrArg _ (congrArg _ (List.append_nil _)))
  unfold lastCount
  split
  · rename_i zero
    exact ⟨s, [], rfl, .refl s, unused, by simp [rest, zero]⟩
  · rename_i nonzero
    obtain ⟨packed, v, h, packs, emit⟩ := emitCount_packs (c := s.runCnt) m (by omega)
    have together := packs.packBR m unused []
    rw [List.append_nil, List.append_nil] at together
    rw [rest, if_neg nonzero]
    rw [rest, if_neg nonzero, heldCount, together, List.length_append] at room
    refine ⟨_, _, emit (roomForBytes_mono room (Nat.le_add_right _ _)), by constructor <;> rfl, fun ne => ?_, together⟩
    obtain ⟨-, same, -⟩ := packs.wide (eq_brWide m ne)
    exact same.trans (unused ne)

/-- The pad of `BRFlush` (R118): a held count is packed alone. -/
theorem padNibble_of_room (unused : s.mode ≠ .brPacked → s.nibValid = false)
    (room : roomForBytes s (packBR s.mode (heldCount s)).length = true) :
    ∃ t, padNibble s = .go t ∧ Grew s t (packBR s.mode (heldCount s)) := by
  cases held : s.nibValid with
  | false =>
    rw [heldCount, held, padNibble, if_neg (by simp [held])]
    exact ⟨s, rfl, by simpa using Grew.refl s⟩
  | true =>
    have packed : s.mode = .brPacked := Classical.not_not.mp fun ne => by simp [unused ne] at held
    have byte : packBR s.mode (heldCount s) = [nibblePair s.nibHold 0] := by
      have pair : ∀ hi : Nibble, BitVec.ofNat 8 hi.toNat <<< 4 = nibblePair hi 0 := by decide
      rw [packed, heldCount, held]
      exact congrArg (fun b => [b]) (pair s.nibHold)
    rw [byte] at room ⊢
    rw [padNibble, if_pos ⟨packed, held⟩, emitBrPackedByte, emitByte_of_room (n := 0) _ room]
    exact ⟨_, rfl, by constructor <;> rfl⟩

theorem brFlush_restOfChunk (m : s.mode.isValueRun = false) (inv : BitRunInv s)
    (room : roomForBytes s (restOfChunk s []).length = true) :
    ∃ t, brFlush s = .go t ∧ Grew s t (restOfChunk s []) := by
  obtain ⟨u, l, last, g, unused, rest⟩ := lastCount_restOfChunk m inv room
  rw [rest, List.length_append, ← g.roomForBytes] at room
  obtain ⟨v, padded, g'⟩ := padNibble_of_room unused room
  rw [brFlush_eq, last, Flow.andThen_go, padded, rest]
  exact ⟨_, rfl, { g.trans g' with }⟩

/-- R155: with room for it, the flush emits what is left of the chunk. -/
theorem flushChunk_restOfChunk (inv : ChunkOpen s) (room : roomForBytes s (restOfChunk s []).length = true) :
    ∃ t, flushChunk s = .go t ∧ Grew s t (restOfChunk s []) := by
  cases m : s.mode.isValueRun with
  | true =>
    rw [flushChunk_of_isValueRun m]
    exact vrFlush_restOfChunk m (inv.valueRun m) room
  | false =>
    rw [flushChunk_of_not_isValueRun m]
    exact brFlush_restOfChunk m (inv.bitRun m) room

end

/-! ### The commands of a chunk -/

/-- The counters and inputs that `n` more bytes and `END` leave, the output and the run-length registers aside. -/
def State.closedAfter (s : State) (n : Nat) (rest : List Input) : State :=
  ((s.setPending rest).setInCount (s.inCount + n)).setChunkIdx (s.chunkIdx + 1)

/-- Bytes emitted while one byte was pushed count towards the closed chunk. -/
theorem Grew.closedAfter {s t : State} {l : List Byte} {next : List Input}
    (g : Grew ((s.setPending next).setInCount (s.inCount + 1)) t l) (n : Nat) (rest : List Input) :
    Grew (s.closedAfter (n + 1) rest) (t.closedAfter n rest) l :=
  { g with
    pending := rfl
    inCount := by
      change t.inCount + n = s.inCount + (n + 1)
      rw [g.inCount, State.setInCount_inCount, Nat.add_right_comm, Nat.add_assoc]
    chunkIdx := congrArg (· + 1) g.chunkIdx }

/-- The words of the bytes still to come and of `END`, and what the host does after them. -/
def pushesThenEnd (bytes : List Byte) (rest : List Input) : List Input :=
  (bytes.map Instr.push ++ [Instr.endChunk]).flatMap presentInstr ++ rest

theorem pushesThenEnd_nil (rest : List Input) : pushesThenEnd [] rest = .command (commandWord 4 0) :: rest := rfl

theorem pushesThenEnd_cons (b : Byte) (bytes : List Byte) (rest : List Input) :
    pushesThenEnd (b :: bytes) rest = .command (commandWord 3 b) :: pushesThenEnd bytes rest := rfl

theorem chunkCommands_inputs (bytes : List Byte) (rest : List Input) :
    (chunkCommands bytes).flatMap presentInstr ++ rest = .command (commandWord 2 0) :: pushesThenEnd bytes rest := rfl

section
variable {s t : State} {bytes : List Byte} {rest : List Input}

theorem step_begin (h : s.pending = (chunkCommands bytes).flatMap presentInstr ++ rest) (p : s.phase = .idle)
    (notFull : counterFull s.params.idxw s.chunkIdx = false) :
    step s = .next (openChunk (s.setPending (pushesThenEnd bytes rest))) :=
  (step_of_decodes (h.trans (chunkCommands_inputs bytes rest)) decodeCommand_begin).trans
    (execBegin_opened (s := s.setPending _) p notFull)

theorem step_push {b : Byte} (h : s.pending = pushesThenEnd (b :: bytes) rest) (p : s.phase = .chunk)
    (notFull : counterFull s.params.offw s.inCount = false)
    (fed : feedPixels (unpack s.bppc b)
      ((s.setPending (pushesThenEnd bytes rest)).setInCount (s.inCount + 1)) = .go t) :
    step s = .next t :=
  (step_of_decodes (h.trans (pushesThenEnd_cons b bytes rest)) (decodeCommand_push b)).trans
    (execPush_fed (s := s.setPending _) p notFull fed)

theorem step_end (h : s.pending = pushesThenEnd [] rest) (p : s.phase = .chunk)
    (flushed : flushChunk (s.setPending rest) = .go t) :
    step s = .next ((t.setChunkIdx (t.chunkIdx + 1)).setPhase .idle) :=
  (step_of_decodes (h.trans (pushesThenEnd_nil rest)) decodeCommand_end).trans
    (execEnd_flushed (s := s.setPending _) p flushed)

end

/-- From an open chunk on: the `PUSH` of each byte to come, then `END`. -/
theorem run_restOfChunk (bytes : List Byte) {s : State} {rest : List Input} (inv : ChunkOpen s)
    (pending : s.pending = pushesThenEnd bytes rest)
    (roomIn : roomForInput s bytes.length = true) (room : roomForBytes s (restOfChunk s bytes).length = true) :
    ∃ t, Host.Core.run core (bytes.length + 1) s = .next t ∧ t.phase = .idle ∧
      Grew (s.closedAfter bytes.length rest) t (restOfChunk s bytes) := by
  induction bytes generalizing s with
  | nil =>
    obtain ⟨u, flushed, g⟩ := flushChunk_restOfChunk (s := s.setPending rest) (inv.setInput rest s.inCount) room
    refine ⟨_, run_succ 0 (step_end pending inv.phase flushed), rfl, ?_⟩
    rw [g.chunkIdx]
    exact g.closed _
  | cons b bytes ih =>
    obtain ⟨u, l, fed, g, inv', eq⟩ := feedPixels_restOfChunk
      (inv.setInput (pushesThenEnd bytes rest) (s.inCount + 1)) b bytes room
    have eq : restOfChunk s (b :: bytes) = l ++ restOfChunk u bytes := eq
    have pushed := step_push pending inv.phase (not_counterFull_of_roomForInput roomIn) fed
    rw [eq, List.length_append] at room
    have roomIn' : roomForInput u bytes.length = true := by
      rwa [roomForInput_congr (s := s) (n := (b :: bytes).length) g.params]
      rw [g.inCount, State.setInCount_inCount, List.length_cons, Nat.add_assoc, Nat.add_comm 1]
    obtain ⟨t, run, phase, g'⟩ := ih inv' g.pending roomIn' ((g.roomForBytes _).trans room)
    refine ⟨t, (run_succ _ pushed).trans run, phase, ?_⟩
    rw [eq]
    exact (g.closedAfter bytes.length rest).trans g'

/-- Settles O38: `BEGIN` clears the registers, so that the whole encoding of the chunk is still to be emitted. -/
theorem chunkOutputDependsOnTheChunkAlone : Obligations.ChunkOutputDependsOnTheChunkAlone := by
  intro s bytes rest p pending notFull roomIn room
  have opened := chunkOpen_openChunk (s.setPending (pushesThenEnd bytes rest))
  have whole : restOfChunk (openChunk (s.setPending (pushesThenEnd bytes rest))) bytes
      = encodeChunk s.mode s.bppc bytes := restOfChunk_openChunk _ bytes
  obtain ⟨t, run, phase, g⟩ := run_restOfChunk bytes opened rfl roomIn (by rw [whole]; exact room)
  rw [whole] at g
  refine ⟨t, (run_succ _ (step_begin pending p notFull)).trans run, ?_, phase, g.mode, g.bppc, g.chunkIdx, g.inCount,
    g.outCount, g.pending⟩
  rw [g.events]
  exact List.append_assoc _ _ _

end Sys2Proof.Machine

/-! PROOFS for the encodings (spec/30_encoding.md). A command word and its instruction determine each other
(`decodeCommand_eq_ok_iff`), which settles the round trips (O1, O2) and the illegal words (O4, O23), and of which the match
and mask columns of R61 (O3) are another reading. Then the words as the spec writes them (O5, O6), the output rows (O24) and
the packing of a count (O30). -/

namespace Sys2Proof.Machine

/-! ### The operand byte of `CFG` -/

/-- The operand byte of `CFG` from its two codes (R62). -/
def cfgArg (mode bppc : BitVec 2) : Byte := (bppc.setWidth 8 <<< 2) ||| mode.setWidth 8

theorem cfgWord_eq_commandWord (m : Mode) (c : BppCode) : cfgWord m c = commandWord 1 (cfgArg m.code c.code) :=
  cfgWord_eq m c

@[simp] theorem cfgModeField_cfgArg : ∀ mode bppc, cfgModeField (cfgArg mode bppc) = mode := by decide

@[simp] theorem cfgBppcField_cfgArg : ∀ mode bppc, cfgBppcField (cfgArg mode bppc) = bppc := by decide

@[simp] theorem cfgZeroField_cfgArg : ∀ mode bppc, cfgZeroField (cfgArg mode bppc) = 0 := by decide

/-- An operand byte with nothing in its upper half is its two codes. -/
theorem cfgArg_fields : ∀ arg : Byte, cfgZeroField arg = 0 → cfgArg (cfgModeField arg) (cfgBppcField arg) = arg := by
  decide

/-! ### A command word and its instruction -/

theorem decodeCommand_nop : decodeCommand (commandWord 0 0) = .ok .nop := by decide

theorem decodeCommand_cfg (m : Mode) (c : BppCode) : decodeCommand (cfgWord m c) = .ok (.cfg m c) := by
  rw [cfgWord_eq_commandWord]
  simp [decodeCommand]

theorem decodeCommand_reservedOp5 (arg : Byte) : decodeCommand (commandWord 5 arg) = .ok (.reservedOp5 arg) := by
  simp [decodeCommand]

theorem decodeCommand_reservedOp6 (arg : Byte) : decodeCommand (commandWord 6 arg) = .ok (.reservedOp6 arg) := by
  simp [decodeCommand]

theorem decodeCommand_reservedOp7 (arg : Byte) : decodeCommand (commandWord 7 arg) = .ok (.reservedOp7 arg) := by
  simp [decodeCommand]

/-- The word of an instruction decodes to it (R61, R62). -/
theorem decodeCommand_of_encode {w : CmdWord} {i : Instr} (h : encode i = .command w) : decodeCommand w = .ok i := by
  cases i with
  | nop => cases h; exact decodeCommand_nop
  | cfg m c => cases h; exact decodeCommand_cfg m c
  | beginChunk => cases h; exact decodeCommand_begin
  | push b => cases h; exact decodeCommand_push b
  | endChunk => cases h; exact decodeCommand_end
  | reservedOp5 arg => cases h; exact decodeCommand_reservedOp5 arg
  | reservedOp6 arg => cases h; exact decodeCommand_reservedOp6 arg
  | reservedOp7 arg => cases h; exact decodeCommand_reservedOp7 arg
  | unitVrWide | unitVrPacked | unitBrWide | byteBrPacked | offsetRecord => cases h

/-- A word with a given operation code is that code over its operand byte (R60). -/
theorem commandWord_of_op {w : CmdWord} {op : BitVec 3} (hop : (opField w).toNat = op.toNat) :
    commandWord op (argField w) = w := by
  rw [← BitVec.eq_of_toNat_eq hop, commandWord_fields]

theorem commandWord_of_noArg {w : CmdWord} {op : BitVec 3} (hop : (opField w).toNat = op.toNat) (harg : argField w = 0) :
    commandWord op 0 = w := by
  rw [← harg, commandWord_of_op hop]

/-- A word with the operation code of `CFG` and nothing in the bits that `CFG` requires to be 0 (R62). -/
theorem cfgWord_of_fields {w : CmdWord} (hop : (opField w).toNat = 1) (zero : cfgZeroField (argField w) = 0) :
    cfgWord (.ofCode (cfgModeField (argField w))) (.ofCode (cfgBppcField (argField w))) = w := by
  rw [cfgWord_eq_commandWord, Mode.code_ofCode, BppCode.code_ofCode, cfgArg_fields _ zero, commandWord_of_op hop]

theorem illegalWord_iff (w : CmdWord) : illegalWord w = true ↔
    ((opField w).toNat ∈ [5, 6, 7] ∨ ((opField w).toNat ∈ [0, 2, 4] ∧ argField w ≠ 0) ∨
      ((opField w).toNat = 1 ∧ cfgZeroField (argField w) ≠ 0)) := by
  simp [illegalWord, ← BitVec.toNat_inj, or_assoc]

theorem illegalWord_of_arg {w : CmdWord} (hop : (opField w).toNat ∈ [0, 2, 4]) (harg : argField w ≠ 0) :
    illegalWord w = true :=
  (illegalWord_iff w).mpr (.inr (.inl ⟨hop, harg⟩))

/-- What a word can decode to: the instruction of which it is the word, no bit of it being dropped (R60 to R62), or
nothing, which only an illegal word does (R65). -/
theorem decodeCommand_cases (w : CmdWord) :
    (∃ i, decodeCommand w = .ok i ∧ encode i = .command w) ∨
    (∃ e, decodeCommand w = .error e ∧ illegalWord w = true) := by
  unfold decodeCommand
  dsimp only
  split
  next hop =>
    split
    next harg => exact .inl ⟨_, rfl, congrArg _ (commandWord_of_noArg hop harg)⟩
    next harg => exact .inr ⟨_, rfl, illegalWord_of_arg (by simp [hop]) harg⟩
  next hop =>
    split
    next zero => exact .inl ⟨_, rfl, congrArg _ (cfgWord_of_fields hop zero)⟩
    next zero => exact .inr ⟨_, rfl, (illegalWord_iff w).mpr (.inr (.inr ⟨hop, zero⟩))⟩
  next hop =>
    split
    next harg => exact .inl ⟨_, rfl, congrArg _ (commandWord_of_noArg hop harg)⟩
    next harg => exact .inr ⟨_, rfl, illegalWord_of_arg (by simp [hop]) harg⟩
  next hop => exact .inl ⟨_, rfl, congrArg _ (commandWord_of_op hop)⟩
  next hop =>
    split
    next harg => exact .inl ⟨_, rfl, congrArg _ (commandWord_of_noArg hop harg)⟩
    next harg => exact .inr ⟨_, rfl, illegalWord_of_arg (by simp [hop]) harg⟩
  next hop => exact .inl ⟨_, rfl, congrArg _ (commandWord_of_op hop)⟩
  next hop => exact .inl ⟨_, rfl, congrArg _ (commandWord_of_op hop)⟩
  next =>
    have hop : (opField w).toNat = 7 := by
      have := (opField w).isLt
      simp only [imp_false] at *
      omega
    exact .inl ⟨_, rfl, congrArg _ (commandWord_of_op hop)⟩

theorem encode_of_decodeCommand {w : CmdWord} {i : Instr} (h : decodeCommand w = .ok i) : encode i = .command w := by
  obtain ⟨j, d, word⟩ | ⟨e, d, -⟩ := decodeCommand_cases w <;> rw [d] at h <;> cases h
  exact word

/-- A word that decodes to no instruction is illegal (R65). -/
theorem illegalWord_of_error {w : CmdWord} {e : DecodeError} (h : decodeCommand w = .error e) : illegalWord w = true := by
  obtain ⟨i, d, -⟩ | ⟨e, d, illegal⟩ := decodeCommand_cases w <;> rw [d] at h <;> cases h
  exact illegal

/-- A word decodes to an instruction exactly when the instruction is written as that word. -/
theorem decodeCommand_eq_ok_iff {w : CmdWord} {i : Instr} : decodeCommand w = .ok i ↔ encode i = .command w :=
  ⟨encode_of_decodeCommand, decodeCommand_of_encode⟩

/-! ### The bytes of a unit -/

/-- The bytes of a well-formed unit decode to it (R66 to R70). -/
theorem decodeUnit_of_encode {p : Params} {m : Mode} {bytes : List Byte} {i : Instr} (wf : wellFormed p i = true)
    (h : encode i = .blob m bytes) : decodeUnit m bytes = .ok i := by
  cases i with
  | unitVrWide count value =>
    cases h
    have pos : count ≠ 0 := of_decide_eq_true wf
    exact if_neg pos
  | unitVrPacked countM1 value => cases h; simp [decodeUnit]
  | unitBrWide count => cases h; rfl
  | byteBrPacked hi lo => cases h; simp [decodeUnit]
  | nop | cfg | beginChunk | push | endChunk | reservedOp5 | reservedOp6 | reservedOp7 | offsetRecord => cases h

/-- The bytes that decode to a unit are the bytes of that unit (R66 to R71). -/
theorem encode_of_decodeUnit {m : Mode} {bytes : List Byte} {i : Instr} (h : decodeUnit m bytes = .ok i) :
    encode i = .blob m bytes := by
  unfold decodeUnit at h
  split at h
  · split at h <;> cases h
    rfl
  · cases h
    simp [encode]
  · cases h
    rfl
  · cases h
    simp [encode]
  · cases h

/-- Settles O1: by the form in which the instruction is written, a word, the bytes of a unit, or a record. -/
theorem encodedInstructionsDecodeBack : Obligations.EncodedInstructionsDecodeBack := by
  intro p i wf
  cases form : encode i with
  | command w => exact decodeCommand_of_encode form
  | blob m bytes => exact decodeUnit_of_encode wf form
  | record index value =>
    cases i <;> cases form
    rfl

/-- Settles O2: a word by `decodeCommand_cases`, the bytes of a unit by their nibbles. -/
theorem decodedWordsAndUnitsEncodeBack : Obligations.DecodedWordsAndUnitsEncodeBack :=
  ⟨fun _ _ => encode_of_decodeCommand, fun _ _ _ => encode_of_decodeUnit⟩

/-! ### Match and mask -/

/-- A mask acts on the two fields of a word apart. -/
theorem commandWord_and (op op' : BitVec 3) (arg arg' : Byte) :
    commandWord op arg &&& commandWord op' arg' = commandWord (op &&& op') (arg &&& arg') := by
  apply BitVec.eq_of_getLsbD_eq
  intro i hi
  by_cases low : i < 8
  · simp [commandWord, low, hi]
  · simp [commandWord, low, hi, BitVec.getLsbD_of_ge _ _ (not_lt.mp low)]

theorem commandWord_inj {op op' : BitVec 3} {arg arg' : Byte} :
    commandWord op arg = commandWord op' arg' ↔ op = op' ∧ arg = arg' := by
  refine ⟨fun h => ⟨?_, ?_⟩, by rintro ⟨rfl, rfl⟩; rfl⟩
  · simpa using congrArg opField h
  · simpa using congrArg argField h

/-- Every mask of R61 has the three bits of the operation code: a row fixes the code and some bits of the operand. -/
theorem and_eq_commandWord_iff (w : CmdWord) (op : BitVec 3) (mask arg : Byte) :
    w &&& commandWord 7 mask = commandWord op arg ↔ opField w = op ∧ argField w &&& mask = arg := by
  have all : opField w &&& 7 = opField w := BitVec.and_allOnes
  conv_lhs => rw [← commandWord_fields w, commandWord_and, all, commandWord_inj]

theorem commandWord_and_opMask (op : BitVec 3) (arg : Byte) : commandWord op arg &&& commandWord 7 0 = commandWord op 0 :=
  (and_eq_commandWord_iff _ op 0 0).mpr (by simp)

/-- The rows without operand mask the whole word. -/
theorem commandWord_of_match_fixed {w : CmdWord} {op : BitVec 3} (h : w &&& commandWord 7 0xFF = commandWord op 0) :
    commandWord op 0 = w :=
  h.symm.trans BitVec.and_allOnes

/-- The rows with any operand mask the operation code. -/
theorem commandWord_of_match_op {w : CmdWord} {op : BitVec 3} (h : w &&& commandWord 7 0 = commandWord op 0) :
    commandWord op (argField w) = w := by
  rw [and_eq_commandWord_iff] at h
  exact commandWord_of_op (congrArg _ h.1)

theorem cfgZeroField_of_and : ∀ arg : Byte, arg &&& 0xF0 = 0 → cfgZeroField arg = 0 := by decide

/-- The row of `CFG` masks the operation code and the bits that `CFG` requires to be 0. -/
theorem cfgWord_of_match {w : CmdWord} (h : w &&& commandWord 7 0xF0 = commandWord 1 0) :
    cfgWord (.ofCode (cfgModeField (argField w))) (.ofCode (cfgBppcField (argField w))) = w := by
  obtain ⟨hop, harg⟩ := (and_eq_commandWord_iff w 1 0xF0 0).mp h
  exact cfgWord_of_fields (congrArg _ hop) (cfgZeroField_of_and _ harg)

/-- A word that a row matches decodes to an instruction of that row. -/
theorem decodeCommand_of_match {w : CmdWord} {r : CommandRow} (mem : r ∈ commandRows) (h : w &&& r.mask = r.pattern) :
    ∃ i, decodeCommand w = .ok i ∧ i.mnemonic = r.mnemonic := by
  simp only [commandRows, List.mem_cons, List.not_mem_nil, or_false] at mem
  obtain rfl | rfl | rfl | rfl | rfl | rfl | rfl | rfl := mem
  · exact ⟨.nop, decodeCommand_of_encode (congrArg _ (commandWord_of_match_fixed h)), rfl⟩
  · exact ⟨.cfg _ _, decodeCommand_of_encode (congrArg _ (cfgWord_of_match h)), rfl⟩
  · exact ⟨.beginChunk, decodeCommand_of_encode (congrArg _ (commandWord_of_match_fixed h)), rfl⟩
  · exact ⟨.push _, decodeCommand_of_encode (congrArg _ (commandWord_of_match_op h)), rfl⟩
  · exact ⟨.endChunk, decodeCommand_of_encode (congrArg _ (commandWord_of_match_fixed h)), rfl⟩
  · exact ⟨.reservedOp5 _, decodeCommand_of_encode (congrArg _ (commandWord_of_match_op h)), rfl⟩
  · exact ⟨.reservedOp6 _, decodeCommand_of_encode (congrArg _ (commandWord_of_match_op h)), rfl⟩
  · exact ⟨.reservedOp7 _, decodeCommand_of_encode (congrArg _ (commandWord_of_match_op h)), rfl⟩

/-- The word of a command is matched by the row of its mnemonic. -/
theorem match_of_decodeCommand {w : CmdWord} {i : Instr} (h : decodeCommand w = .ok i) :
    ∃ r ∈ commandRows, r.mnemonic = i.mnemonic ∧ w &&& r.mask = r.pattern := by
  have word := encode_of_decodeCommand h
  cases i with
  | nop =>
    cases word
    exact ⟨⟨"NOP", 0x000, 0x7FF⟩, by simp [commandRows], rfl, rfl⟩
  | cfg m c =>
    cases word
    refine ⟨⟨"CFG", 0x100, 0x7F0⟩, by simp [commandRows], rfl, ?_⟩
    cases m <;> cases c <;> rfl
  | beginChunk =>
    cases word
    exact ⟨⟨"BEGIN", 0x200, 0x7FF⟩, by simp [commandRows], rfl, rfl⟩
  | push b =>
    cases word
    exact ⟨⟨"PUSH", 0x300, 0x700⟩, by simp [commandRows], rfl, commandWord_and_opMask 3 _⟩
  | endChunk =>
    cases word
    exact ⟨⟨"END", 0x400, 0x7FF⟩, by simp [commandRows], rfl, rfl⟩
  | reservedOp5 arg =>
    cases word
    exact ⟨⟨"RESERVED_OP5", 0x500, 0x700⟩, by simp [commandRows], rfl, commandWord_and_opMask 5 _⟩
  | reservedOp6 arg =>
    cases word
    exact ⟨⟨"RESERVED_OP6", 0x600, 0x700⟩, by simp [commandRows], rfl, commandWord_and_opMask 6 _⟩
  | reservedOp7 arg =>
    cases word
    exact ⟨⟨"RESERVED_OP7", 0x700, 0x700⟩, by simp [commandRows], rfl, commandWord_and_opMask 7 _⟩
  | unitVrWide | unitVrPacked | unitBrWide | byteBrPacked | offsetRecord => cases word

theorem commandRows_mnemonic_inj : ∀ r ∈ commandRows, ∀ q ∈ commandRows, r.mnemonic = q.mnemonic → r = q := by
  decide

/-- Settles O3: a word decodes to at most one instruction, and no two rows have one mnemonic. -/
theorem commandRowsAreMatchAndMask : Obligations.CommandRowsAreMatchAndMask := by
  refine ⟨fun w r hr => ⟨decodeCommand_of_match hr, ?_⟩, fun w r hr q hq matchR matchQ => ?_⟩
  · rintro ⟨i, d, name⟩
    obtain ⟨q, hq, name', matchQ⟩ := match_of_decodeCommand d
    rwa [commandRows_mnemonic_inj r hr q hq (name.symm.trans name'.symm)]
  · obtain ⟨i, d, name⟩ := decodeCommand_of_match hr matchR
    obtain ⟨j, d', name'⟩ := decodeCommand_of_match hq matchQ
    obtain rfl : i = j := Except.ok.inj (d.symm.trans d')
    exact commandRows_mnemonic_inj r hr q hq (name.symm.trans name')

/-! ### Illegal words -/

theorem rejectIllegal_eq (s : State) :
    rejectIllegal s = .next (if s.phase = .fault then s else { s with phase := .fault, faultCode := .illegal }) := by
  unfold rejectIllegal
  split <;> rfl

/-- Taking an illegal word does what R192 says, whether the word has a reserved operation code or decodes to nothing. -/
theorem stepWord_of_illegalWord {w : CmdWord} (h : illegalWord w = true) (s : State) :
    stepWord w s = rejectIllegal s := by
  unfold stepWord
  cases d : decodeCommand w with
  | error e => rfl
  | ok i =>
    have word := encode_of_decodeCommand d
    cases i with
    | reservedOp5 | reservedOp6 | reservedOp7 => rfl
    | nop => cases word; cases h
    | cfg m c => cases word; cases m <;> cases c <;> cases h
    | beginChunk => cases word; cases h
    | push b => cases word; simp [illegalWord] at h
    | endChunk => cases word; cases h
    | unitVrWide | unitVrPacked | unitBrWide | byteBrPacked | offsetRecord => cases word

theorem decodeCommand_of_legal {w : CmdWord} (h : illegalWord w = false) :
    ∃ i, decodeCommand w = .ok i ∧ i.isCommand = true := by
  cases d : decodeCommand w with
  | error e => simp [illegalWord_of_error d] at h
  | ok i => exact ⟨i, rfl, decodeCommand_isCommand d⟩

/-- The numbers of the legal words: one each for `NOP`, `BEGIN` and `END`, 16 for `CFG` and 256 for `PUSH` (R65). -/
def legalNumbers : Finset Nat :=
  {0} ∪ Finset.Ico 0x100 0x110 ∪ {0x200} ∪ Finset.Ico 0x300 0x400 ∪ {0x400}

theorem card_legalNumbers : legalNumbers.card = 275 := by
  have disjoint (a b : Finset Nat) : Disjoint a b → (a ∪ b).card = a.card + b.card := Finset.card_union_of_disjoint
  rw [legalNumbers, disjoint, disjoint, disjoint, disjoint]
  · simp
  all_goals
    rw [Finset.disjoint_left]
    intro n
    simp only [Finset.mem_union, Finset.mem_Ico, Finset.mem_singleton]
    omega

theorem toNat_opField (w : CmdWord) : (opField w).toNat = w.toNat / 256 := by
  have := w.isLt
  simp only [opField, BitVec.extractLsb'_toNat, Nat.shiftRight_eq_div_pow]
  omega

theorem toNat_argField (w : CmdWord) : (argField w).toNat = w.toNat % 256 := by
  simp [argField]

theorem toNat_cfgZeroField (arg : Byte) : (cfgZeroField arg).toNat = arg.toNat / 16 := by
  have := arg.isLt
  simp only [cfgZeroField, BitVec.extractLsb'_toNat, Nat.shiftRight_eq_div_pow]
  omega

theorem mem_legalNumbers_iff (n : Nat) : n ∈ legalNumbers ↔
    n = 0 ∨ (0x100 ≤ n ∧ n < 0x110) ∨ n = 0x200 ∨ (0x300 ≤ n ∧ n < 0x400) ∨ n = 0x400 := by
  simp only [legalNumbers, Finset.mem_union, Finset.mem_Ico, Finset.mem_singleton, or_assoc]

/-- R65 on the number of a word. -/
theorem illegalWord_ofNat {n : Nat} (lt : n < 2048) : illegalWord (BitVec.ofNat 11 n) = false ↔ n ∈ legalNumbers := by
  have number : (BitVec.ofNat 11 n).toNat = n := Nat.mod_eq_of_lt lt
  rw [← Bool.not_eq_true, illegalWord_iff, mem_legalNumbers_iff]
  simp only [ne_eq, ← BitVec.toNat_inj, toNat_opField, toNat_argField, toNat_cfgZeroField, number, List.mem_cons,
    List.not_mem_nil, or_false, BitVec.ofNat_eq_ofNat, BitVec.toNat_ofNat, Nat.zero_mod]
  omega

theorem filter_legal_eq : {n ∈ Finset.range 2048 | (!illegalWord (BitVec.ofNat 11 n)) = true} = legalNumbers := by
  ext n
  rw [Finset.mem_filter, Finset.mem_range, Bool.not_eq_true']
  refine ⟨fun ⟨lt, legal⟩ => (illegalWord_ofNat lt).mp legal, fun mem => ?_⟩
  have lt : n < 2048 := by
    rw [mem_legalNumbers_iff] at mem
    omega
  exact ⟨lt, (illegalWord_ofNat lt).mpr mem⟩

theorem length_filter_legal : ((List.range 2048).filter fun n => !illegalWord (BitVec.ofNat 11 n)).length = 275 := by
  rw [← card_legalNumbers, ← filter_legal_eq]
  simp [Finset.card_def, Finset.range, Multiset.range]

/-- Settles O4: an illegal word is rejected whatever it decodes to, and the legal ones are counted by their numbers. -/
theorem illegalWordsFaultAndTheRestDoNot : Obligations.IllegalWordsFaultAndTheRestDoNot := by
  refine ⟨illegalWord_iff, fun w s h => (stepWord_of_illegalWord h s).trans (rejectIllegal_eq s),
    fun w => decodeCommand_of_legal, length_filter_legal, fun w => ?_⟩
  rw [decodeCommand_eq_ok_iff]
  exact ⟨fun word => (Form.command.inj word).symm, fun zero => congrArg _ zero.symm⟩

/-- Settles O23: the arm of a reserved operation code is the rejection of an illegal word. -/
theorem reservedOpsRaiseIllegal : Obligations.ReservedOpsRaiseIllegal := by
  intro s arg notFault
  have rejected : rejectIllegal s = .next { s with phase := .fault, faultCode := .illegal } := if_neg notFault
  exact ⟨rejected, rejected, rejected⟩

/-! ### Words as the spec writes them -/

/-- Settles O5: the words and bytes are fixed, so each decoding is computed. -/
theorem writtenOutWordsDecode : Obligations.WrittenOutWordsDecode :=
  ⟨rfl, rfl, rfl, rfl, rfl, rfl, rfl, rfl, rfl, rfl, rfl⟩

/-- The word of `CFG` with `log2(bpp)` for the width's code (R64, R72). -/
theorem code_eq_log2_bpp (c : BppCode) : c.code.setWidth 11 = BitVec.ofNat 11 c.bpp.log2 := by
  cases c <;> decide

/-- Settles O6: each word of R72 is the encoding of the line's command. -/
theorem linesPresentTheirWords : Obligations.LinesPresentTheirWords := by
  refine ⟨rfl, rfl, rfl, rfl, fun b => rfl, fun m c => ?_⟩
  rw [← code_eq_log2_bpp]
  rfl

/-! ### The output rows -/

theorem nibblePair_eq_ofNat : ∀ hi lo : Nibble, nibblePair hi lo = BitVec.ofNat 8 (16 * hi.toNat + lo.toNat) := by
  decide

section
variable {s : State}

theorem produceUnit_of_chunk {m : Mode} {body : State → Flow} (p : s.phase = .chunk) (hm : s.mode = m) :
    produceUnit m body s = (body s).answer := if_pos ⟨p, hm⟩

/-- R66, R100, with room. -/
theorem emitVrWideUnit_of_room (count value : Byte) (room : roomForBytes s 2 = true) :
    emitVrWideUnit count value s = .go (s.emitted [count, value]) := by
  have room' : roomForBytes (s.emitted [count]) 1 = true := by rwa [roomForBytes_emitted]
  rw [emitVrWideUnit, emitByte_of_room count room, Flow.andThen_go, emitByte_of_room value room',
    ← State.emitted_append]
  rfl

/-- R69, R118, with room. -/
theorem emitBrPackedByte_of_room (hi lo : Nibble) (room : roomForBytes s 1 = true) :
    emitBrPackedByte hi lo s = .go { s.emitted [nibblePair hi lo] with nibValid := false } := by
  rw [emitBrPackedByte, emitByte_of_room _ room]
  rfl

end

/-- Settles O24: the production of each row (log entry 6), with room for its bytes. -/
theorem outputRowsEmitTheirFormat : Obligations.OutputRowsEmitTheirFormat := by
  refine ⟨fun s index value p => if_pos p, fun s count value hi lo p => ⟨?_, ?_, ?_, ?_⟩⟩ <;> intro m room
  · exact (produceUnit_of_chunk p m).trans (congrArg _ (emitVrWideUnit_of_room count value room))
  · rw [← nibblePair_eq_ofNat]
    exact (produceUnit_of_chunk p m).trans (congrArg _ (emitByte_of_room _ room))
  · exact (produceUnit_of_chunk p m).trans (congrArg _ (emitByte_of_room count room))
  · rw [← nibblePair_eq_ofNat]
    exact (produceUnit_of_chunk p m).trans (congrArg _ (emitBrPackedByte_of_room hi lo room))

theorem lowNibble_eq_ofNat : ∀ c : Byte, lowNibble c = BitVec.ofNat 4 c.toNat := by decide

section
variable {s : State} (c : Byte)

theorem emitCount_brWide (m : s.mode = .brWide) : emitCount c s = emitByte c s := by
  rw [emitCount, m]
  rfl

theorem emitCount_first (m : s.mode = .brPacked) (free : s.nibValid = false) :
    emitCount c s = .go (s.setNibble true (lowNibble c)) := by
  rw [emitCount, m]
  exact if_neg (by simp [free])

theorem emitCount_second (m : s.mode = .brPacked) (held : s.nibValid = true) :
    emitCount c s = emitBrPackedByte s.nibHold (lowNibble c) s := by
  rw [emitCount, m]
  exact if_pos held

end

/-- Settles O30: the three cases of `EmitCount`, each with the byte it completes. -/
theorem countsArePacked : Obligations.CountsArePacked := by
  refine fun s c room => ⟨fun m => ?_, fun m small free => ?_, fun m small held => ?_⟩
  · rw [emitCount_brWide c m, emitByte_of_room c room]
  · rw [emitCount_first c m free, lowNibble_eq_ofNat]
    rfl
  · rw [emitCount_second c m held, emitBrPackedByte_of_room _ _ room, nibblePair_of_count _ _ small]

end Sys2Proof.Machine

/-! PROOFS for the pixel unpacker (spec/40_pixel_unpacker.md). A pixel of a byte as a number and as a bit field
(R80, R83), which settles O26; then the stream of a chunk, byte by byte (R81), which settles O27. -/

namespace Sys2Proof.Machine

/-! ### The pixels of a byte -/

theorem bpp_le (c : BppCode) : c.bpp ≤ 8 := by cases c <;> decide

/-- R80 as arithmetic: the shift is a quotient, the mask a remainder. -/
theorem toNat_pixelAt (c : BppCode) (b : Byte) (k : Nat) :
    (pixelAt c b k).toNat = b.toNat / 2 ^ (8 - c.bpp * (k + 1)) % 2 ^ c.bpp := by
  have mask : (BitVec.ofNat 8 (2 ^ c.bpp - 1)).toNat = 2 ^ c.bpp - 1 := by cases c <;> rfl
  rw [pixelAt, BitVec.toNat_and, mask, BitVec.toNat_ushiftRight, Nat.shiftRight_eq_div_pow,
    Nat.and_two_pow_sub_one_eq_mod]

/-- R83. -/
theorem toNat_pixelAt_lt (c : BppCode) (b : Byte) (k : Nat) : (pixelAt c b k).toNat < 2 ^ c.bpp := by
  rw [toNat_pixelAt]
  exact Nat.mod_lt _ (Nat.two_pow_pos _)

/-- R80 as a bit field. -/
theorem pixelAt_eq_extractLsb' (c : BppCode) (b : Byte) (k : Nat) :
    pixelAt c b k = (b.extractLsb' (8 - c.bpp * (k + 1)) c.bpp).setWidth 8 := by
  apply BitVec.eq_of_toNat_eq
  rw [toNat_pixelAt, BitVec.toNat_setWidth_of_le (bpp_le c), BitVec.extractLsb'_toNat, Nat.shiftRight_eq_div_pow]

theorem extractLsb'_one {w : Nat} (x : BitVec w) (i : Nat) : x.extractLsb' i 1 = BitVec.ofBool (x.getLsbD i) := by
  ext j hj
  obtain rfl : j = 0 := by omega
  simp

theorem getElem?_unpack {c : BppCode} {k : Nat} (b : Byte) (h : k < c.ppb) :
    (unpack c b)[k]? = some (pixelAt c b k) := by
  simp [unpack, h]

theorem mem_unpack {c : BppCode} {b p : Byte} : p ∈ unpack c b ↔ ∃ k < c.ppb, pixelAt c b k = p := by
  simp [unpack]

theorem unpack_eq_map_extractLsb' (c : BppCode) (b : Byte) :
    unpack c b = (List.range c.ppb).map fun k => (b.extractLsb' (8 - c.bpp * (k + 1)) c.bpp).setWidth 8 :=
  List.map_congr_left fun k _ => pixelAt_eq_extractLsb' c b k

/-- The row of R80's table for one bit per pixel, whose fields are single bits. -/
theorem unpack_bpp1 (b : Byte) :
    unpack .bpp1 b = [7, 6, 5, 4, 3, 2, 1, 0].map fun i => (BitVec.ofBool (b.getLsbD i)).setWidth 8 := by
  simp only [← extractLsb'_one]
  exact unpack_eq_map_extractLsb' .bpp1 b

/-- The row of R80's table for eight bits per pixel, whose only field is the byte. -/
theorem unpack_bpp8 (b : Byte) : unpack .bpp8 b = [b] := by
  have row : unpack .bpp8 b = [(b.extractLsb' 0 8).setWidth 8] := unpack_eq_map_extractLsb' .bpp8 b
  rw [row, BitVec.extractLsb'_eq_self, BitVec.setWidth_eq]

/-- Settles O26: a pixel is a quotient and a remainder, which bounds it, and a bit field, which gives the table. -/
theorem unpackTakesTheMostSignificantPixelFirst : Obligations.UnpackTakesTheMostSignificantPixelFirst := by
  refine ⟨fun c b k h => ?_, length_unpack, fun c b p mem => ?_, fun b =>
    ⟨unpack_bpp8 b, unpack_eq_map_extractLsb' .bpp4 b, unpack_eq_map_extractLsb' .bpp2 b, unpack_bpp1 b⟩⟩
  · rw [getElem?_unpack b h, Option.map_some, toNat_pixelAt]
  · obtain ⟨k, -, rfl⟩ := mem_unpack.mp mem
    exact toNat_pixelAt_lt c b k

/-! ### The stream of a chunk -/

theorem length_unpackChunk (c : BppCode) (bytes : List Byte) : (unpackChunk c bytes).length = bytes.length * c.ppb := by
  simp [unpackChunk, length_unpack]

theorem unpackChunk_cons (c : BppCode) (b : Byte) (bytes : List Byte) :
    unpackChunk c (b :: bytes) = unpack c b ++ unpackChunk c bytes := List.flatMap_cons

/-- R81: byte `i` gives the pixels from `i * ppb` on. -/
theorem getElem?_unpackChunk {c : BppCode} {k : Nat} (h : k < c.ppb) (bytes : List Byte) (i : Nat) :
    (unpackChunk c bytes)[i * c.ppb + k]? = (bytes[i]?).bind fun b => (unpack c b)[k]? := by
  induction bytes generalizing i with
  | nil => rfl
  | cons b bytes ih =>
    rw [unpackChunk_cons]
    cases i with
    | zero =>
      rw [Nat.zero_mul, Nat.zero_add, List.getElem?_append_left (by rwa [length_unpack])]
      rfl
    | succ i =>
      have past : (i + 1) * c.ppb + k = (unpack c b).length + (i * c.ppb + k) := by rw [length_unpack]; ring
      rw [past, List.getElem?_append_right (Nat.le_add_right ..), Nat.add_sub_cancel_left, ih, List.getElem?_cons_succ]

/-- Settles O27, by induction on the bytes: each gives `ppb` pixels, so byte `i` starts at pixel `i * ppb`. -/
theorem unpackChunkKeepsTheOrder : Obligations.UnpackChunkKeepsTheOrder :=
  fun c bytes => ⟨length_unpackChunk c bytes, fun i _ h => getElem?_unpackChunk h bytes i, rfl⟩

end Sys2Proof.Machine

/-! PROOFS for the value-run encoder (spec/41_value_run.md). The preparation of a pixel (O28); the run list of a stream
as a partition of it into segments (O33); then one pixel (O29), the flush (O19), and the pixels of a chunk with the
flush (O36), each with the exact bytes and the whole next state. -/

namespace Sys2Proof.Machine

/-! ### Pixel preparation (R90, R91, R110) -/

theorem toNat_quant_bpp8 (v : Byte) : (quant .bpp8 v).toNat = v.toNat / 16 := by
  rw [quant, BitVec.toNat_ushiftRight, Nat.shiftRight_eq_div_pow]

/-- R90 below 8 bits per pixel: the mask is a remainder. -/
theorem toNat_quant_of_ne_bpp8 {c : BppCode} (ne : c ≠ .bpp8) (v : Byte) : (quant c v).toNat = v.toNat % 16 := by
  have masked : (v &&& 0xF).toNat = v.toNat % 16 := Nat.and_two_pow_sub_one_eq_mod v.toNat 4
  cases c with
  | bpp1 => exact masked
  | bpp2 => exact masked
  | bpp4 => exact masked
  | bpp8 => exact absurd rfl ne

/-- R90: a pixel of at most four bits is its own quantisation. -/
theorem quant_of_pixel {c : BppCode} (ne : c ≠ .bpp8) {v : Byte} (h : v.toNat < 2 ^ c.bpp) : quant c v = v := by
  have nibble : 2 ^ c.bpp ≤ 16 := by
    cases c with
    | bpp1 => decide
    | bpp2 => decide
    | bpp4 => decide
    | bpp8 => exact absurd rfl ne
  apply BitVec.eq_of_toNat_eq
  rw [toNat_quant_of_ne_bpp8 ne]
  exact Nat.mod_eq_of_lt (h.trans_le nibble)

theorem thresh_iff (v : Byte) : thresh v = true ↔ v ≠ 0 := bne_iff_ne

/-- Settles O28: the quantiser as a quotient or a remainder by 16; its range is R91's. -/
theorem pixelPreparation : Obligations.PixelPreparation :=
  ⟨toNat_quant_bpp8, fun _ v ne => ⟨toNat_quant_of_ne_bpp8 ne v, quant_of_pixel ne⟩,
    fun c v => Nat.le_of_lt_succ (prepVR_lt c v), fun _ _ => ⟨rfl, rfl⟩, thresh_iff⟩

/-! ### The run list (R92, R93) -/

/-- Where the inner loop stops: at the capacity, or before something else than `v`. -/
theorem runLength_stop {α : Type} [DecidableEq α] (cap : Nat) (v : α) (s : List α) :
    runLength cap v s = cap ∨ (s.drop (runLength cap v s)).head? ≠ some v := by
  induction cap generalizing s with
  | zero => exact .inl rfl
  | succ n ih =>
    cases s with
    | nil => exact .inr (by simp)
    | cons x xs =>
      unfold runLength
      split
      · exact (ih xs).imp_left (congrArg _)
      · rename_i ne
        exact .inr (by simpa using ne)

/-- Induction over the rounds of R92, each as the segment that it takes off the stream: `vRuns_replicate` says what a
round adds to the run list. -/
theorem segment_induction {cap : Nat} (pos : 1 ≤ cap) {P : List Byte → Prop} (nil : P [])
    (segment : ∀ c v xs, 1 ≤ c → c ≤ cap → (c = cap ∨ xs.head? ≠ some v) → P xs →
      P (List.replicate c v ++ xs))
    (s : List Byte) : P s := by
  induction s using vRuns_induction cap with
  | nil => exact nil
  | round v rest ih =>
    have le := runLength_le_cap (cap - 1) v rest
    have stop := runLength_stop (cap - 1) v rest
    rw [Nat.add_comm, List.drop_succ_cons] at ih
    have taken := segment (runLength (cap - 1) v rest + 1) v _ (by omega) (by omega) (stop.imp_left (by omega)) ih
    rwa [List.replicate_succ, List.cons_append, replicate_runLength_append_drop] at taken

/-- The first run has the value of the first pixel. -/
theorem head?_of_mem_head?_vRuns {cap : Nat} {s : List Byte} {r : Nat × Byte} (h : r ∈ (vRuns cap s).head?) :
    s.head? = some r.2 := by
  cases s with
  | nil => cases h
  | cons v rest =>
    rw [vRuns_cons] at h
    cases h
    rfl

/-- R93 item 3, of a run and the next one. -/
def FullIfSameValue (cap : Nat) (r q : Nat × Byte) : Prop := r.2 = q.2 → r.1 = cap

theorem isChain_vRuns {cap : Nat} (pos : 1 ≤ cap) (s : List Byte) : (vRuns cap s).IsChain (FullIfSameValue cap) := by
  induction s using segment_induction pos with
  | nil => exact .nil
  | segment c v xs hpos le stop ih =>
    rw [vRuns_replicate cap c v xs hpos le stop, List.isChain_cons]
    refine ⟨fun q next same => stop.resolve_right fun other => other ?_, ih⟩
    rw [head?_of_mem_head?_vRuns next]
    exact congrArg some same.symm

/-- A stream is cut at every change of value: the rounds of the first part end at its end. -/
theorem vRuns_append {cap : Nat} (pos : 1 ≤ cap) {pre post : List Byte}
    (change : ∀ v, pre.getLast? = some v → post.head? ≠ some v) :
    vRuns cap (pre ++ post) = vRuns cap pre ++ vRuns cap post := by
  induction pre using segment_induction pos with
  | nil => rfl
  | segment c v xs hpos le stop ih =>
    have change' : ∀ w, xs.getLast? = some w → post.head? ≠ some w := fun w last =>
      change w (by rw [List.getLast?_append, last]; rfl)
    have stop' : c = cap ∨ (xs ++ post).head? ≠ some v := by
      cases xs with
      | nil => exact .inr (change v (by rw [List.append_nil, List.getLast?_replicate, if_neg (by omega)]))
      | cons x xs => exact stop
    rw [List.append_assoc, vRuns_replicate cap c v _ hpos le stop', vRuns_replicate cap c v _ hpos le stop, ih change',
      List.cons_append]

/-- As many full runs as a segment of equal pixels begins with. -/
theorem vRuns_replicate_mul {cap : Nat} (pos : 1 ≤ cap) (n : Nat) (v : Byte) (xs : List Byte) :
    vRuns cap (List.replicate (n * cap) v ++ xs) = List.replicate n (cap, v) ++ vRuns cap xs := by
  induction n with
  | zero =>
    rw [Nat.zero_mul]
    rfl
  | succ n ih =>
    rw [Nat.succ_mul, Nat.add_comm, List.replicate_add, List.append_assoc,
      vRuns_replicate cap cap v _ pos (Nat.le_refl _) (.inl rfl), ih, List.replicate_succ, List.cons_append]

/-- R93 item 4, with nothing before the segment: full runs, then the remainder. -/
theorem vRuns_segment {cap : Nat} (pos : 1 ≤ cap) (len : Nat) {v : Byte} {post : List Byte}
    (stop : post.head? ≠ some v) :
    vRuns cap (List.replicate len v ++ post)
      = List.replicate (len / cap) (cap, v) ++ (if len % cap = 0 then [] else [(len % cap, v)]) ++ vRuns cap post := by
  have remainder : vRuns cap (List.replicate (len % cap) v ++ post)
      = (if len % cap = 0 then [] else [(len % cap, v)]) ++ vRuns cap post := by
    split
    · rename_i none
      rw [none]
      rfl
    · exact vRuns_replicate cap _ v post (by omega) (Nat.mod_lt len pos).le (.inr stop)
  calc vRuns cap (List.replicate len v ++ post)
      = vRuns cap (List.replicate (len / cap * cap) v ++ (List.replicate (len % cap) v ++ post)) := by
        rw [← List.append_assoc, ← List.replicate_add, Nat.div_add_mod']
    _ = _ := by rw [vRuns_replicate_mul pos, remainder, List.append_assoc]

/-- Settles O33: the run list partitions the stream into segments, each as long as the capacity and the next value
let it be. -/
theorem runListProperties : Obligations.RunListProperties := by
  intro cap s pos
  refine ⟨fun r mem => ?_, expandUnits_vRuns cap s, ?_, fun pre post r q runs => ?_,
    fun pre post v len one before after => ?_, rfl⟩
  · obtain ⟨lo, hi, -⟩ := mem_vRuns pos r mem
    exact ⟨lo, hi⟩
  · rw [← length_expandUnits, expandUnits_vRuns]
  · have chain := isChain_vRuns pos s
    rw [runs, List.isChain_append_cons_cons] at chain
    obtain ⟨-, full, -⟩ := chain
    exact full
  · have head : (List.replicate len v ++ post).head? = some v := by
      obtain ⟨n, rfl⟩ : ∃ n, len = n + 1 := ⟨len - 1, by omega⟩
      rfl
    have cut : vRuns cap (pre ++ (List.replicate len v ++ post)) = _ := vRuns_append pos fun w last same =>
      before (by rw [last, ← same, head])
    rw [List.append_assoc, cut, vRuns_segment pos len after]
    simp only [List.append_assoc]

/-! ### One pixel (R97) -/

theorem length_unitBytesVR {m : Mode} (hm : m.isValueRun = true) (c v : Byte) :
    (unitBytesVR m c v).length = maxEndBytes m := by
  cases m with
  | vrWide => rfl
  | vrPacked => rfl
  | brWide => cases hm
  | brPacked => cases hm

theorem maxEndBytes_le_two (m : Mode) : maxEndBytes m ≤ 2 := by cases m <;> decide

/-- Settles O29, by the equations of the four cases, with room for the unit that a case emits. -/
theorem valueRunPixelCases : Obligations.ValueRunPixelCases := by
  intro s q m room
  have cap := cap_of_isValueRun m
  have unitRoom (c v : Byte) : roomForBytes s (unitBytesVR s.mode c v).length = true :=
    roomForBytes_mono room ((length_unitBytesVR m c v).trans_le (maxEndBytes_le_two s.mode))
  refine ⟨vrStep_start q, fun running same short => ?_, fun running same full => ?_, fun running ne => ?_⟩
  · have succ := toNat_succ_of_le (Nat.le_refl s.runCnt.toNat) (by omega)
    rw [same, vrStep_extend running (by omega), State.setRun, ← running]
  · have succ := toNat_succ_of_le (Nat.le_refl s.runCnt.toNat) (by omega)
    rw [same, vrStep_saturate running (by omega),
      emitRun_of_room (s := s.setRun true s.runVal (s.runCnt + 1)) m (unitRoom _ _)]
    rfl
  · rw [vrStep_change running ne, emitRun_of_room m (unitRoom _ _), Flow.andThen_go, State.setRun, ← running]
    rfl

/-! ### The flush (R98) -/

/-- The bytes of the run in progress, which the flush emits. -/
def unitInProgress (s : State) : List Byte :=
  if s.runValid then unitBytesVR s.mode s.runCnt s.runVal else []

section
variable {s : State}

theorem unitInProgress_of_running (running : s.runValid = true) :
    unitInProgress s = unitBytesVR s.mode s.runCnt s.runVal := if_pos running

theorem unitInProgress_of_idle (idle : s.runValid = false) : unitInProgress s = [] := if_neg (by simp [idle])

/-- R98, with room. -/
theorem vrFlush_of_room (m : s.mode.isValueRun = true) (room : roomForBytes s (unitInProgress s).length = true) :
    vrFlush s = .go ((s.emitted (unitInProgress s)).setRun false 0 0) := by
  cases running : s.runValid with
  | false =>
    rw [vrFlush, unitInProgress_of_idle running, State.emitted_nil, if_neg (by simp [running])]
    rfl
  | true =>
    rw [unitInProgress_of_running running] at room ⊢
    rw [vrFlush, if_pos running, emitRun_of_room m room]
    rfl

/-- R143's bound on `END`: the flush emits one unit at most. -/
theorem length_unitInProgress_le (m : s.mode.isValueRun = true) : (unitInProgress s).length ≤ maxEndBytes s.mode := by
  cases running : s.runValid with
  | false =>
    rw [unitInProgress_of_idle running]
    exact Nat.zero_le _
  | true =>
    rw [unitInProgress_of_running running]
    exact (length_unitBytesVR m _ _).le

/-- The run in progress is the run list of its pixels (R15, R92). -/
theorem packVR_vRuns_pendingPixels (m : s.mode.isValueRun = true) (short : ShortRun s.mode.cap s.runValid s.runCnt) :
    packVR s.mode (vRuns s.mode.cap (pendingPixels s)) = unitInProgress s := by
  rw [pendingPixels, vRuns_pending short]
  cases running : s.runValid with
  | false =>
    rw [unitInProgress_of_idle running]
    exact packVR_nil _
  | true =>
    rw [running] at short
    obtain ⟨pos, -⟩ := short
    rw [unitInProgress_of_running running]
    exact packVR_singleton s.runVal pos m

end

/-- Settles O19: `END` has room for the one unit that the flush can emit. -/
theorem endFlushesTheValueRun : Obligations.EndFlushesTheValueRun := fun _ p m room =>
  execEnd_flushed p ((flushChunk_of_isValueRun m).trans
    (vrFlush_of_room m (roomForBytes_mono room (length_unitInProgress_le m))))

/-! ### The pixels of a chunk and the flush (R99) -/

/-- Settles O36: what the pixels emit, and then the run that the flush emits, are the packing of the run list. -/
theorem valueRunStreamingIsFunctional : Obligations.ValueRunStreamingIsFunctional := by
  intro s bytes m idle zero room
  obtain ⟨runs, valid, val, cnt, x, fed⟩ := feedPixels_continuesRuns (unpackChunk s.bppc bytes) m
    (by rw [idle]; exact zero)
  have list := x.runList []
  rw [List.append_nil, List.append_nil, pendingPixels_of_idle idle, List.nil_append] at list
  have pending := packVR_vRuns_pendingPixels (s := s.afterRuns runs valid val cnt) m x.short
  have encoding : encodeChunk s.mode s.bppc bytes
      = packVR s.mode runs ++ unitInProgress (s.afterRuns runs valid val cnt) := by
    rw [encodeChunk_of_isValueRun m, preparedVR, list, packVR_append]
    exact congrArg _ pending
  rw [encoding, List.length_append] at room
  have flushed := vrFlush_of_room (s := s.afterRuns runs valid val cnt) m
    (((Grew.afterRuns ..).roomForBytes _).trans room)
  rw [fed (roomForBytes_mono room (Nat.le_add_right _ _)), Flow.andThen_go, flushed, encoding, State.emitted_append]
  rfl

end Sys2Proof.Machine

/-! PROOFS for the bit-run encoder (spec/42_bit_run.md). One pixel (O31); the count list of a stream as a partition of it
into segments (O34, O35); then the flush (O20), and the pixels of a chunk with the flush (O37), each with the exact bytes
and the whole next state. -/

namespace Sys2Proof.Machine

/-! ### One pixel (R117) -/

theorem cap_le (m : Mode) : m.cap ≤ 255 := by cases m <;> decide

theorem emitCount_go_tgt {c : Byte} {s t : State} (h : emitCount c s = .go t) : t.tgt = s.tgt := by
  obtain ⟨-, tgt, -⟩ := emitCount_registers c s
  rwa [h] at tgt

/-- Settles O31, by the equations of the three cases: `EmitCount` leaves the target as it was. -/
theorem bitRunPixelCases : Obligations.BitRunPixelCases := by
  intro s b
  have cap := cap_le s.mode
  have succ (le : s.runCnt.toNat + 1 ≤ s.mode.cap) : (s.runCnt + 1).toNat = s.runCnt.toNat + 1 :=
    toNat_succ_of_le (Nat.le_refl _) (by omega)
  refine ⟨fun same short => ?_, fun same full t emit => ?_, fun ne t emit => ?_⟩
  · have short' := succ short.le
    rw [same, brStep_extend (by omega)]
    rfl
  · have full' := (succ full.le).trans full
    have count : BitVec.ofNat 8 s.mode.cap = s.runCnt + 1 := by rw [← full', BitVec.ofNat_toNat, BitVec.setWidth_eq]
    rw [count] at emit
    change emitCount (s.runCnt + 1) (s.setBitRun s.tgt (s.runCnt + 1)) = .go t at emit
    rw [same, brStep_saturate full', emit]
    exact ⟨rfl, (emitCount_go_tgt emit :)⟩
  · rw [brStep_toggle ne, emit, Flow.andThen_go, emitCount_go_tgt emit]
    rfl

/-! ### The count list (R111 to R114) -/

/-- Settles O35: an empty segment of target bits is a count of 0, at the beginning or after a full count. -/
theorem zeroCountsAreEmitted : Obligations.ZeroCountsAreEmitted := fun cap rest pos =>
  ⟨bCountsFrom_change cap 0 pos false rest, fun t =>
    (bCountsFrom_full cap pos t _).trans (congrArg _ (bCountsFrom_change cap 0 pos t rest))⟩

/-- Induction over the rounds of R111, each as the segment of target bits that it takes off the stream: a full one, one
before the other bit, or the last one. `bCountsFrom_full`, `bCountsFrom_change` and `bCountsFrom_last` say what each adds to
the count list. -/
theorem countSegment_induction {cap : Nat} (pos : 1 ≤ cap) {P : Bool → List Bool → Prop} (nil : ∀ t, P t [])
    (full : ∀ t xs, P t xs → P t (List.replicate cap t ++ xs))
    (change : ∀ c t xs, c < cap → P (!t) ((!t) :: xs) → P t (List.replicate c t ++ (!t) :: xs))
    (last : ∀ c t, 1 ≤ c → c < cap → P t (List.replicate c t)) (t : Bool) (s : List Bool) : P t s := by
  induction t, s using bCounts_induction pos with
  | nil t => exact nil t
  | round t x xs ih =>
    have segment := replicate_runLength_append_drop cap t (x :: xs)
    obtain eq | lt := (runLength_le_cap cap t (x :: xs)).eq_or_lt
    · rw [eq, if_neg (Nat.lt_irrefl _)] at ih
      rw [← segment, eq]
      exact full t _ ih
    · have stop := (runLength_stop cap t (x :: xs)).resolve_left lt.ne
      rw [if_pos lt] at ih
      cases rest : (x :: xs).drop (runLength cap t (x :: xs)) with
      | nil =>
        rw [rest, List.append_nil] at segment
        have length := congrArg List.length segment
        rw [List.length_replicate, List.length_cons] at length
        rw [← segment]
        exact last _ t (by omega) lt
      | cons y ys =>
        rw [rest] at ih stop segment
        obtain rfl : y = !t := Bool.eq_not.mpr (by simpa using stop)
        rw [← segment]
        exact change _ t ys lt ih

section
variable {cap : Nat}

theorem sum_bCountsFrom (pos : 1 ≤ cap) (t : Bool) (s : List Bool) : (bCountsFrom cap t s).sum = s.length := by
  induction t, s using countSegment_induction pos with
  | nil t => rfl
  | full t xs ih => simp [bCountsFrom_full cap pos, ih]
  | change c t xs lt ih => simp [bCountsFrom_change cap c lt, ih]
  | last c t hc lt => simp [bCountsFrom_last cap c hc lt]

/-- A stream that begins with the target has a first count, and it is not 0. -/
theorem bCountsFrom_target (pos : 1 ≤ cap) (t : Bool) (xs : List Bool) :
    ∃ c l, bCountsFrom cap t (t :: xs) = (c + 1) :: l := by
  obtain ⟨n, rfl⟩ : ∃ n, cap = n + 1 := ⟨cap - 1, by omega⟩
  have first : runLength (n + 1) t (t :: xs) = runLength n t xs + 1 := if_pos rfl
  exact ⟨_, _, (bCountsFrom_cons _ pos t t xs).trans (by rw [first])⟩

/-- R114 item 2, of a count and the next one. -/
def NotBothZero (c d : Nat) : Prop := c = 0 → d ≠ 0

/-- R114: a count of 0 is of an empty segment, and the bit after it is the next target. -/
theorem isChain_bCountsFrom (pos : 1 ≤ cap) (t : Bool) (s : List Bool) :
    (bCountsFrom cap t s).IsChain NotBothZero := by
  induction t, s using countSegment_induction pos with
  | nil t => exact .nil
  | full t xs ih =>
    rw [bCountsFrom_full cap pos, List.isChain_cons]
    exact ⟨fun _ _ zero => absurd zero (by omega), ih⟩
  | change c t xs lt ih =>
    obtain ⟨d, l, next⟩ := bCountsFrom_target pos (!t) xs
    rw [next] at ih
    rw [bCountsFrom_change cap c lt, next, List.isChain_cons_cons]
    exact ⟨fun _ => Nat.succ_ne_zero d, ih⟩
  | last c t hc lt =>
    rw [bCountsFrom_last cap c hc lt]
    exact .singleton c

/-- R114: a count of 0 is followed by another one. -/
theorem getLast?_bCountsFrom_ne_zero (pos : 1 ≤ cap) (t : Bool) (s : List Bool) :
    (bCountsFrom cap t s).getLast? ≠ some 0 := by
  induction t, s using countSegment_induction pos with
  | nil t => simp
  | full t xs ih =>
    rw [bCountsFrom_full cap pos, List.getLast?_cons]
    cases after : (bCountsFrom cap t xs).getLast? with
    | none => simpa using Nat.ne_of_gt pos
    | some d => rwa [after] at ih
  | change c t xs lt ih =>
    obtain ⟨d, l, next⟩ := bCountsFrom_target pos (!t) xs
    rw [next] at ih
    rwa [bCountsFrom_change cap c lt, next, List.getLast?_cons_cons]
  | last c t hc lt => simpa [bCountsFrom_last cap c hc lt] using Nat.ne_of_gt hc

/-- R114: only a first bit other than the target can cost a count more than there are bits. -/
theorem length_bCountsFrom_le (two : 2 ≤ cap) (t : Bool) (s : List Bool) :
    (bCountsFrom cap t s).length ≤ s.length + 1 ∧
      (s.head? ≠ some (!t) → (bCountsFrom cap t s).length ≤ s.length) := by
  have pos : 1 ≤ cap := by omega
  induction t, s using countSegment_induction pos with
  | nil t => simp
  | full t xs ih =>
    obtain ⟨bound, -⟩ := ih
    rw [bCountsFrom_full cap pos, List.length_cons, List.length_append, List.length_replicate]
    omega
  | change c t xs lt ih =>
    obtain ⟨-, bound⟩ := ih
    have bound := bound (by simp)
    rw [bCountsFrom_change cap c lt, List.length_cons, List.length_append, List.length_replicate]
    refine ⟨by omega, fun other => ?_⟩
    have nonempty : c ≠ 0 := by
      rintro rfl
      exact other rfl
    omega
  | last c t hc lt =>
    rw [bCountsFrom_last cap c hc lt, List.length_replicate, List.length_singleton]
    omega

/-- As many full counts as a segment of target bits begins with. -/
theorem bCountsFrom_replicate_mul (pos : 1 ≤ cap) (n : Nat) (t : Bool) (xs : List Bool) :
    bCountsFrom cap t (List.replicate (n * cap) t ++ xs) = List.replicate n cap ++ bCountsFrom cap t xs := by
  induction n with
  | zero =>
    rw [Nat.zero_mul]
    rfl
  | succ n ih =>
    rw [Nat.succ_mul, Nat.add_comm, List.replicate_add, List.append_assoc, bCountsFrom_full cap pos, ih,
      List.replicate_succ, List.cons_append]

/-- What is left of a segment after its full counts: its count, which may be 0 only where the stream goes on (R112). -/
theorem bCountsFrom_remainder {c : Nat} (lt : c < cap) {t : Bool} {post : List Bool} (stop : post.head? ≠ some t) :
    bCountsFrom cap t (List.replicate c t ++ post)
      = (if c = 0 then (if post = [] then [] else [0]) else [c]) ++ bCountsFrom cap (!t) post := by
  cases post with
  | nil =>
    rw [List.append_nil, bCountsFrom_nil, List.append_nil, if_pos rfl]
    split
    · rename_i zero
      rw [zero]
      rfl
    · exact bCountsFrom_last cap c (by omega) lt t
  | cons y ys =>
    obtain rfl : y = !t := Bool.eq_not.mpr (by simpa using stop)
    rw [bCountsFrom_change cap c lt, if_neg (List.cons_ne_nil _ _)]
    split
    · rename_i zero
      rw [zero]
      rfl
    · rfl

/-- R114 item 4: full counts, then the remainder. -/
theorem bCountsFrom_segment (pos : 1 ≤ cap) (len : Nat) {t : Bool} {post : List Bool} (stop : post.head? ≠ some t) :
    bCountsFrom cap t (List.replicate len t ++ post)
      = List.replicate (len / cap) cap
        ++ (if len % cap = 0 then (if post = [] then [] else [0]) else [len % cap]) ++ bCountsFrom cap (!t) post := by
  calc bCountsFrom cap t (List.replicate len t ++ post)
      = bCountsFrom cap t (List.replicate (len / cap * cap) t ++ (List.replicate (len % cap) t ++ post)) := by
        rw [← List.append_assoc, ← List.replicate_add, Nat.div_add_mod']
    _ = _ := by
        rw [bCountsFrom_replicate_mul pos, bCountsFrom_remainder (Nat.mod_lt len pos) stop, List.append_assoc]

/-- R114: replaying the counts gives the stream back. -/
theorem decBRBits_bCounts (pos : 1 ≤ cap) (s : List Bool) : decBRBits cap (bCounts cap s) s.length = s := by
  have replayed := decBitsLoop_bCountsFrom pos [] false s
  rw [List.append_nil] at replayed
  rw [decBRBits, bCounts, replayed, fillTo_length]

end

/-- Settles O34: the count list partitions the stream into segments of alternating target bits, cut at the capacity. -/
theorem countListProperties : Obligations.CountListProperties := by
  intro cap s two
  have pos : 1 ≤ cap := by omega
  obtain ⟨bound, -⟩ := length_bCountsFrom_le two false s
  refine ⟨bCountsFrom_le_cap pos false s, sum_bCountsFrom pos false s, fun pre post c d counts => ?_,
    getLast?_bCountsFrom_ne_zero pos false s, rfl, fun t len post _ stop => bCountsFrom_segment pos len stop,
    bound, decBRBits_bCounts pos s⟩
  have chain := isChain_bCountsFrom pos false s
  have counts : bCountsFrom cap false s = pre ++ c :: d :: post := counts
  rw [counts, List.isChain_append_cons_cons] at chain
  obtain ⟨-, notBoth, -⟩ := chain
  exact notBoth

/-! ### The flush (R118) -/

/-- The count in progress, which the flush emits if it is not 0. -/
def countInProgress (s : State) : List Nat := if s.runCnt = 0 then [] else [s.runCnt.toNat]

/-- What the flush has to pack (R24): the held count and the one in progress. -/
def countsLeft (s : State) : List Nat := heldCount s ++ countInProgress s

section
variable {s : State}

theorem countInProgress_of_zero (zero : s.runCnt = 0) : countInProgress s = [] := if_pos zero

theorem countInProgress_of_ne_zero (nonzero : s.runCnt ≠ 0) : countInProgress s = [s.runCnt.toNat] := if_neg nonzero

/-- Outside `BR_PACKED` no count goes into the nibble register. -/
theorem Packs.unused {m : Mode} {v0 v : Bool} {h0 h : Nibble} {counts packed : List Nat}
    (packs : Packs m v0 h0 counts packed v h) (hm : m.isValueRun = false) (unused : m ≠ .brPacked → v0 = false)
    (ne : m ≠ .brPacked) : v = false := by
  obtain ⟨-, same, -⟩ := packs.wide (eq_brWide hm ne)
  exact same.trans (unused ne)

/-- The last count as `EmitCount` takes it (R118, R120), with room for what it completes. -/
theorem lastCount_packs (m : s.mode.isValueRun = false) (le : s.runCnt.toNat ≤ s.mode.cap) :
    ∃ packed v h, Packs s.mode s.nibValid s.nibHold (countInProgress s) packed v h ∧
      (roomForBytes s (packBR s.mode packed).length = true →
        lastCount s = .go ((s.emitted (packBR s.mode packed)).setNibble v h)) := by
  by_cases zero : s.runCnt = 0
  · rw [countInProgress_of_zero zero]
    refine ⟨[], s.nibValid, s.nibHold, .nil _ _ _, fun _ => ?_⟩
    rw [packBR_nil, State.emitted_nil]
    exact if_pos zero
  · rw [countInProgress_of_ne_zero zero]
    obtain ⟨packed, v, h, packs, emit⟩ := emitCount_packs m le
    exact ⟨packed, v, h, packs, fun room => (if_neg zero).trans (emit room)⟩

/-- A count alone in its byte (R116): over a low nibble of 0. -/
theorem packBRPacked_held : ∀ hold : Nibble, packBRPacked [hold.toNat] = [nibblePair hold 0] := by decide

theorem padNibble_of_brWide (m : s.mode = .brWide) : padNibble s = .go s := if_neg (by simp [m])

/-- The pad (R118), with room: a held count goes out alone. -/
theorem padNibble_eq_go (unused : s.mode ≠ .brPacked → s.nibValid = false)
    (room : roomForBytes s (packBR s.mode (heldCount s)).length = true) :
    padNibble s = .go ((s.emitted (packBR s.mode (heldCount s))).setNibble false s.nibHold) := by
  cases held : s.nibValid with
  | false =>
    rw [heldCount, held, if_neg (by simp), packBR_nil, State.emitted_nil, padNibble, if_neg (by simp [held]),
      State.setNibble, ← held]
  | true =>
    have packed : s.mode = .brPacked := Classical.not_not.mp fun ne => by simp [unused ne] at held
    have byte : packBR s.mode (heldCount s) = [nibblePair s.nibHold 0] := by
      rw [packed, heldCount, held]
      exact packBRPacked_held s.nibHold
    rw [byte] at room ⊢
    rw [padNibble, if_pos ⟨packed, held⟩, emitBrPackedByte_of_room _ _ room]
    rfl

/-- R118, with room: the count in progress joins the held one, and what they do not complete is padded. -/
theorem brFlush_of_room (m : s.mode.isValueRun = false) (unused : s.mode ≠ .brPacked → s.nibValid = false)
    (le : s.runCnt.toNat ≤ s.mode.cap)
    (room : roomForBytes s (packBR s.mode (countsLeft s)).length = true) :
    brFlush s = .go
      (((s.emitted (packBR s.mode (countsLeft s))).setBitRun false 0).setNibble false 0) := by
  obtain ⟨packed, v, h, packs, last⟩ := lastCount_packs m le
  have bytes : packBR s.mode (countsLeft s)
      = packBR s.mode packed ++ packBR s.mode (if v then [h.toNat] else []) := by
    simpa [countsLeft, heldCount] using packs.packBR m unused []
  rw [bytes, List.length_append] at room
  have padded := padNibble_eq_go (s := (s.emitted (packBR s.mode packed)).setNibble v h) (packs.unused m unused)
    ((roomForBytes_emitted s (packBR s.mode packed) _).trans room)
  rw [brFlush_eq, last (roomForBytes_mono room (Nat.le_add_right _ _)), Flow.andThen_go, padded, bytes,
    State.emitted_append]
  rfl

/-- R118 in `BR_WIDE`, with room, whatever the nibble registers hold: the count in progress alone goes out. -/
theorem brFlush_brWide (m : s.mode = .brWide) (room : roomForBytes s 1 = true) :
    brFlush s = .go
      (((s.emitted (if s.runCnt = 0 then [] else [s.runCnt])).setBitRun false 0).setNibble s.nibValid 0) := by
  have last : lastCount s = .go (s.emitted (if s.runCnt = 0 then [] else [s.runCnt])) := by
    unfold lastCount
    split
    · rw [State.emitted_nil]
    · rw [emitCount_brWide _ m, emitByte_of_room _ room]
  rw [brFlush_eq, last, Flow.andThen_go, padNibble_of_brWide (s := s.emitted _) m]
  rfl

/-- R143's bound on `END` in `BR_PACKED`: a held count and the one in progress share a byte. -/
theorem length_packBRPacked_countsLeft_le (s : State) : (packBRPacked (countsLeft s)).length ≤ 1 := by
  have held : (heldCount s).length ≤ 1 := by
    unfold heldCount
    split <;> simp
  have count : (countInProgress s).length ≤ 1 := by
    unfold countInProgress
    split <;> simp
  rw [length_packBRPacked, countsLeft, List.length_append]
  omega

end

/-- Settles O20: `END` has room for the one byte that the flush can emit. -/
theorem endFlushesTheBitRun : Obligations.EndFlushesTheBitRun := by
  intro s p m room
  refine ⟨fun wide => ?_, fun packed le => ?_⟩
  · rw [wide] at room
    rw [execEnd_flushed p ((flushChunk_of_not_isValueRun m).trans (brFlush_brWide wide room))]
    rfl
  · have bytes : packBR s.mode (countsLeft s) = packBRPacked (countsLeft s) := by
      rw [packed]
      rfl
    rw [packed] at room
    have flushed := brFlush_of_room m (fun ne => absurd packed ne) (by rwa [packed])
      (by rw [bytes]; exact roomForBytes_mono room (length_packBRPacked_countsLeft_le s))
    rw [bytes] at flushed
    rw [execEnd_flushed p ((flushChunk_of_not_isValueRun m).trans flushed)]
    rfl

/-! ### The pixels of a chunk and the flush (R119) -/

/-- What bits emit, and then what they leave to the flush, is the packing of the count list. -/
theorem ContinuesCounts.packBR_countsLeft {s : State} {bs : List Bool} {counts packed : List Nat} {t valid : Bool}
    {cnt : Byte} {hold : Nibble} (x : ContinuesCounts s bs counts packed t cnt valid hold)
    (m : s.mode.isValueRun = false) (unused : s.mode ≠ .brPacked → s.nibValid = false) :
    packBR s.mode (heldCount s ++ bCountsFrom s.mode.cap s.tgt (pendingBits s ++ bs))
      = packBR s.mode packed ++ packBR s.mode (countsLeft (s.afterCounts packed t cnt valid hold)) := by
  have list := x.countList []
  rw [List.append_nil, List.append_nil, bCountsFrom_pending t x.short] at list
  rw [list]
  exact x.packs.packBR m unused _

/-- Settles O37: the counts that the pixels emit, and then those left to the flush, are the packing of the count list. -/
theorem bitRunStreamingIsFunctional : Obligations.BitRunStreamingIsFunctional := by
  intro s bytes m target zero free room
  have cap := cap_of_not_isValueRun m
  have unused : s.mode ≠ .brPacked → s.nibValid = false := fun _ => free
  obtain ⟨counts, packed, t, cnt, valid, hold, x, fed⟩ := feedPixels_continuesCounts (unpackChunk s.bppc bytes) m
    (by rw [zero]; exact (by omega : 0 < s.mode.cap))
  have encoding : encodeChunk s.mode s.bppc bytes
      = packBR s.mode packed ++ packBR s.mode (countsLeft (s.afterCounts packed t cnt valid hold)) := by
    rw [← x.packBR_countsLeft m unused, heldCount, free, pendingBits, zero, target]
    exact encodeChunk_of_not_isValueRun m _ _
  rw [encoding, List.length_append] at room
  have flushed := brFlush_of_room (s := s.afterCounts packed t cnt valid hold) m (x.packs.unused m unused) x.short.le
    (((Grew.afterCounts ..).roomForBytes _).trans room)
  rw [fed (roomForBytes_mono room (Nat.le_add_right _ _)), Flow.andThen_go, flushed, encoding, State.emitted_append]
  rfl

end Sys2Proof.Machine

/-! PROOFS for the packer and the offset table (spec/43_packer_offsets.md). One emitted byte (O25); R143's tables as
numbers of units, which settles the bytes of a chunk (O41) and, counted in half bytes along a step, those of a command
(O42); the offsets of a run (O40); and the commands of a whole run, chunk after chunk (O39). -/

namespace Sys2Proof.Machine

/-! ### One byte (R130) -/

/-- Settles O25, by whether `out_count` is at its last value (`counterFull_iff`). -/
theorem emitByteAppendsOrOverflows : Obligations.EmitByteAppendsOrOverflows := by
  refine fun s v => ⟨fun k bounded last => ?_, fun room => ?_⟩
  · exact if_pos ((counterFull_iff _ _).mpr ⟨k, bounded, last⟩)
  · refine if_neg fun full => ?_
    obtain ⟨k, bounded, last⟩ := (counterFull_iff _ _).mp full
    exact room k bounded last

/-! ### Bytes for units

R143's tables count bytes. A count of `BR_PACKED` takes half a byte; in half bytes each mode has one price for a unit,
and the tables are numbers of units, rounded up to whole bytes. -/

/-- The half bytes of one unit (R66 to R69). -/
def unitHalves : Mode → Nat
  | .vrWide => 4
  | .vrPacked | .brWide => 2
  | .brPacked => 1

/-- The bytes of `n` units, the zero pad of the last one included (R116). -/
def unitBytes (m : Mode) (n : Nat) : Nat := (n * unitHalves m + 1) / 2

theorem unitBytes_mono (m : Mode) {a b : Nat} (le : a ≤ b) : unitBytes m a ≤ unitBytes m b :=
  Nat.div_le_div_right (Nat.succ_le_succ (Nat.mul_le_mul_right _ le))

section
variable (m : Mode)

theorem maxPushBytes_eq (c : BppCode) : maxPushBytes m c = unitBytes m c.ppb := by
  cases m <;> cases c <;> rfl

/-- R143's table for `END`: the last unit, and the half byte that one count leaves to the zero pad (R118). -/
theorem two_mul_maxEndBytes : 2 * maxEndBytes m = unitHalves m + (2 - unitHalves m) := by cases m <;> rfl

theorem minChunkBytes_eq (pixels : Nat) : minChunkBytes m pixels = unitBytes m (ceilDiv pixels m.cap) := by
  cases m with
  | vrWide =>
    change 2 * ceilDiv pixels 255 = (ceilDiv pixels 255 * 4 + 1) / 2
    omega
  | vrPacked =>
    change ceilDiv pixels 16 = (ceilDiv pixels 16 * 2 + 1) / 2
    omega
  | brWide =>
    change ceilDiv pixels 255 = (ceilDiv pixels 255 * 2 + 1) / 2
    omega
  | brPacked =>
    change (ceilDiv pixels 15 + 2 - 1) / 2 = (ceilDiv pixels 15 * 1 + 1) / 2
    omega

/-- R143's upper bound in units: in the bit-run family a chunk can begin with a count of 0 (R113). -/
theorem maxChunkBytes_eq {pixels : Nat} (nonzero : pixels ≠ 0) :
    maxChunkBytes m pixels = unitBytes m (if m.isValueRun then pixels else pixels + 1) := by
  refine (if_neg nonzero).trans ?_
  cases m with
  | vrWide =>
    change 2 * pixels = (pixels * 4 + 1) / 2
    omega
  | vrPacked =>
    change pixels = (pixels * 2 + 1) / 2
    omega
  | brWide =>
    change pixels + 1 = ((pixels + 1) * 2 + 1) / 2
    omega
  | brPacked =>
    change (pixels + 1 + 1) / 2 = ((pixels + 1) * 1 + 1) / 2
    omega

theorem unitBytes_eq_zero_iff {n : Nat} : unitBytes m n = 0 ↔ n = 0 := by
  have pos : 1 ≤ unitHalves m := by cases m <;> decide
  have le : n ≤ n * unitHalves m := Nat.le_mul_of_pos_right n pos
  constructor
  · intro zero
    rw [unitBytes] at zero
    omega
  · rintro rfl
    rw [unitBytes, Nat.zero_mul]

end

theorem length_packVR {m : Mode} (hm : m.isValueRun = true) (runs : List (Nat × Byte)) :
    (packVR m runs).length = unitBytes m runs.length := by
  cases m with
  | vrWide =>
    have bytes : (packVR .vrWide runs).length = runs.length * 2 := by
      simp [packVR, packVRWide, List.length_flatMap]
    rw [bytes, unitBytes, unitHalves]
    omega
  | vrPacked =>
    have bytes : (packVR .vrPacked runs).length = runs.length := List.length_map _
    rw [bytes, unitBytes, unitHalves]
    omega
  | brWide => cases hm
  | brPacked => cases hm

theorem length_packBR {m : Mode} (hm : m.isValueRun = false) (counts : List Nat) :
    (packBR m counts).length = unitBytes m counts.length := by
  cases m with
  | vrWide => cases hm
  | vrPacked => cases hm
  | brWide =>
    have bytes : (packBR .brWide counts).length = counts.length := List.length_map _
    rw [bytes, unitBytes, unitHalves]
    omega
  | brPacked =>
    rw [unitBytes, unitHalves, Nat.mul_one]
    exact length_packBRPacked counts

/-! ### The bytes of a chunk (R143) -/

section
variable {cap : Nat}

theorem length_vRuns_le (pos : 1 ≤ cap) (s : List Byte) : (vRuns cap s).length ≤ s.length := by
  induction s using segment_induction pos with
  | nil => exact Nat.le_refl 0
  | segment c v xs one le stop ih =>
    rw [vRuns_replicate cap c v xs one le stop, List.length_cons, List.length_append, List.length_replicate]
    omega

theorem length_le_mul_length_vRuns (pos : 1 ≤ cap) (s : List Byte) : s.length ≤ cap * (vRuns cap s).length := by
  induction s using segment_induction pos with
  | nil => exact Nat.zero_le _
  | segment c v xs one le stop ih =>
    rw [vRuns_replicate cap c v xs one le stop, List.length_cons, List.length_append, List.length_replicate,
      Nat.mul_succ]
    omega

theorem length_le_mul_length_bCountsFrom (pos : 1 ≤ cap) (t : Bool) (s : List Bool) :
    s.length ≤ cap * (bCountsFrom cap t s).length := by
  have bound := List.sum_le_card_nsmul _ cap (bCountsFrom_le_cap pos t s)
  rwa [sum_bCountsFrom pos, smul_eq_mul, Nat.mul_comm] at bound

end

theorem ceilDiv_le {a b n : Nat} (pos : 1 ≤ b) (h : a ≤ b * n) : ceilDiv a b ≤ n := by
  unfold ceilDiv
  exact Nat.le_of_lt_succ ((Nat.div_lt_iff_lt_mul pos).mpr (by rw [Nat.succ_mul, Nat.mul_comm]; omega))

/-- R64: a byte gives `8 / bpp` pixels. -/
theorem mul_eight_div_bpp (c : BppCode) (n : Nat) : n * 8 / c.bpp = n * c.ppb := by
  cases c <;> simp only [BppCode.ppb, BppCode.bpp] <;> omega

/-- The units of a chunk: none has more pixels than the capacity, and none but a first count of 0 has no pixel. -/
theorem length_encodeChunk (m : Mode) (c : BppCode) (bytes : List Byte) :
    ∃ n, (encodeChunk m c bytes).length = unitBytes m n ∧ bytes.length * c.ppb ≤ m.cap * n ∧
      n ≤ if m.isValueRun then bytes.length * c.ppb else bytes.length * c.ppb + 1 := by
  rw [← length_unpackChunk]
  cases hm : m.isValueRun with
  | true =>
    have cap := cap_of_isValueRun hm
    have prepared : (preparedVR m c bytes).length = (unpackChunk c bytes).length := List.length_map _
    rw [encodeChunk_of_isValueRun hm, length_packVR hm, ← prepared]
    exact ⟨_, rfl, length_le_mul_length_vRuns (by omega) _, length_vRuns_le (by omega) _⟩
  | false =>
    have cap := cap_of_not_isValueRun hm
    have prepared : (preparedBR c bytes).length = (unpackChunk c bytes).length := List.length_map _
    obtain ⟨bound, -⟩ := length_bCountsFrom_le (cap := m.cap) (by omega) false (preparedBR c bytes)
    rw [encodeChunk_of_not_isValueRun hm, length_packBR hm, ← prepared]
    exact ⟨_, rfl, length_le_mul_length_bCountsFrom (by omega) false _, bound⟩

theorem pixels_eq_zero_iff {c : BppCode} {bytes : List Byte} : bytes.length * c.ppb = 0 ↔ bytes = [] := by
  have pos : c.ppb ≠ 0 := by cases c <;> decide
  simp [pos]

/-- R134: a chunk with a byte has a pixel, and so a unit. -/
theorem encodeChunk_eq_nil_iff {m : Mode} {c : BppCode} {bytes : List Byte} :
    encodeChunk m c bytes = [] ↔ bytes = [] := by
  constructor
  · intro empty
    obtain ⟨n, length, covered, -⟩ := length_encodeChunk m c bytes
    rw [empty, List.length_nil, eq_comm, unitBytes_eq_zero_iff] at length
    rw [length, Nat.mul_zero] at covered
    exact pixels_eq_zero_iff.mp (Nat.le_zero.mp covered)
  · rintro rfl
    cases m <;> rfl

/-- Settles O41: both columns of R143's table are bytes of units, and the number of units is between theirs. -/
theorem encodedSizeBounds : Obligations.EncodedSizeBounds := by
  intro m c bytes
  have cap : 1 ≤ m.cap := by cases m <;> decide
  obtain ⟨n, length, covered, bound⟩ := length_encodeChunk m c bytes
  rw [mul_eight_div_bpp]
  refine ⟨?_, ?_⟩
  · rw [minChunkBytes_eq, length]
    exact unitBytes_mono m (ceilDiv_le cap covered)
  · by_cases empty : bytes = []
    · rw [encodeChunk_eq_nil_iff.mpr empty]
      exact Nat.zero_le _
    · rw [maxChunkBytes_eq m (pixels_eq_zero_iff.not.mpr empty), length]
      exact unitBytes_mono m bound

/-! ### The bytes of one command

In `BR_PACKED` a byte is emitted for one count in two, the first being held. Half bytes emitted or held have a bound for
each operation, whatever was held before it and wherever `OVF` stops it. -/

/-- The half bytes that have been emitted or are held (R17, R18). -/
def halvesOut (s : State) : Nat := 2 * s.outCount + s.nibValid.toNat

/-- The byte that a held count completes can cost half a byte more. -/
theorem Grew.two_mul_length_le {s t : State} {l : List Byte} {n : Nat} (g : Grew s t l)
    (halves : halvesOut t ≤ halvesOut s + n) : 2 * l.length ≤ n + 1 := by
  have held := s.nibValid.toNat_le
  have out := g.outCount
  unfold halvesOut at halves
  omega

section
variable {s : State}

theorem Flow.andThen_halvesOut {f : Flow} {k : State → Flow} {m n : Nat} (first : halvesOut f.state ≤ halvesOut s + m)
    (rest : ∀ t, f = .go t → halvesOut (k t).state ≤ halvesOut t + n) :
    halvesOut (f.andThen k).state ≤ halvesOut s + (m + n) := by
  cases f with
  | stop t => exact first.trans (by omega)
  | go t =>
    have first : halvesOut t ≤ halvesOut s + m := first
    exact (rest t rfl).trans (by omega)

theorem emitByte_halvesOut (v : Byte) (s : State) : halvesOut (emitByte v s).state ≤ halvesOut s + 2 := by
  unfold emitByte
  split
  · exact Nat.le_add_right _ _
  · change 2 * (s.outCount + 1) + s.nibValid.toNat ≤ 2 * s.outCount + s.nibValid.toNat + 2
    omega

theorem emitRun_halvesOut (c v : Byte) (s : State) :
    halvesOut (emitRun c v s).state ≤ halvesOut s + unitHalves s.mode := by
  unfold emitRun
  split <;> rename_i m <;> rw [m]
  · exact Flow.andThen_halvesOut (emitByte_halvesOut c s) fun t _ => emitByte_halvesOut v t
  · exact emitByte_halvesOut _ s
  · exact Nat.le_add_right _ _
  · exact Nat.le_add_right _ _

/-- The held count is the other half of the byte. -/
theorem emitBrPackedByte_halvesOut (hi lo : Nibble) (held : s.nibValid = true) :
    halvesOut (emitBrPackedByte hi lo s).state ≤ halvesOut s + 1 := by
  unfold emitBrPackedByte emitByte
  split
  · exact Nat.le_add_right _ _
  · change 2 * (s.outCount + 1) + 0 ≤ 2 * s.outCount + s.nibValid.toNat + 1
    rw [held, Bool.toNat_true]
    omega

theorem emitCount_halvesOut (c : Byte) (s : State) :
    halvesOut (emitCount c s).state ≤ halvesOut s + unitHalves s.mode := by
  unfold emitCount
  split <;> rename_i m <;> rw [m]
  · exact emitByte_halvesOut c s
  · split
    · exact emitBrPackedByte_halvesOut _ _ ‹_›
    · rename_i free
      simp [halvesOut, free, unitHalves]
  · exact Nat.le_add_right _ _
  · exact Nat.le_add_right _ _

/-- R97: in each of its cases a pixel emits at most one unit. -/
theorem vrStep_halvesOut (q : Byte) (s : State) :
    halvesOut (vrStep q s).state ≤ halvesOut s + unitHalves s.mode := by
  cases running : s.runValid with
  | false =>
    rw [vrStep_start q running]
    exact Nat.le_add_right _ _
  | true =>
    by_cases same : q = s.runVal
    · rw [same]
      by_cases full : (s.runCnt + 1).toNat = s.mode.cap
      · rw [vrStep_saturate running full]
        exact Flow.andThen_halvesOut (n := 0)
          (emitRun_halvesOut _ _ (s.setRun true s.runVal (s.runCnt + 1))) fun _ _ => Nat.le_refl _
      · rw [vrStep_extend running full]
        exact Nat.le_add_right _ _
    · rw [vrStep_change running same]
      exact Flow.andThen_halvesOut (n := 0) (emitRun_halvesOut _ _ s) fun _ _ => Nat.le_refl _

/-- R117: in each of its cases a pixel emits at most one count. -/
theorem brStep_halvesOut (b : Bool) (s : State) :
    halvesOut (brStep b s).state ≤ halvesOut s + unitHalves s.mode := by
  by_cases same : b = s.tgt
  · rw [same]
    by_cases full : (s.runCnt + 1).toNat = s.mode.cap
    · rw [brStep_saturate full]
      exact Flow.andThen_halvesOut (n := 0)
        (emitCount_halvesOut _ (s.setBitRun s.tgt (s.runCnt + 1))) fun _ _ => Nat.le_refl _
    · rw [brStep_extend full]
      exact Nat.le_add_right _ _
  · rw [brStep_toggle same]
    exact Flow.andThen_halvesOut (n := 0) (emitCount_halvesOut _ s) fun _ _ => Nat.le_refl _

theorem pixelStep_halvesOut (p : Byte) (s : State) :
    halvesOut (pixelStep p s).state ≤ halvesOut s + unitHalves s.mode := by
  unfold pixelStep
  split
  · exact vrStep_halvesOut _ s
  · exact brStep_halvesOut _ s

theorem feedPixels_halvesOut (ps : List Byte) (s : State) :
    halvesOut (feedPixels ps s).state ≤ halvesOut s + ps.length * unitHalves s.mode := by
  induction ps generalizing s with
  | nil => exact Nat.le_add_right _ _
  | cons p ps ih =>
    rw [List.length_cons, Nat.succ_mul, Nat.add_comm (ps.length * _)]
    refine Flow.andThen_halvesOut (pixelStep_halvesOut p s) fun t fed => ?_
    rw [← (pixelStep_emits p s).mode_of_go fed]
    exact ih t

theorem vrFlush_halvesOut (s : State) : halvesOut (vrFlush s).state ≤ halvesOut s + unitHalves s.mode := by
  refine Flow.andThen_halvesOut (n := 0) ?_ fun _ _ => Nat.le_refl _
  split
  · exact emitRun_halvesOut _ _ s
  · exact Nat.le_add_right _ _

theorem lastCount_halvesOut (s : State) : halvesOut (lastCount s).state ≤ halvesOut s + unitHalves s.mode := by
  unfold lastCount
  split
  · exact Nat.le_add_right _ _
  · exact emitCount_halvesOut _ s

/-- The zero pad takes what a count leaves of a byte (R118). -/
theorem padNibble_halvesOut (s : State) : halvesOut (padNibble s).state ≤ halvesOut s + (2 - unitHalves s.mode) := by
  unfold padNibble
  split
  · rename_i held
    obtain ⟨packed, held⟩ := held
    rw [packed]
    exact emitBrPackedByte_halvesOut _ _ held
  · exact Nat.le_add_right _ _

theorem lastCount_emits (s : State) : Flow.Emits s (lastCount s) := by
  unfold lastCount
  split
  · exact .refl s
  · exact emitCount_emits _ s

theorem brFlush_halvesOut (s : State) :
    halvesOut (brFlush s).state ≤ halvesOut s + (unitHalves s.mode + (2 - unitHalves s.mode)) := by
  rw [brFlush_eq]
  refine Flow.andThen_halvesOut (n := 0) (Flow.andThen_halvesOut (lastCount_halvesOut s) fun t last => ?_)
    fun _ _ => Nat.le_refl _
  rw [← (lastCount_emits s).mode_of_go last]
  exact padNibble_halvesOut t

/-- R155: a unit, and what it may leave of a byte. -/
theorem flushChunk_halvesOut (s : State) :
    halvesOut (flushChunk s).state ≤ halvesOut s + (unitHalves s.mode + (2 - unitHalves s.mode)) := by
  unfold flushChunk
  split
  · exact (vrFlush_halvesOut s).trans (by omega)
  · exact brFlush_halvesOut s

end

/-- R143: what a `PUSH` emits, in every case of it. -/
theorem execPush_bytes {b : Byte} {s t : State} (h : execPush b s = .next t) :
    ∃ l, t.events = s.events ++ byteEvents l ∧ l.length ≤ maxPushBytes s.mode s.bppc := by
  have halves : halvesOut t ≤ halvesOut s + s.bppc.ppb * unitHalves s.mode := by
    obtain ⟨-, rfl⟩ | ⟨-, rfl⟩ | ⟨-, -, rfl⟩ | ⟨-, -, rfl⟩ := execPush_cases h
    · exact Nat.le_add_right _ _
    · exact Nat.le_add_right _ _
    · exact Nat.le_add_right _ _
    · have fed := feedPixels_halvesOut (unpack s.bppc b) (s.setInCount (s.inCount + 1))
      rwa [length_unpack] at fed
  obtain ⟨n, l, g⟩ := execPush_grew h
  have bound := g.two_mul_length_le (n := s.bppc.ppb * unitHalves s.mode) halves
  exact ⟨l, g.events, by rw [maxPushBytes_eq, unitBytes]; omega⟩

/-- R143: what an `END` emits, in every case of it. -/
theorem execEnd_bytes {s t : State} (h : execEnd s = .next t) :
    ∃ l, t.events = s.events ++ byteEvents l ∧ l.length ≤ maxEndBytes s.mode := by
  have flushed := flushChunk_halvesOut s
  have halves : halvesOut t ≤ halvesOut s + 2 * maxEndBytes s.mode := by
    rw [two_mul_maxEndBytes]
    obtain ⟨-, rfl⟩ | ⟨-, rfl⟩ | ⟨-, stop⟩ | ⟨-, u, go, rfl⟩ := execEnd_cases h
    · exact Nat.le_add_right _ _
    · exact Nat.le_add_right _ _
    · rwa [stop] at flushed
    · rwa [go] at flushed
  obtain ⟨n, l, g⟩ := execEnd_grew h
  have bound := g.two_mul_length_le (n := 2 * maxEndBytes s.mode) halves
  exact ⟨l, g.events, by omega⟩

/-- `BEGIN` adds its record or, where it is refused, nothing (R153). -/
theorem execBegin_events {s t : State} (h : execBegin s = .next t) :
    ∃ es, t.events = s.events ++ es ∧ bytesOf es = [] ∧ (recordsOf es).length ≤ 1 := by
  have nothing : s.events = s.events ++ [] ∧ bytesOf [] = [] ∧ (recordsOf []).length ≤ 1 :=
    ⟨(List.append_nil _).symm, rfl, Nat.zero_le _⟩
  obtain ⟨-, rfl⟩ | ⟨-, rfl⟩ | ⟨-, -, rfl⟩ | ⟨-, -, rfl⟩ := execBegin_cases h
  · exact ⟨[], nothing⟩
  · exact ⟨[], nothing⟩
  · exact ⟨[], nothing⟩
  · exact ⟨[.off s.chunkIdx s.outCount], rfl, rfl, Nat.le_refl 1⟩

theorem execCfg_events {m : Mode} {c : BppCode} {s t : State} (h : execCfg m c s = .next t) : t.events = s.events := by
  obtain ⟨-, rfl⟩ | ⟨-, rfl⟩ | ⟨-, rfl⟩ := execCfg_cases h <;> rfl

theorem rejectIllegal_events {s t : State} (h : rejectIllegal s = .next t) : t.events = s.events := by
  obtain ⟨-, rfl⟩ | ⟨-, rfl⟩ := rejectIllegal_cases h <;> rfl

/-- Settles O42, command by command: the half bytes of `PUSH` and of `END`, and the events of the others. -/
theorem commandOutputBounds : Obligations.CommandOutputBounds := by
  intro s t w i _ d h
  have isCommand := decodeCommand_isCommand d
  have nothing (same : t.events = s.events) : ∃ es, t.events = s.events ++ es ∧ es = [] :=
    ⟨[], by rw [same, List.append_nil], rfl⟩
  cases i with
  | nop =>
    have h : execNop s = .next t := h
    rw [execNop_eq] at h
    cases h
    exact nothing rfl
  | cfg m c => exact nothing (execCfg_events h)
  | beginChunk => exact execBegin_events h
  | push b =>
    obtain ⟨l, events, bound⟩ := execPush_bytes h
    exact ⟨_, events, by rwa [bytesOf_byteEvents], recordsOf_byteEvents l⟩
  | endChunk =>
    obtain ⟨l, events, bound⟩ := execEnd_bytes h
    exact ⟨_, events, by rwa [bytesOf_byteEvents], recordsOf_byteEvents l⟩
  | reservedOp5 arg => exact nothing (rejectIllegal_events h)
  | reservedOp6 arg => exact nothing (rejectIllegal_events h)
  | reservedOp7 arg => exact nothing (rejectIllegal_events h)
  | unitVrWide | unitVrPacked | unitBrWide | byteBrPacked | offsetRecord => cases isCommand

/-! ### The offset table (R134) -/

section
variable (m : Mode) (c : BppCode)

theorem length_chunkOffsets (o : Nat) (chunks : List (List Byte)) :
    (chunkOffsets m c o chunks).length = chunks.length := by
  induction chunks generalizing o with
  | nil => rfl
  | cons bytes chunks ih => exact congrArg (· + 1) (ih _)

/-- An offset is the length of what comes before its chunk (R49). -/
theorem getElem?_chunkOffsets (o : Nat) (chunks : List (List Byte)) (i : Nat) :
    (chunkOffsets m c o chunks)[i]?
      = (chunks[i]?).map fun _ => o + ((chunks.take i).flatMap (encodeChunk m c)).length := by
  induction chunks generalizing o i with
  | nil => rfl
  | cons bytes chunks ih =>
    cases i with
    | zero => rfl
    | succ i =>
      rw [chunkOffsets, List.getElem?_cons_succ, ih, List.getElem?_cons_succ, List.take_succ_cons, List.flatMap_cons,
        List.length_append, Nat.add_assoc]

end

/-- The table of a run: an entry is the length of the encodings of the chunks before it (R133). -/
theorem getElem?_offsets (m : Mode) (c : BppCode) (chunks : List (List Byte)) (i : Nat) :
    (encodeRun m c chunks).offsets[i]?
      = (chunks[i]?).map fun _ => ((chunks.take i).flatMap (encodeChunk m c)).length := by
  rw [encodeRun_eq, getElem?_chunkOffsets]
  simp only [Nat.zero_add]

/-- Settles O40: an offset is the length of the encodings before it, to which the chunk adds that of its own. -/
theorem offsetsAreCumulativeLengths : Obligations.OffsetsAreCumulativeLengths := by
  intro m c chunks
  have length : (encodeRun m c chunks).offsets.length = chunks.length := by
    rw [encodeRun_eq]
    exact length_chunkOffsets m c 0 chunks
  refine ⟨length, fun nonempty => ?_, fun i o o' here next => ?_, fun o ch last lastChunk => ?_⟩
  · obtain ⟨ch, others, rfl⟩ := List.exists_cons_of_ne_nil nonempty
    exact getElem?_offsets m c _ 0
  · rw [getElem?_offsets] at here next
    obtain ⟨ch, chunk, rfl⟩ := Option.map_eq_some_iff.mp here
    obtain ⟨-, -, rfl⟩ := Option.map_eq_some_iff.mp next
    have sum : ((chunks.take (i + 1)).flatMap (encodeChunk m c)).length
        = ((chunks.take i).flatMap (encodeChunk m c)).length + (encodeChunk m c ch).length := by
      rw [List.take_add_one, chunk, List.flatMap_append, List.length_append, Option.toList_some,
        List.flatMap_singleton]
    exact ⟨ch, chunk, sum, by rw [sum, Nat.add_eq_left, List.length_eq_zero_iff, encodeChunk_eq_nil_iff]⟩
  · obtain ⟨others, rfl⟩ := List.getLast?_eq_some_iff.mp lastChunk
    rw [List.getLast?_eq_getElem?, length, getElem?_offsets, List.length_append, List.length_singleton,
      Nat.add_sub_cancel, List.take_left, List.getElem?_concat_length] at last
    cases last
    rw [encodeRun_eq, List.flatMap_append, List.length_append, List.flatMap_singleton]

/-! ### A whole run (R142) -/

theorem run_add {m n : Nat} {s t : State} (first : Host.Core.run core m s = .next t) :
    Host.Core.run core (m + n) s = Host.Core.run core n t := by
  induction m generalizing s with
  | zero =>
    cases first
    rw [Nat.zero_add]
  | succ m ih =>
    obtain ⟨⟨u, one⟩, -⟩ := everyStepAnswersANextState s
    rw [run_succ m one] at first
    rw [Nat.add_right_comm, run_succ _ one, ih first]

theorem roomForBytes_eq (s : State) (n : Nat) : roomForBytes s n = fitsWidth s.params.offw (s.outCount + n) := by
  unfold roomForBytes
  cases s.params.offw <;> rfl

theorem roomForInput_eq (s : State) (n : Nat) : roomForInput s n = fitsWidth s.params.offw (s.inCount + n) := by
  unfold roomForInput
  cases s.params.offw <;> rfl

theorem fitsWidth_mono {w : Option Nat} {m n : Nat} (h : fitsWidth w n = true) (le : m ≤ n) : fitsWidth w m = true := by
  cases w with
  | none => rfl
  | some k => exact decide_eq_true (le.trans_lt (of_decide_eq_true h))

theorem not_counterFull_of_fits {w : Option Nat} {n : Nat} (h : fitsWidth w (n + 1) = true) :
    counterFull w n = false := by
  rw [Bool.eq_false_iff]
  intro full
  obtain ⟨k, rfl, last⟩ := (counterFull_iff _ _).mp full
  have lt : n + 1 < 2 ^ k := of_decide_eq_true h
  omega

theorem execCfg_configured (m : Mode) (c : BppCode) {s : State} (p : s.phase = .unconf ∨ s.phase = .idle) :
    exec (.cfg m c) s = .next (configure m c s) := by
  change execCfg m c s = _
  rw [execCfg, runCommand_accepted (by obtain p | p := p <;> simp [p]) (by obtain p | p := p <;> simp [p])]
  rfl

/-- `t` is `s` with the commands of `chunks` executed, the run-length registers, the inputs to come and what the host
has taken set aside. -/
structure RanChunks (s t : State) (chunks : List (List Byte)) : Prop where
  phase : t.phase = .idle
  events : t.events = s.events ++ runTrace s.mode s.bppc s.chunkIdx s.outCount chunks
  inCount : t.inCount = s.inCount + (chunks.map List.length).sum
  outCount : t.outCount = s.outCount + (chunks.flatMap (encodeChunk s.mode s.bppc)).length
  chunkIdx : t.chunkIdx = s.chunkIdx + chunks.length
  mode : t.mode = s.mode
  bppc : t.bppc = s.bppc
  params : t.params = s.params
  runAt : t.runAt = s.runAt

theorem RanChunks.nil {s : State} (p : s.phase = .idle) : RanChunks s s [] where
  phase := p
  events := (List.append_nil _).symm
  inCount := rfl
  outCount := rfl
  chunkIdx := rfl
  mode := rfl
  bppc := rfl
  params := rfl
  runAt := rfl

/-- One chunk, by what it adds to the record of its `BEGIN` (R153). -/
theorem Grew.ranChunks {s t : State} {bytes : List Byte} {rest : List Input}
    (g : Grew ((openChunk s).closedAfter bytes.length rest) t (encodeChunk s.mode s.bppc bytes)) (p : t.phase = .idle) :
    RanChunks s t [bytes] where
  phase := p
  events := by
    rw [g.events, runTrace, runTrace, List.append_nil]
    exact List.append_assoc _ _ _
  inCount := g.inCount
  outCount := by
    rw [g.outCount, List.flatMap_singleton]
    rfl
  chunkIdx := g.chunkIdx
  mode := g.mode
  bppc := g.bppc
  params := g.params
  runAt := g.runAt

theorem RanChunks.cons {s t u : State} {bytes : List Byte} {chunks : List (List Byte)} (x : RanChunks s t [bytes])
    (y : RanChunks t u chunks) : RanChunks s u (bytes :: chunks) where
  phase := y.phase
  events := by
    rw [y.events, x.events, x.mode, x.bppc, x.chunkIdx, x.outCount, List.flatMap_singleton, runTrace, runTrace,
      runTrace, List.append_nil, List.append_assoc]
    rfl
  inCount := by
    rw [y.inCount, x.inCount, List.map_singleton, List.sum_singleton, List.map_cons, List.sum_cons, Nat.add_assoc]
  outCount := by
    rw [y.outCount, x.outCount, x.mode, x.bppc, List.flatMap_singleton, List.flatMap_cons, List.length_append,
      Nat.add_assoc]
  chunkIdx := by
    rw [y.chunkIdx, x.chunkIdx, List.length_singleton, List.length_cons, Nat.add_assoc, Nat.add_comm 1]
  mode := y.mode.trans x.mode
  bppc := y.bppc.trans x.bppc
  params := y.params.trans x.params
  runAt := y.runAt.trans x.runAt

section
variable {s : State} {rest : List Input}

/-- The first command of a run: `CFG` empties it (R152). -/
theorem step_cfg {m : Mode} {c : BppCode} {chunks : List (List Byte)} (p : s.phase = .unconf ∨ s.phase = .idle)
    (pending : s.pending = (runCommands m c chunks).flatMap presentInstr ++ rest) :
    step s = .next (configure m c (s.setPending ((chunks.flatMap chunkCommands).flatMap presentInstr ++ rest))) :=
  (step_of_decodes pending (decodeCommand_cfg m c)).trans (execCfg_configured m c p)

/-- R142 for one chunk: the run of an open chunk, from its `BEGIN` on. -/
theorem run_chunkCommands {bytes : List Byte} (p : s.phase = .idle)
    (pending : s.pending = (chunkCommands bytes).flatMap presentInstr ++ rest)
    (notFull : counterFull s.params.idxw s.chunkIdx = false) (roomIn : roomForInput s bytes.length = true)
    (room : roomForBytes s (encodeChunk s.mode s.bppc bytes).length = true) :
    ∃ t, Host.Core.run core (chunkCommands bytes).length s = .next t ∧ t.pending = rest ∧ RanChunks s t [bytes] := by
  have opened := chunkOpen_openChunk (s.setPending (pushesThenEnd bytes rest))
  have whole : restOfChunk (openChunk (s.setPending (pushesThenEnd bytes rest))) bytes
      = encodeChunk s.mode s.bppc bytes := restOfChunk_openChunk _ bytes
  obtain ⟨t, run, phase, g⟩ := run_restOfChunk bytes opened rfl roomIn (by rw [whole]; exact room)
  rw [whole] at g
  have count : (chunkCommands bytes).length = bytes.length + 1 + 1 := by simp [chunkCommands]
  rw [count, run_succ _ (step_begin pending p notFull)]
  exact ⟨t, run, g.pending, Grew.ranChunks (rest := rest) g phase⟩

/-- R142 after `CFG`, by induction on the chunks. -/
theorem run_chunks (chunks : List (List Byte)) {s : State} (p : s.phase = .idle)
    (pending : s.pending = (chunks.flatMap chunkCommands).flatMap presentInstr ++ rest)
    (outFits : fitsWidth s.params.offw (s.outCount + (chunks.flatMap (encodeChunk s.mode s.bppc)).length) = true)
    (inFits : fitsWidth s.params.offw (s.inCount + (chunks.map List.length).sum) = true)
    (idxFits : fitsWidth s.params.idxw (s.chunkIdx + chunks.length) = true) :
    ∃ t, Host.Core.run core (chunks.flatMap chunkCommands).length s = .next t ∧ t.pending = rest ∧
      RanChunks s t chunks := by
  induction chunks generalizing s with
  | nil => exact ⟨s, rfl, pending, .nil p⟩
  | cons bytes chunks ih =>
    rw [List.flatMap_cons, List.flatMap_append, List.append_assoc] at pending
    rw [List.flatMap_cons, List.length_append, ← Nat.add_assoc] at outFits
    rw [List.map_cons, List.sum_cons, ← Nat.add_assoc] at inFits
    rw [List.length_cons, Nat.add_comm chunks.length, ← Nat.add_assoc] at idxFits
    obtain ⟨t, first, pending', x⟩ := run_chunkCommands p pending
      (not_counterFull_of_fits (fitsWidth_mono idxFits (Nat.le_add_right _ _)))
      ((roomForInput_eq _ _).trans (fitsWidth_mono inFits (Nat.le_add_right _ _)))
      ((roomForBytes_eq _ _).trans (fitsWidth_mono outFits (Nat.le_add_right _ _)))
    obtain ⟨u, others, pending'', y⟩ := ih x.phase pending'
      (by rwa [x.params, x.outCount, x.mode, x.bppc, List.flatMap_singleton])
      (by rwa [x.params, x.inCount])
      (by rwa [x.params, x.chunkIdx])
    rw [List.flatMap_cons, List.length_append, run_add first]
    exact ⟨u, others, pending'', x.cons y⟩

end

section
variable (m : Mode) (c : BppCode) (i o : Nat) (chunks : List (List Byte))

theorem bytesOf_runTrace : bytesOf (runTrace m c i o chunks) = chunks.flatMap (encodeChunk m c) := by
  induction chunks generalizing i o with
  | nil => rfl
  | cons bytes chunks ih => simp [runTrace, bytesOf, ih]

theorem recordsOf_runTrace : (recordsOf (runTrace m c i o chunks)).map Prod.snd = chunkOffsets m c o chunks := by
  induction chunks generalizing i o with
  | nil => rfl
  | cons bytes chunks ih => simp [runTrace, recordsOf, chunkOffsets, ih]

end

/-- The result of a run (R158) whose `CFG` set the mark of the run at the end of the events. -/
theorem RanChunks.runResult {s t : State} {chunks : List (List Byte)} (x : RanChunks s t chunks)
    (mark : s.runAt = s.events.length) (out : s.outCount = 0) (input : s.inCount = 0) (idx : s.chunkIdx = 0) :
    runResult t = some ⟨(encodeRun s.mode s.bppc chunks).blob, (encodeRun s.mode s.bppc chunks).offsets,
      (encodeRun s.mode s.bppc chunks).originalSize, (encodeRun s.mode s.bppc chunks).compressedSize,
      chunks.length⟩ := by
  have events : runEvents t = runTrace s.mode s.bppc 0 0 chunks := by
    rw [runEvents, x.runAt, x.events, mark, List.drop_left, idx, out]
  rw [Machine.runResult, if_pos x.phase, blob, offsetTable, events, bytesOf_runTrace, recordsOf_runTrace, x.inCount,
    x.outCount, x.chunkIdx, out, input, idx, Nat.zero_add, Nat.zero_add, Nat.zero_add, encodeRun_eq]

/-- Settles O39: `CFG` empties the run, and each chunk then adds its record and its encoding. -/
theorem runStreamingIsFunctional : Obligations.RunStreamingIsFunctional := by
  intro s m c chunks rest p pending outFits inFits idxFits
  rw [encodeRun_eq] at outFits inFits
  obtain ⟨t, run, pending', x⟩ := run_chunks chunks (rest := rest) (s := configure m c (s.setPending _)) rfl rfl
    ((congrArg _ (Nat.zero_add _)).trans outFits) ((congrArg _ (Nat.zero_add _)).trans inFits)
    ((congrArg _ (Nat.zero_add _)).trans idxFits)
  have result := x.runResult rfl rfl rfl rfl
  refine ⟨t, (run_succ _ (step_cfg p pending)).trans run, x.events, x.phase, ?_, ?_, ?_, pending', result⟩
  · rw [encodeRun_eq]
    exact x.inCount.trans (Nat.zero_add _)
  · rw [encodeRun_eq]
    exact x.outCount.trans (Nat.zero_add _)
  · exact x.chunkIdx.trans (Nat.zero_add _)

end Sys2Proof.Machine

/-! PROOFS for the commands (spec/44_commands.md). A word is the step of its command (O7); what an illegal operand, a
closed phase and a last index raise, and the whole effect of the rest (O14, O15, O16); the cells of the phase machine
(O22); and the result of a run (O60). -/

namespace Sys2Proof.Machine

/-! ### A word and its command (R150) -/

/-- Settles O7: `step` takes the word and `stepWord` decodes it (`step_of_decodes`). -/
theorem stepRunsTheDecodedCommand : Obligations.StepRunsTheDecodedCommand := fun _ _ _ _ => step_of_decodes

/-! ### What a word raises -/

/-- R192, outside `FAULT`. -/
theorem stepWord_raises_illegal {w : CmdWord} {s : State} (illegal : illegalWord w = true)
    (notFault : s.phase ≠ .fault) : stepWord w s = .next (raiseFault .illegal s) :=
  (stepWord_of_illegalWord illegal s).trans (if_neg notFault)

/-- `NOP`, `BEGIN` and `END` have no operand (R65). -/
theorem illegalWord_commandWord_of_arg {op : BitVec 3} {arg : Byte} (hop : op.toNat ∈ [0, 2, 4]) (harg : arg ≠ 0) :
    illegalWord (commandWord op arg) = true :=
  illegalWord_of_arg (by rwa [opField_commandWord]) (by rwa [argField_commandWord])

/-- `CFG` has reserved operand bits (R62, R65). -/
theorem illegalWord_commandWord_cfg {arg : Byte} (reserved : cfgZeroField arg ≠ 0) :
    illegalWord (commandWord 1 arg) = true :=
  (illegalWord_iff _).mpr (.inr (.inr ⟨by rw [opField_commandWord]; rfl, by rwa [argField_commandWord]⟩))

theorem execCfg_raises_proto (m : Mode) (c : BppCode) {s : State} (p : s.phase = .chunk) :
    execCfg m c s = .next (raiseFault .proto s) :=
  runCommand_proto (by simp [p]) (by simp [p]) _

theorem execBegin_raises_proto {s : State} (p : s.phase = .unconf ∨ s.phase = .chunk) :
    execBegin s = .next (raiseFault .proto s) :=
  runCommand_proto (by obtain p | p := p <;> simp [p]) (by obtain p | p := p <;> simp [p]) _

theorem execBegin_raises_ovf {s : State} (p : s.phase = .idle)
    (full : counterFull s.params.idxw s.chunkIdx = true) : execBegin s = .next (raiseFault .ovf s) := by
  rw [execBegin, runCommand_accepted (by simp [p]) (by simp [p]), if_pos full, Flow.state_stop]

/-! ### `NOP`, `CFG` and `BEGIN` (R151 to R153) -/

/-- Settles O14: `NOP` is accepted in every phase, with an operand it is an illegal word. -/
theorem nopHasNoEffect : Obligations.NopHasNoEffect :=
  ⟨execNop_eq, fun _ _ harg => stepWord_raises_illegal (illegalWord_commandWord_of_arg (by decide) harg)⟩

/-- From its mark on, the run that `CFG` begins has no events (R152). -/
theorem runEvents_configure (m : Mode) (c : BppCode) (s : State) : runEvents (configure m c s) = [] :=
  runEvents_markRun s

/-- Settles O15: where no chunk is open the next state is `configure`, which marks a new run after the events. -/
theorem cfgStartsACompressionRun : Obligations.CfgStartsACompressionRun := by
  refine ⟨fun s m c p => ⟨configure m c s, execCfg_configured m c p, rfl, ?_, ?_⟩,
    fun s m c => execCfg_raises_proto m c,
    fun s arg reserved => stepWord_raises_illegal (illegalWord_commandWord_cfg reserved)⟩
  · rw [blob, runEvents_configure, bytesOf]
  · rw [offsetTable, runEvents_configure, recordsOf, List.map_nil]

/-- Settles O16, by the phase and, in `IDLE`, by whether `chunk_idx` is at its last value (`counterFull_iff`). -/
theorem beginOpensAChunk : Obligations.BeginOpensAChunk := by
  refine ⟨fun s p notLast => execBegin_opened p ?_,
    fun s k p bounded last => execBegin_raises_ovf p ((counterFull_iff _ _).mpr ⟨k, bounded, last⟩),
    fun s => execBegin_raises_proto,
    fun s arg harg => stepWord_raises_illegal (illegalWord_commandWord_of_arg (by decide) harg)⟩
  rw [Bool.eq_false_iff]
  intro full
  obtain ⟨k, bounded, last⟩ := (counterFull_iff _ _).mp full
  exact notLast k bounded last

/-! ### The phase machine (R157) -/

section
variable {s t : State}

theorem rejectIllegal_phase (notFault : s.phase ≠ .fault) (h : rejectIllegal s = .next t) :
    t.phase = .fault ∧ t.faultCode = .illegal := by
  obtain ⟨fault, -⟩ | ⟨-, rfl⟩ := rejectIllegal_cases h
  · exact absurd fault notFault
  · exact ⟨rfl, rfl⟩

/-- The cells of a command in the phases that do not allow it (R194). -/
theorem runCommand_phase_of_refused {legal : Phase → Bool} {body : State → Flow} (notFault : s.phase ≠ .fault)
    (refused : legal s.phase = false) (h : runCommand legal body s = .next t) :
    t.phase = .fault ∧ t.faultCode = .proto := by
  rw [runCommand_proto notFault refused] at h
  cases h
  exact ⟨rfl, rfl⟩

theorem execCfg_phase {m : Mode} {c : BppCode} (p : s.phase = .unconf ∨ s.phase = .idle)
    (h : execCfg m c s = .next t) : t.phase = .idle := by
  have configured : execCfg m c s = .next (configure m c s) := execCfg_configured m c p
  rw [configured] at h
  cases h
  rfl

theorem execBegin_phase (p : s.phase = .idle) (h : execBegin s = .next t) :
    t.phase = .chunk ∨ (t.phase = .fault ∧ t.faultCode = .ovf) := by
  obtain ⟨q, -⟩ | ⟨q, -⟩ | ⟨-, -, rfl⟩ | ⟨-, -, rfl⟩ := execBegin_cases h
  · simp [p] at q
  · simp [p] at q
  · exact .inr ⟨rfl, rfl⟩
  · exact .inl rfl

theorem execPush_phase {b : Byte} (p : s.phase = .chunk) (h : execPush b s = .next t) :
    t.phase = .chunk ∨ (t.phase = .fault ∧ t.faultCode = .ovf) := by
  obtain ⟨q, -⟩ | ⟨q, -⟩ | ⟨-, -, rfl⟩ | ⟨-, -, rfl⟩ := execPush_cases h
  · simp [p] at q
  · simp [p] at q
  · exact .inr ⟨rfl, rfl⟩
  · obtain ⟨-, -, ⟨kept, -⟩ | ⟨fault, ovf, -⟩⟩ :=
      (feedPixels_emits (unpack s.bppc b) (s.setInCount (s.inCount + 1))).state
    · exact .inl (kept.trans p)
    · exact .inr ⟨fault, ovf⟩

theorem execEnd_phase (p : s.phase = .chunk) (h : execEnd s = .next t) :
    t.phase = .idle ∨ (t.phase = .fault ∧ t.faultCode = .ovf) := by
  obtain ⟨q, -⟩ | ⟨q, -⟩ | ⟨-, stop⟩ | ⟨-, u, -, rfl⟩ := execEnd_cases h
  · simp [p] at q
  · simp [p] at q
  · have flushed := flushChunk_emits s
    rw [stop] at flushed
    obtain ⟨-, -, fault, ovf, -⟩ := flushed
    exact .inr ⟨fault, ovf⟩
  · exact .inl rfl

end

/-- Settles O22, a cell of R157's table at a time. -/
theorem phaseMachine : Obligations.PhaseMachine := by
  refine ⟨fun s t w h => ⟨fun fault => stepWord_of_fault fault h, fun notFault e d => ?_, fun notFault i d => ?_⟩,
    fun s t rest reset h => ?_⟩
  · rw [stepWord_of_illegalWord (illegalWord_of_error d)] at h
    exact rejectIllegal_phase notFault h
  · have h : exec i s = .next t := by rwa [stepWord, d] at h
    have isCommand := decodeCommand_isCommand d
    have proto {legal : Phase → Bool} {body : State → Flow} {q : Phase} (p : s.phase = q)
        (refused : legal q = false) (h : runCommand legal body s = .next t) : t.phase = .fault ∧ t.faultCode = .proto :=
      runCommand_phase_of_refused notFault (by rwa [p]) h
    cases i with
    | nop =>
      change execNop s = .next t at h
      rw [execNop_eq] at h
      cases h
      rfl
    | cfg m c =>
      change execCfg m c s = .next t at h
      cases p : s.phase with
      | unconf => exact execCfg_phase (.inl p) h
      | idle => exact execCfg_phase (.inr p) h
      | chunk => exact proto p rfl h
      | fault => exact absurd p notFault
    | beginChunk =>
      change execBegin s = .next t at h
      cases p : s.phase with
      | unconf => exact proto p rfl h
      | idle => exact execBegin_phase p h
      | chunk => exact proto p rfl h
      | fault => exact absurd p notFault
    | push b =>
      change execPush b s = .next t at h
      cases p : s.phase with
      | unconf => exact proto p rfl h
      | idle => exact proto p rfl h
      | chunk => exact execPush_phase p h
      | fault => exact absurd p notFault
    | endChunk =>
      change execEnd s = .next t at h
      cases p : s.phase with
      | unconf => exact proto p rfl h
      | idle => exact proto p rfl h
      | chunk => exact execEnd_phase p h
      | fault => exact absurd p notFault
    | reservedOp5 | reservedOp6 | reservedOp7 => exact rejectIllegal_phase notFault h
    | unitVrWide | unitVrPacked | unitBrWide | byteBrPacked | offsetRecord => cases isCommand
  · rw [step_reset reset] at h
    cases h
    rfl

/-! ### The result of a run (R158) -/

/-- Settles O60: the lengths are the clauses of the invariant on `out_count` (R131) and on the records (R43). -/
theorem resultIsDefinedWhenComplete : Obligations.ResultIsDefinedWhenComplete := by
  intro s inv
  refine ⟨fun notIdle => if_neg notIdle, fun p => ⟨_, if_pos p, rfl, rfl, rfl, rfl, inv.outCount, rfl, ?_⟩⟩
  simpa [p] using inv.records (by simp [p])

end Sys2Proof.Machine

/-! PROOFS for the reference decoder (spec/45_reference_decoder.md). The round trip on prepared pixels (O43); what the
value-run decoder reads (O46); the packing of decoded bits, bit by bit (O47), and with it the exact round trip at one bit per
pixel (O44). -/

namespace Sys2Proof.Machine

/-- Settles O43, a family at a time: what follows the units, or the counts, of an encoding is not reached. -/
theorem decodingGivesThePreparedPixels : Obligations.DecodingGivesThePreparedPixels :=
  fun _ c bytes tail => ⟨fun hm => decVR_encodeChunk hm c bytes tail, fun hm => decBRBits_encodeChunk hm c bytes tail⟩

/-! ### What the value-run decoder reads (R171 to R174) -/

theorem length_fillTo {α : Type} (free : Nat → α) {n : Nat} {l : List α} (le : l.length ≤ n) :
    (fillTo free n l).length = n := by
  rw [fillTo, List.length_append, List.length_map, List.length_range, Nat.add_sub_of_le le]

/-- R173: the destination is filled, whatever the source holds. -/
theorem length_decVR (m : Mode) (src : List Byte) (capacity : Nat) : (decVR m src capacity).length = capacity :=
  length_fillTo _ (List.length_take_le _ _)

theorem expandUnits_append (us vs : List (Nat × Byte)) : expandUnits (us ++ vs) = expandUnits us ++ expandUnits vs :=
  List.flatMap_append

/-- R171: the units after the needed ones do not reach the destination. -/
theorem take_expandUnits_needed {us : List (Nat × Byte)} {capacity : Nat} (cover : capacity ≤ (expandUnits us).length) :
    (expandUnits (us.take (needUnits (us.map Prod.fst) capacity))).take capacity = (expandUnits us).take capacity := by
  rw [length_expandUnits] at cover
  obtain ⟨-, enough⟩ := needUnits_covers _ _ cover
  rw [← List.map_take, ← length_expandUnits] at enough
  conv_rhs => rw [← List.take_append_drop (needUnits (us.map Prod.fst) capacity) us, expandUnits_append]
  exact (List.take_append_of_le_length enough).symm

/-- R171, where the source covers the destination. -/
theorem decVR_of_covers {m : Mode} {src : List Byte} {capacity : Nat}
    (cover : capacity ≤ (expandUnits (unitsVR m src)).length) :
    decVR m src capacity = (expandUnits (unitsVR m src)).take capacity := by
  have filled := fillTo_length Config.uncoveredPixel ((expandUnits (unitsVR m src)).take capacity)
  rw [List.length_take_of_le cover] at filled
  rw [decVR, take_expandUnits_needed cover, filled]

/-- A longer source begins with the same pairs; only a lone last byte waits for its value (log entry 15). -/
theorem unitsVRWide_append (tail : List Byte) : ∀ src : List Byte,
    ∃ more, unitsVRWide (src ++ tail) = unitsVRWide src ++ more
  | [] => ⟨_, rfl⟩
  | [_] => ⟨_, rfl⟩
  | c :: v :: src => by
    obtain ⟨more, rest⟩ := unitsVRWide_append tail src
    exact ⟨more, congrArg ((c.toNat, v) :: ·) rest⟩

theorem unitsVR_append (m : Mode) (src tail : List Byte) : ∃ more, unitsVR m (src ++ tail) = unitsVR m src ++ more := by
  cases m with
  | vrPacked => exact ⟨_, List.map_append⟩
  | vrWide | brWide | brPacked => exact unitsVRWide_append tail src

/-- Settles O46: a longer source has further units, and units past those that cover the destination do not reach it. -/
theorem valueRunDecoderReadsOnlyWhatItNeeds : Obligations.ValueRunDecoderReadsOnlyWhatItNeeds := by
  refine fun m src tail capacity _ => ⟨length_decVR m src capacity, fun cover => ⟨decVR_of_covers cover, ?_⟩⟩
  obtain ⟨more, units⟩ := unitsVR_append m src tail
  have cover' : capacity ≤ (expandUnits (unitsVR m (src ++ tail))).length := by
    rw [units, expandUnits_append, List.length_append]
    exact Nat.le_add_right_of_le cover
  calc decVR m (src ++ tail) capacity
      = (expandUnits (unitsVR m src) ++ expandUnits more).take capacity := by
        rw [decVR_of_covers cover', units, expandUnits_append]
    _ = (expandUnits (unitsVR m src)).take capacity := List.take_append_of_le_length cover
    _ = decVR m src capacity := (decVR_of_covers cover).symm

/-! ### The packing of decoded bits (R176) -/

/-- The step of `packByte`'s loop: every bit moves up, and the new one is bit 0. -/
def shiftIn (acc : Byte) (b : Bool) : Byte := (acc <<< 1) ||| (BitVec.ofBool b).setWidth 8

theorem packByte_eq_foldl_shiftIn (index : Nat) (bits : List Bool) :
    packByte index bits
      = ((List.range 8).map fun k => (bits[k]?).getD (Config.unsetBit (8 * index + k))).foldl shiftIn 0 := rfl

theorem getLsbD_shiftIn (acc : Byte) (b : Bool) {i : Nat} (h : i < 8) :
    (shiftIn acc b).getLsbD i = if i = 0 then b else acc.getLsbD (i - 1) := by
  cases i with
  | zero => simp [shiftIn]
  | succ i => simp [shiftIn, h, BitVec.getLsbD_eq_getElem (Nat.lt_of_succ_lt h)]

/-- The bit shifted in last is bit 0. -/
theorem getLsbD_foldl_shiftIn (bits : List Bool) {i : Nat} (h : i < 8) :
    (bits.foldl shiftIn 0).getLsbD i = (bits.reverse[i]?).getD false := by
  induction bits using List.reverseRecOn generalizing i with
  | nil => simp
  | append_singleton bits b ih =>
    rw [List.foldl_concat, getLsbD_shiftIn _ _ h, List.reverse_concat]
    cases i with
    | zero => rfl
    | succ i => exact ih (Nat.lt_of_succ_lt h)

/-- The first bit of a byte's eight is bit 7. -/
theorem getLsbD_packByte (index : Nat) (bits : List Bool) {k : Nat} (h : k < 8) :
    (packByte index bits).getLsbD (7 - k) = (bits[k]?).getD (Config.unsetBit (8 * index + k)) := by
  have mirrored : 8 - 1 - (7 - k) = k := by omega
  rw [packByte_eq_foldl_shiftIn, getLsbD_foldl_shiftIn _ (by omega), List.getElem?_reverse (by simp; omega), List.length_map,
    List.length_range, mirrored, List.getElem?_map, List.getElem?_range h]
  rfl

theorem length_packBits (bits : List Bool) : (packBits bits).length = (bits.length + 7) / 8 := by
  simp [packBits]

theorem getElem?_packBits {bits : List Bool} {j : Nat} (h : j < (bits.length + 7) / 8) :
    (packBits bits)[j]? = some (packByte j (bits.drop (8 * j))) := by
  simp [packBits, h]

/-- R176, for bit `k` of destination byte `j`. -/
theorem getLsbD_getElem?_packBits {bits : List Bool} {j k : Nat} (hk : k < 8) (h : 8 * j + k < bits.length) :
    ((packBits bits)[j]?).map (fun b => b.getLsbD (7 - k)) = bits[8 * j + k]? := by
  rw [getElem?_packBits (by omega), Option.map_some, getLsbD_packByte _ _ hk, List.getElem?_drop,
    List.getElem?_eq_getElem h, Option.getD_some]

/-- Settles O47: bit `n` is bit `n mod 8`, from the top, of the byte that `packBits` makes at `n / 8`. -/
theorem decodedBitsArePackedMsbFirst : Obligations.DecodedBitsArePackedMsbFirst := by
  intro bits n h
  have packed := getLsbD_getElem?_packBits (bits := bits) (j := n / 8) (k := n % 8) (Nat.mod_lt n (by decide))
    (by rwa [Nat.div_add_mod])
  rwa [Nat.div_add_mod] at packed

/-! ### One bit per pixel (R181) -/

/-- R80 and R110: at one bit per pixel the threshold of a pixel is its bit. -/
theorem thresh_pixelAt_bpp1 (b : Byte) {k : Nat} (h : k < 8) : thresh (pixelAt .bpp1 b k) = b.getLsbD (7 - k) := by
  have bit : ∀ x : Bool, thresh ((BitVec.ofBool x).setWidth 8) = x := by decide
  have position : 8 - 1 * (k + 1) = 7 - k := by omega
  rw [pixelAt_eq_extractLsb', BppCode.bpp, position, extractLsb'_one, bit]

theorem getElem?_preparedBR_bpp1 (bytes : List Byte) (j : Nat) {k : Nat} (h : k < 8) :
    (preparedBR .bpp1 bytes)[8 * j + k]? = (bytes[j]?).map fun b => b.getLsbD (7 - k) := by
  have pixel := getElem?_unpackChunk (c := .bpp1) h bytes j
  rw [Nat.mul_comm, BppCode.ppb, BppCode.bpp, Nat.div_one] at pixel
  rw [preparedBR, List.getElem?_map, pixel]
  cases bytes[j]? with
  | none => rfl
  | some b =>
    rw [Option.bind_some, getElem?_unpack b h, Option.map_some, thresh_pixelAt_bpp1 b h]
    rfl

theorem length_unpackChunk_bpp1 (bytes : List Byte) : (unpackChunk .bpp1 bytes).length = 8 * bytes.length :=
  (length_unpackChunk .bpp1 bytes).trans (Nat.mul_comm ..)

/-- The packing of R176 undoes the unpacking of R80. -/
theorem packBits_preparedBR_bpp1 (bytes : List Byte) : packBits (preparedBR .bpp1 bytes) = bytes := by
  have bits : (preparedBR .bpp1 bytes).length = 8 * bytes.length :=
    (List.length_map ..).trans (length_unpackChunk_bpp1 bytes)
  have length : (packBits (preparedBR .bpp1 bytes)).length = bytes.length := by
    rw [length_packBits, bits]
    omega
  refine List.ext_getElem length fun j hj hj' => BitVec.eq_of_getLsbD_eq fun i hi => ?_
  have bit := (getLsbD_getElem?_packBits (j := j) (k := 7 - i) (by omega) (by omega)).trans
    (getElem?_preparedBR_bpp1 bytes j (by omega))
  have position : 7 - (7 - i) = i := by omega
  rw [position, List.getElem?_eq_getElem hj, List.getElem?_eq_getElem hj'] at bit
  exact Option.some.inj bit

/-- Settles O44: the decoder gives the chunk's bits (R180), eight for each byte of its budget, and the packing puts them
back where they were. -/
theorem oneBitPerPixelRoundTripIsExact : Obligations.OneBitPerPixelRoundTripIsExact := by
  intro m bytes hm
  have decoded := decBRBits_encodeChunk hm .bpp1 bytes []
  rw [List.append_nil, length_unpackChunk_bpp1] at decoded
  rw [decBRBytes, decoded, packBits_preparedBR_bpp1]

end Sys2Proof.Machine

/-! PROOFS for the exceptions (spec/60_exceptions.md). What a word does in a step, by whether it is illegal and whether the
block has faulted (O8, O9); the closed cells of R157's table (O21); and what has happened when `OVF` is raised (O32). -/

namespace Sys2Proof.Machine

/-! ### `ILLEGAL`, and words in `FAULT` (R192, R197) -/

theorem step_command {s : State} {w : CmdWord} {rest : List Input} (h : s.pending = .command w :: rest) :
    step s = stepWord w (s.setPending rest) := by
  rw [step, h]

/-- Settles O8: the three forms are those of `illegalWord`. -/
theorem illegalWordHasNoOtherEffect : Obligations.IllegalWordHasNoOtherEffect :=
  fun _ w _ h notFault form =>
    (step_command h).trans (stepWord_raises_illegal ((illegalWord_iff w).mpr form) notFault)

/-- Settles O9: the word is taken, and `stepWord` answers the state it is given (`stepWord_of_fault`). -/
theorem faultPhaseIgnoresEveryWord : Obligations.FaultPhaseIgnoresEveryWord := by
  intro s w rest h fault
  refine ⟨?_, if_neg (by simp [fault])⟩
  obtain ⟨t, answer⟩ := stepWord_next w (s.setPending rest)
  rw [step_command h, answer, stepWord_of_fault (s := s.setPending rest) fault answer]
  rfl

/-! ### `PROTO` (R194) -/

/-- `PUSH` and `END`, which need an open chunk. -/
theorem runCommand_of_no_open_chunk (body : State → Flow) {s : State} (p : s.phase = .unconf ∨ s.phase = .idle) :
    runCommand (fun p => p == .chunk) body s = .next (raiseFault .proto s) :=
  runCommand_proto (by obtain p | p := p <;> simp [p]) (by obtain p | p := p <;> simp [p]) _

theorem execPush_raises_proto (b : Byte) {s : State} (p : s.phase = .unconf ∨ s.phase = .idle) :
    execPush b s = .next (raiseFault .proto s) := runCommand_of_no_open_chunk _ p

theorem execEnd_raises_proto {s : State} (p : s.phase = .unconf ∨ s.phase = .idle) :
    execEnd s = .next (raiseFault .proto s) := runCommand_of_no_open_chunk _ p

/-- Settles O21, a phase at a time. -/
theorem outOfPhaseCommandsRaiseProto : Obligations.OutOfPhaseCommandsRaiseProto := fun _ m c b =>
  ⟨fun p => ⟨execBegin_raises_proto (.inl p), execPush_raises_proto b (.inl p), execEnd_raises_proto (.inl p)⟩,
    fun p => ⟨execPush_raises_proto b (.inr p), execEnd_raises_proto (.inr p)⟩,
    fun p => ⟨execCfg_raises_proto m c p, execBegin_raises_proto (.inr p)⟩⟩

/-! ### `OVF` (R195) -/

theorem execPush_raises_ovf (b : Byte) {s : State} (p : s.phase = .chunk)
    (full : counterFull s.params.offw s.inCount = true) : execPush b s = .next (raiseFault .ovf s) := by
  rw [execPush, runCommand_accepted (by simp [p]) (by simp [p]), if_pos full, Flow.state_stop]

/-- A byte that `PUSH` accepts (R154), whether or not its pixels raise a fault. -/
theorem execPush_consumed (b : Byte) {s : State} (p : s.phase = .chunk)
    (notFull : counterFull s.params.offw s.inCount = false) :
    execPush b s = .next (feedPixels (unpack s.bppc b) (s.setInCount (s.inCount + 1))).state := by
  rw [execPush, runCommand_accepted (by simp [p]) (by simp [p]), if_neg (by simp [notFull])]

section
variable {s : State}

theorem emitByte_of_full (v : Byte) (full : counterFull s.params.offw s.outCount = true) :
    emitByte v s = .stop (raiseFault .ovf s) := if_pos full

/-- R195: the fault falls between the two bytes of a unit when there is room for the count alone. -/
theorem emitVrWideUnit_of_last (count value : Byte) (room : roomForBytes s 1 = true)
    (full : counterFull s.params.offw (s.outCount + 1) = true) :
    emitVrWideUnit count value s = .stop (raiseFault .ovf (s.emitted [count])) := by
  rw [emitVrWideUnit, emitByte_of_room (n := 0) count room, Flow.andThen_go, emitByte_of_full value full]

theorem emitRun_vrWide (c v : Byte) (m : s.mode = .vrWide) : emitRun c v s = emitVrWideUnit c v s := by
  rw [emitRun, m]

/-- In `VR_WIDE` at 8 bits per pixel, a byte is one pixel as it is (R80, R91). -/
theorem feedPixels_vrWide_bpp8 (b : Byte) (m : s.mode = .vrWide) (c : s.bppc = .bpp8) :
    feedPixels (unpack s.bppc b) s = (vrStep b s).andThen .go := by
  rw [c, unpack_bpp8, feedPixels, pixelStep_of_isValueRun (by rw [m]; rfl), m, prepVR]
  rfl

/-- The one pixel of the byte ends a run whose unit does not fit: the run registers are written after the unit (R97 (c)),
so they keep their values. -/
theorem feedPixels_splits_unit {b : Byte} (m : s.mode = .vrWide) (c : s.bppc = .bpp8) (running : s.runValid = true)
    (change : b ≠ s.runVal) (room : roomForBytes s 1 = true)
    (full : counterFull s.params.offw (s.outCount + 1) = true) :
    feedPixels (unpack s.bppc b) s = .stop (raiseFault .ovf (s.emitted [s.runCnt])) := by
  rw [feedPixels_vrWide_bpp8 b m c, vrStep_change running change, emitRun_vrWide _ _ m,
    emitVrWideUnit_of_last _ _ room full, Flow.andThen_stop, Flow.andThen_stop]

end

/-- Settles O32: the two counters that are tested before anything else, and the unit that `feedPixels_splits_unit` splits.
Where two addresses are left up to `2 ^ k`, `out_count` has room for one byte and is at its last value after it. -/
theorem overflowLeavesWhatPrecededIt : Obligations.OverflowLeavesWhatPrecededIt := by
  refine fun s k b => ⟨fun p bounded last => execBegin_raises_ovf p ((counterFull_iff _ _).mpr ⟨k, bounded, last⟩),
    fun p bounded last => execPush_raises_ovf b p ((counterFull_iff _ _).mpr ⟨k, bounded, last⟩),
    fun p bounded notLast two m c running change => ?_⟩
  have notFull : counterFull s.params.offw s.inCount = false := by simpa [bounded, counterFull] using notLast
  have room : roomForBytes s 1 = true := by
    rw [roomForBytes, bounded]
    exact decide_eq_true (by omega)
  have full : counterFull s.params.offw (s.outCount + 1) = true :=
    (counterFull_iff _ _).mpr ⟨k, bounded, by omega⟩
  have splits := feedPixels_splits_unit (s := s.setInCount (s.inCount + 1)) m c running change room full
  exact (execPush_consumed b p notFull).trans (congrArg Flow.answer splits)

end Sys2Proof.Machine

/-! PROOFS for reset and hazards (spec/70_reset_and_hazards.md). Which configurations lose information (R218, O45): where
none is lost, the decoder gives back the pixels of a chunk, and they give its bytes; where some is, preparation makes two
pixels alike. -/

namespace Sys2Proof.Machine

/-! ### The pixels of a chunk determine it (R80, R81) -/

theorem getLsbD_pixelAt (c : BppCode) (b : Byte) (k : Nat) {j : Nat} (h : j < c.bpp) :
    (pixelAt c b k).getLsbD j = b.getLsbD (8 - c.bpp * (k + 1) + j) := by
  have inByte : j < 8 := h.trans_le (bpp_le c)
  simp [pixelAt_eq_extractLsb', h, inByte]

/-- The pixels of a byte leave out none of its bits. -/
theorem exists_pixel_of_bit (c : BppCode) : ∀ i < 8, ∃ k < c.ppb, ∃ j < c.bpp, 8 - c.bpp * (k + 1) + j = i := by
  cases c <;> decide

theorem unpack_injective (c : BppCode) : Function.Injective (unpack c) := by
  refine fun a b same => BitVec.eq_of_getLsbD_eq fun i hi => ?_
  obtain ⟨k, hk, j, hj, rfl⟩ := exists_pixel_of_bit c i hi
  have pixel : pixelAt c a k = pixelAt c b k := by
    rw [← Option.some_inj, ← getElem?_unpack a hk, ← getElem?_unpack b hk, same]
  rw [← getLsbD_pixelAt c a k hj, ← getLsbD_pixelAt c b k hj, pixel]

theorem eq_of_unpackChunk_eq {c : BppCode} {a b : List Byte} (length : a.length = b.length)
    (same : unpackChunk c a = unpackChunk c b) : a = b :=
  List.map_injective_iff.mpr (unpack_injective c)
    (List.eq_iff_flatten_eq.mpr ⟨same, by simp [Function.comp_def, length_unpack, length]⟩)

/-! ### The lossless configurations -/

/-- Only `VR_PACKED` quantises (R91), and below 8 bits per pixel that keeps every pixel (R90). -/
theorem prepVR_of_pixel {m : Mode} {c : BppCode} (h : lossless m c = true) {v : Byte} (pixel : v.toNat < 2 ^ c.bpp) :
    prepVR m c v = v := by
  cases m with
  | vrPacked => exact quant_of_pixel (bne_iff_ne.mp h) pixel
  | vrWide => rfl
  | brWide => rfl
  | brPacked => rfl

theorem preparedVR_of_lossless {m : Mode} {c : BppCode} (h : lossless m c = true) (bytes : List Byte) :
    preparedVR m c bytes = unpackChunk c bytes := by
  refine (List.map_congr_left fun p mem => ?_).trans (List.map_id _)
  obtain ⟨b, -, mem⟩ := List.mem_flatMap.mp mem
  obtain ⟨k, -, rfl⟩ := mem_unpack.mp mem
  exact prepVR_of_pixel h (toNat_pixelAt_lt c b k)

/-- The value-run decoder needs only the number of pixels beside the encoding (R180). -/
theorem eq_of_encodeChunk_eq_of_isValueRun {m : Mode} {c : BppCode} (hm : m.isValueRun = true)
    (h : lossless m c = true) {a b : List Byte} (length : a.length = b.length)
    (same : encodeChunk m c a = encodeChunk m c b) : a = b := by
  have decoded := decVR_encodeChunk hm c a []
  rw [same, length_unpackChunk, length, ← length_unpackChunk, decVR_encodeChunk hm, preparedVR_of_lossless h,
    preparedVR_of_lossless h] at decoded
  exact eq_of_unpackChunk_eq length decoded.symm

/-- The bit-run decoder needs only the number of bytes beside the encoding (R181). -/
theorem eq_of_encodeChunk_bpp1_eq {m : Mode} (hm : m.isValueRun = false) {a b : List Byte} (length : a.length = b.length)
    (same : encodeChunk m .bpp1 a = encodeChunk m .bpp1 b) : a = b := by
  have decoded := oneBitPerPixelRoundTripIsExact m a hm
  rw [same, length, oneBitPerPixelRoundTripIsExact m b hm] at decoded
  exact decoded.symm

theorem lossless_of_not_isValueRun {m : Mode} (hm : m.isValueRun = false) (c : BppCode) :
    lossless m c = true ↔ c = .bpp1 := by
  cases m with
  | vrWide => cases hm
  | vrPacked => cases hm
  | brWide => exact beq_iff_eq
  | brPacked => exact beq_iff_eq

/-! ### The lossy configurations

The same two bytes serve them all: `0x01` and `0x02` have equal top halves, and above one bit per pixel their last pixels are
1 and 2 behind equally many zeros. -/

theorem eq_vrPacked_bpp8_of_lossy {m : Mode} {c : BppCode} (hm : m.isValueRun = true) (h : lossless m c = false) :
    m = .vrPacked ∧ c = .bpp8 := by
  cases m with
  | vrWide => cases h
  | vrPacked => exact ⟨rfl, bne_eq_false_iff_eq.mp h⟩
  | brWide => cases hm
  | brPacked => cases hm

/-- Above one bit per pixel, the threshold of R110 does not tell 1 from 2. -/
theorem preparedBR_one_eq_two {c : BppCode} (ne : c ≠ .bpp1) : preparedBR c [1] = preparedBR c [2] := by
  cases c with
  | bpp1 => exact absurd rfl ne
  | bpp2 => rfl
  | bpp4 => rfl
  | bpp8 => rfl

theorem encodeChunk_one_eq_two {m : Mode} {c : BppCode} (h : lossless m c = false) :
    encodeChunk m c [1] = encodeChunk m c [2] := by
  cases hm : m.isValueRun with
  | true =>
    obtain ⟨rfl, rfl⟩ := eq_vrPacked_bpp8_of_lossy hm h
    rfl
  | false =>
    have ne : c ≠ .bpp1 := fun eq => by simp [(lossless_of_not_isValueRun hm c).mpr eq] at h
    rw [encodeChunk_of_not_isValueRun hm, encodeChunk_of_not_isValueRun hm, preparedBR_one_eq_two ne]

/-- Settles O45: a chunk is decoded from its encoding and its length in each family; the two chunks of the lossy
configurations are one byte each. -/
theorem losslessConfigurationsAreInjective : Obligations.LosslessConfigurationsAreInjective := by
  refine ⟨fun m c a b h length same => ?_, fun m c h => ⟨[1], [2], rfl, by decide, encodeChunk_one_eq_two h⟩⟩
  cases hm : m.isValueRun with
  | true => exact eq_of_encodeChunk_eq_of_isValueRun hm h length same
  | false =>
    obtain rfl := (lossless_of_not_isValueRun hm c).mp h
    exact eq_of_encodeChunk_bpp1_eq hm length same

end Sys2Proof.Machine
